-- ==== Sys2Proof/Word.lean ====
section
/-! DEFINITION. The words of the block: bytes, data words, command words, raw readings, and the three kinds of
event (spec/30_encoding.md R70 to R72). -/

namespace Sys2Proof

/-- A byte: a symbol register, an element of OUT (spec/10_state.md R36, R38). -/
abbrev Byte := BitVec 8

/-- A 16-bit word: a sample, an operand field (spec/20_memory.md R50, spec/30_encoding.md R70). -/
abbrev Word16 := BitVec 16

/-- A 32-bit word: an energy, a limit, the `res` of a response (spec/10_state.md R33, R34, R39). -/
abbrev Word32 := BitVec 32

/-- A command word of format C (spec/30_encoding.md R70). -/
abbrev CommandWord := BitVec 40

/-- A raw reading of format T, in [0, 1024) (spec/30_encoding.md R71). -/
abbrev Reading := BitVec 10

/-- One event as it is presented to the block, before it is decoded (spec/30_encoding.md R70 to R72). -/
inductive Event where
  /-- Format C: a 40-bit command word from the consumer. -/
  | command (w : CommandWord)
  /-- Format T: a tick with its raw reading. -/
  | tick (raw : Reading)
  /-- Format Z: reset, no bits. -/
  | reset
deriving DecidableEq, Repr

end Sys2Proof
end

