-- ==== Sys2Proof/Config.lean ====
section
/-! DEFINITION. The implementation parameters (spec/00_scope.md R5): the OPEN ones as a record, the fixed ones as
constants, and the two open FUNCTIONS `smul` and `xform` as opaque constants without a body (free values). -/

namespace Sys2Proof

/-- The OPEN parameters of spec/00_scope.md R5 but for the two functions. Which values are admitted is
`Config.wf` (R6). -/
structure Config where
  /-- LOG2L, log2 of the buffer length. -/
  log2L : Nat
  /-- T_LOW, the silence threshold. -/
  tLow : Nat
  /-- T_HIGH, the burst threshold. -/
  tHigh : Nat
  /-- N_SILENCE, ticks of silence before arming. -/
  nSilence : Nat
  /-- N_GUARD, ticks skipped after burst onset. -/
  nGuard : Nat
  /-- NSYM, symbol bytes per frame, the checksum byte included. -/
  nsym : Nat
  /-- EMIT_FIRST_ONLY: emit only the first payload byte. -/
  emitFirstOnly : Bool
deriving DecidableEq, Repr

/-- L, the buffer length in words (R5). -/
def Config.bufLen (c : Config) : Nat := 2 ^ c.log2L

/-- SHIFT = 6 - LOG2L, signed (R5, R6 (b)); derived, so that it cannot disagree with LOG2L. -/
def Config.shift (c : Config) : Int := 6 - c.log2L

/-- MID, the analog midpoint (R5). -/
def Config.mid : Nat := 512
/-- R_BIN, the reference bin (R5). -/
def Config.rBin : Nat := 1
/-- F0, the first decode bin (R5). -/
def Config.f0 : Nat := 3
/-- K, the bin stride between symbol groups (R5). -/
def Config.stride : Nat := 5
/-- POLY, the low 8 bits of the checksum polynomial (R5). -/
def Config.poly : Byte := 0xCF

/-- The error of one scaled multiply against the exact floor: the three values the law of
spec/40_arith.md R101 admits. -/
inductive SmulError where
  | under | exact | over
deriving DecidableEq, Repr, Inhabited

/-- FREE VALUE (spec/40_arith.md R101, spec/93_implementation_defined.md I1; log 6): which of the admitted results
the scaled multiply gives for a pair of operands, as a function of the operands alone. No body: nothing can be
proved of it. -/
opaque Config.smulError : Word16 → Word16 → SmulError

/-- FREE VALUE (spec/41_acquire.md R122, spec/93_implementation_defined.md I2; log 7): word `i` of the external
transform of the region `w`. No body: nothing can be proved of it. -/
opaque Config.xformWord : List Word16 → Nat → Word16

/-- CFG32 of spec/95_test_vectors.md. -/
def Config.cfg32 : Config :=
  { log2L := 5, tLow := 8, tHigh := 64, nSilence := 4, nGuard := 2, nsym := 2, emitFirstOnly := false }

/-- CFG64 of spec/95_test_vectors.md. -/
def Config.cfg64 : Config :=
  { log2L := 6, tLow := 8, tHigh := 64, nSilence := 4, nGuard := 2, nsym := 4, emitFirstOnly := false }

end Sys2Proof
end

