-- ==== Sys2Proof/Syntax.lean ====
section
/-! DEFINITION. The operations of the block: one constructor per row of spec/opcode_table.json, with the operands
that row's rule reads (spec/30_encoding.md R74, R75). Fields a rule ignores are no operands. -/

namespace Sys2Proof

/-- The 26 operations: 24 commands, TICK and RESET. An operand keeps the bits of its field; how they are read
(signed or unsigned) is the meaning's. -/
inductive Instr where
  /-- NOP (R180). -/
  | nop
  /-- SMUL: `x` = sa, `y` = ub (R103). -/
  | smul (x y : Word16)
  /-- SQR: `x` = sa (R104). -/
  | sqr (x : Word16)
  /-- MAGSQ: `re` = sa, `im` = sb (R105). -/
  | magsq (re im : Word16)
  /-- TAKE (R118). -/
  | take
  /-- RELEASE (R119). -/
  | release
  /-- LDS: word index `i` = ua (R120). -/
  | lds (i : Word16)
  /-- STS: word index `i` = ua, value `v` = sb (R121). -/
  | sts (i v : Word16)
  /-- XFORM (R122). -/
  | xform
  /-- THRESH (R148). -/
  | thresh
  /-- SETREF: `e` = e32 (R149). -/
  | setref (e : Word32)
  /-- QE: `e` = e32 (R150). -/
  | qe (e : Word32)
  /-- QBIN: bin index `b` = ua (R151). -/
  | qbin (b : Word16)
  /-- QSYM: symbol index `i` = ua (R152). -/
  | qsym (i : Word16)
  /-- DECODE (R153). -/
  | decodeFrame
  /-- CKINIT: `d` = b8 (R162). -/
  | ckinit (d : Byte)
  /-- CKBYTE: `d` = b8 (R163). -/
  | ckbyte (d : Byte)
  /-- CKFIN (R164). -/
  | ckfin
  /-- CKCMP: `d` = b8 (R165). -/
  | ckcmp (d : Byte)
  /-- VALIDATE (R166). -/
  | validate
  /-- EMIT (R167). -/
  | emit
  /-- RDSR: register index `a` = ua (R181). -/
  | rdsr (a : Word16)
  /-- RDSYM: symbol index `i` = ua (R182). -/
  | rdsym (i : Word16)
  /-- WRSYM: symbol index `i` = ua, value `v` = b8 (R183). -/
  | wrsym (i : Word16) (v : Byte)
  /-- TICK: the raw reading (R110). -/
  | tick (raw : Reading)
  /-- RESET (R210). -/
  | reset
deriving DecidableEq, Repr

/-- The operation is a command, issued by the consumer (spec/00_scope.md R7): neither TICK nor RESET. -/
def Instr.isCommand : Instr → Bool
  | .tick _ => false
  | .reset => false
  | .nop | .smul _ _ | .sqr _ | .magsq _ _ | .take | .release | .lds _ | .sts _ _ | .xform | .thresh
  | .setref _ | .qe _ | .qbin _ | .qsym _ | .decodeFrame | .ckinit _ | .ckbyte _ | .ckfin | .ckcmp _
  | .validate | .emit | .rdsr _ | .rdsym _ | .wrsym _ _ => true

end Sys2Proof
end

