-- ==== Sys2Proof/WellFormed.lean ====
section
/-! DEFINITION. Well-formedness. An operation needs no check of its own: every operand at every value of its field is
legal as an encoding (spec/30_encoding.md R74, R76), and what an operand may index is checked when the command runs
(RANGE). What the spec calls well formed or not is the CONFIGURATION (spec/00_scope.md R6): one check per clause,
and a configuration paired with the proof that it passes. -/

namespace Sys2Proof

/-- R6 (a): 4 <= LOG2L <= 10. -/
def Config.lengthOk (c : Config) : Bool := decide (4 ≤ c.log2L) && decide (c.log2L ≤ 10)

/-- R6 (c): 1 <= T_LOW < T_HIGH <= 512. -/
def Config.thresholdsOk (c : Config) : Bool :=
  decide (1 ≤ c.tLow) && decide (c.tLow < c.tHigh) && decide (c.tHigh ≤ 512)

/-- R6 (d): N_SILENCE and N_GUARD lie in [1, 65535]. -/
def Config.countsOk (c : Config) : Bool :=
  decide (1 ≤ c.nSilence) && decide (c.nSilence ≤ 65535) && decide (1 ≤ c.nGuard) && decide (c.nGuard ≤ 65535)

/-- R6 (e): NSYM >= 2. -/
def Config.nsymOk (c : Config) : Bool := decide (2 ≤ c.nsym)

/-- R6 (f): every bin the decoder reads exists; `x + 1 <= L/2` is the rule's `x <= L/2 - 1`. -/
def Config.binsOk (c : Config) : Bool :=
  decide (Config.f0 + (c.nsym - 1) * Config.stride + 3 + 1 ≤ c.bufLen / 2) && decide (Config.rBin + 1 ≤ c.bufLen / 2)

/-- R6: the configuration is well formed. Clause (b) holds by `Config.shift`, clause (g) by the construction of the
scaled multiply from `Config.smulError`. -/
def Config.wf (c : Config) : Bool :=
  c.lengthOk && c.thresholdsOk && c.countsOk && c.nsymOk && c.binsOk

/-- A well-formed configuration. R6: "a model refuses a configuration that is not well formed (it has no reset
state)": no value of this type, and so no state, exists for such a one. -/
structure WfConfig extends Config where
  ok : toConfig.wf = true
deriving DecidableEq, Repr

/-- The check of R6 as a function: refuses a configuration that is not well formed. -/
def Config.check (c : Config) : Option WfConfig :=
  if h : c.wf = true then some ⟨c, h⟩ else none

/-- CFG32 with its proof. -/
def WfConfig.cfg32 : WfConfig := ⟨Config.cfg32, by decide⟩

/-- CFG64 with its proof. -/
def WfConfig.cfg64 : WfConfig := ⟨Config.cfg64, by decide⟩

end Sys2Proof
end

