-- ==== Sys2Proof/Decode.lean ====
section
/-! DEFINITION. The decoder of events, total, rejecting reserved opcodes by name, and the encoder, both from
spec/30_encoding.md R70 to R76. -/

namespace Sys2Proof

/-- Field op, bits 39:32 (R70). -/
def opField (w : CommandWord) : Byte := w.extractLsb' 32 8
/-- Field a, bits 31:16 (R70): `ua` of R74; `sa` is the same bits read as signed. -/
def aField (w : CommandWord) : Word16 := w.extractLsb' 16 16
/-- Field b, bits 15:0 (R70): `ub` of R74; `sb` is the same bits read as signed. -/
def bField (w : CommandWord) : Word16 := w.extractLsb' 0 16
/-- `b8` of R74: b[7:0]; b[15:8] is ignored. -/
def b8Field (w : CommandWord) : Byte := w.extractLsb' 0 8
/-- `e32` of R74: a ‖ b with a as the high half. -/
def e32Field (w : CommandWord) : Word32 := w.extractLsb' 0 32

/-- Why an event has no operation. -/
inductive DecodeError where
  /-- The op is not in the opcode map (R76): the command is illegal. -/
  | reservedOpcode (op : Byte)
deriving DecidableEq, Repr

/-- The opcode map (R75): op selects the command; a field the command does not read is ignored. -/
def decodeCommand (w : CommandWord) : Except DecodeError Instr :=
  match (opField w).toNat with
  | 0x00 => .ok .nop
  | 0x10 => .ok (.smul (aField w) (bField w))
  | 0x11 => .ok (.sqr (aField w))
  | 0x12 => .ok (.magsq (aField w) (bField w))
  | 0x20 => .ok .take
  | 0x21 => .ok .release
  | 0x22 => .ok (.lds (aField w))
  | 0x23 => .ok (.sts (aField w) (bField w))
  | 0x24 => .ok .xform
  | 0x30 => .ok .thresh
  | 0x31 => .ok (.setref (e32Field w))
  | 0x32 => .ok (.qe (e32Field w))
  | 0x33 => .ok (.qbin (aField w))
  | 0x34 => .ok (.qsym (aField w))
  | 0x35 => .ok .decodeFrame
  | 0x40 => .ok (.ckinit (b8Field w))
  | 0x41 => .ok (.ckbyte (b8Field w))
  | 0x42 => .ok .ckfin
  | 0x43 => .ok (.ckcmp (b8Field w))
  | 0x44 => .ok .validate
  | 0x45 => .ok .emit
  | 0x50 => .ok (.rdsr (aField w))
  | 0x51 => .ok (.rdsym (aField w))
  | 0x52 => .ok (.wrsym (aField w) (b8Field w))
  | _ => .error (.reservedOpcode (opField w))

/-- The decoder: the format selects TICK and RESET (R71, R72), the op a command (R75). -/
def decode : Event → Except DecodeError Instr
  | .command w => decodeCommand w
  | .tick raw => .ok (.tick raw)
  | .reset => .ok .reset

/-! ### The encoder -/

/-- A command word of its three fields (R70). -/
def commandWord (op : Byte) (a b : Word16) : CommandWord := (op ++ a ++ b : BitVec (8 + 16 + 16))

/-- The field b that carries `b8`, with 0 in the ignored bits (R74). -/
def b8Operand (d : Byte) : Word16 := d.setWidth 16

/-- The command word that carries `e32`: a its high half, b its low half (R74). -/
def e32Word (op : Byte) (e : Word32) : CommandWord :=
  commandWord op (e.extractLsb' 16 16) (e.extractLsb' 0 16)

/-- The encoder, with 0 in every ignored field as an assembler writes it (R74, R75). -/
def encode : Instr → Event
  | .nop => .command (commandWord 0x00 0 0)
  | .smul x y => .command (commandWord 0x10 x y)
  | .sqr x => .command (commandWord 0x11 x 0)
  | .magsq re im => .command (commandWord 0x12 re im)
  | .take => .command (commandWord 0x20 0 0)
  | .release => .command (commandWord 0x21 0 0)
  | .lds i => .command (commandWord 0x22 i 0)
  | .sts i v => .command (commandWord 0x23 i v)
  | .xform => .command (commandWord 0x24 0 0)
  | .thresh => .command (commandWord 0x30 0 0)
  | .setref e => .command (e32Word 0x31 e)
  | .qe e => .command (e32Word 0x32 e)
  | .qbin b => .command (commandWord 0x33 b 0)
  | .qsym i => .command (commandWord 0x34 i 0)
  | .decodeFrame => .command (commandWord 0x35 0 0)
  | .ckinit d => .command (commandWord 0x40 0 (b8Operand d))
  | .ckbyte d => .command (commandWord 0x41 0 (b8Operand d))
  | .ckfin => .command (commandWord 0x42 0 0)
  | .ckcmp d => .command (commandWord 0x43 0 (b8Operand d))
  | .validate => .command (commandWord 0x44 0 0)
  | .emit => .command (commandWord 0x45 0 0)
  | .rdsr a => .command (commandWord 0x50 a 0)
  | .rdsym i => .command (commandWord 0x51 i 0)
  | .wrsym i v => .command (commandWord 0x52 i (b8Operand v))
  | .tick raw => .tick raw
  | .reset => .reset

/-- The bits of a command word that the command selected by its op reads, op included: the "operands read" column of
R75 under the readings of R74. An illegal command reads op alone. -/
def readMask (w : CommandWord) : CommandWord :=
  match (opField w).toNat with
  | 0x10 | 0x12 | 0x23 | 0x31 | 0x32 => 0xFFFFFFFFFF
  | 0x11 | 0x22 | 0x33 | 0x34 | 0x50 | 0x51 => 0xFFFFFF0000
  | 0x40 | 0x41 | 0x43 => 0xFF000000FF
  | 0x52 => 0xFFFFFF00FF
  | _ => 0xFF00000000

/-! ### The rows of spec/opcode_table.json -/

/-- The event whose bits are `w`, for a row of `nbits` bits in whole bytes (log 17): a row of 40 bits is a command
word, a row of the 10 bits of a reading (16 in whole bytes) a tick, a row of no bits (or of one empty byte) a
reset. -/
def eventOfTable (nbits w : Nat) : Option Event :=
  match nbits with
  | 40 => if w < 2 ^ 40 then some (.command (BitVec.ofNat 40 w)) else none
  | 10 | 16 => if w < 2 ^ 10 then some (.tick (BitVec.ofNat 10 w)) else none
  | 0 | 8 => if w = 0 then some .reset else none
  | _ => none

/-- The operation the decoder reads from a row's word; none where it refuses. -/
def decodeTableWord (nbits w : Nat) : Option Instr :=
  match eventOfTable nbits w with
  | none => none
  | some e =>
    match decode e with
    | .ok i => some i
    | .error _ => none

end Sys2Proof
end

