-- ==== Sys2Proof/Machine/State.lean ====
section
/-! DEFINITION. The state of the block as plain data: every element of spec/10_state.md R20, and the model's own fields
(the configuration, the events not yet performed, the last response), with the state after reset (R44, R210). -/

namespace Sys2Proof.Machine

/-- The signal-presence states (R22), in the order of their encoding 0 to 3. -/
inductive SigState where
  | searchingSilence | searchingBurstStart | guarding | capturing
deriving DecidableEq, Repr

/-- A region of the sample buffer pair: A is select 0, B is select 1 (R25, R50). -/
inductive Region where
  | A | B
deriving DecidableEq, Repr

/-- The response of a command (R39): `ok` and the 32 bits of `res`. -/
structure Response where
  ok : Bool
  res : Word32
deriving DecidableEq, Repr

/-- The four bits of FAULT (R41). They are no stops: setting one is a next state (R191). -/
inductive FaultBit where
  | ill | noheld | range | ovr
deriving DecidableEq, Repr

/-- The sample buffer pair as (address, byte) pairs, addresses strictly rising (`Memory.wf`). An unlisted address holds
no value (R211; log 8). Which word lies where is `wordAddr` of Machine/Operands.lean (log 9). -/
abbrev Memory := List Host.Cell

/-- Why a run of the model stops. -/
inductive Fault where
  /-- A command reads a word of the held region that nothing has written since reset. Raised by LDS, XFORM, THRESH,
  QBIN, QSYM, DECODE. R211: "an unwritten word holds no value and reading one would be a fault of the model"; no
  reachable state raises it. Safe: the model stops where the hardware would read some value. -/
  | unwrittenWord
deriving DecidableEq, Repr

/-- Why an instruction has no meaning in the model. -/
inductive Refusal where
  /-- The instruction's arm in Dispatch has no meaning yet. Raised by no arm of this model. Safe. -/
  | notModelled (mnemonic : String)
deriving DecidableEq, Repr

/-- The state (R20). The last three groups are the model's own: the configuration (R5, an argument of the model; no
step writes it; log 3), the events presented and not yet performed, the next one first (R7; log 1), and the response
of the last event performed (R39, an output; log 5). -/
structure State where
  /-- ST (R22). -/
  st : SigState
  /-- CNT (R23). -/
  cnt : Word16
  /-- CUR (R24). -/
  cur : Word16
  /-- ACT (R25). -/
  act : Region
  /-- RDY (R26). -/
  rdy : Bool
  /-- RDYSEL (R27). -/
  rdySel : Region
  /-- HELD (R29). -/
  held : Bool
  /-- HELDSEL (R30). -/
  heldSel : Region
  /-- BUF[0] and BUF[1] (R31, R50). -/
  mem : Memory
  /-- EREF (R33). -/
  eref : Word32
  /-- LIM1 (R34). -/
  lim1 : Word32
  /-- LIM2 (R34). -/
  lim2 : Word32
  /-- LIM3 (R34). -/
  lim3 : Word32
  /-- CKACC (R35). -/
  ckacc : Word16
  /-- SYM[0] to SYM[NSYM-1] (R36). -/
  sym : List Byte
  /-- MATCH (R37). -/
  matched : Bool
  /-- FAULT (R41). -/
  fault : BitVec 4
  /-- OUT, oldest byte first (R38). -/
  out : List Byte
  /-- The model's own: the configuration (R5, R6). -/
  cfg : WfConfig
  /-- The model's own: the events not yet performed. -/
  inbox : List Event
  /-- The model's own: the response of the last event performed; none after a tick or a reset (R73). -/
  response : Option Response
deriving DecidableEq, Repr

/-- The machine right after reset under a configuration (R44, R210): every word of BUF unlisted, no event presented,
no response given. -/
def State.resetWith (c : WfConfig) : State :=
  { st := .searchingSilence, cnt := BitVec.ofNat 16 c.nSilence, cur := 0, act := .A,
    rdy := false, rdySel := .A, held := false, heldSel := .A, mem := [],
    eref := 0, lim1 := 0, lim2 := 0, lim3 := 0, ckacc := 0,
    sym := List.replicate c.nsym 0, matched := false, fault := 0, out := [],
    cfg := c, inbox := [], response := none }

/-- The machine right after reset. DESIGN CHOICE (log 4): the OPEN parameters are those of CFG32 of
spec/95_test_vectors.md; the statements are about every well-formed configuration. -/
def State.reset : State := State.resetWith WfConfig.cfg32

end Sys2Proof.Machine
end

