-- ==== Sys2Proof/Machine/Operands.lean ====
section
/-! DEFINITION. How operands are read and widened (spec/00_scope.md R8, spec/30_encoding.md R74), where a word lies in
memory (spec/20_memory.md R50 to R52), and what a raw reading stands for (spec/41_acquire.md R110, R111). -/

namespace Sys2Proof.Machine

/-- `ua`, `ub`: a field read as unsigned (R74). -/
abbrev unsigned16 (v : Word16) : Nat := v.toNat

/-- `sa`, `sb`: a field read as signed (R74). -/
abbrev signed16 (v : Word16) : Int := v.toInt

/-- `sext_32` of an int16 (R8). -/
def sext32 (v : Word16) : Word32 := v.signExtend 32

/-- `zext_32` (R8). -/
def zext32 {n : Nat} (v : BitVec n) : Word32 := v.setWidth 32

/-- The region the other select names: `not` on a select bit (R114). -/
def Region.other : Region → Region
  | .A => .B
  | .B => .A

/-- The select value of a region (R25). -/
def Region.select : Region → BitVec 1
  | .A => 0
  | .B => 1

/-- The number of the first word of a region in the list of cells: A first, then B (log 9). -/
def regionBase (c : Config) : Region → Nat
  | .A => 0
  | .B => c.bufLen

/-- The address of the first of the two bytes of word `i` of region `r`: the high byte lies there, the low byte at the
next address (log 9; no access of the block sees a byte alone, R53). -/
def wordAddr (c : Config) (r : Region) (i : Nat) : Nat := 2 * (regionBase c r + i)

/-- The word of the real part of bin `b` (R52); the imaginary part is the next one. -/
def binWord (b : Nat) : Nat := 2 * b

/-- The bin index of the first bin of symbol `i` (R145). -/
def symbolBase (i : Nat) : Nat := Config.f0 + i * Config.stride

/-- `d`, the distance of a reading from the midpoint (R110). -/
def distance (raw : Reading) : Nat := ((raw.toNat : Int) - Config.mid).natAbs

/-- A shift of a mathematical integer by a signed amount: to the left for an amount of 0 or more, else to the right,
which is floor division by a power of two (R8, R111). -/
def shiftBy (v : Int) : Int → Int
  | .ofNat k => v * 2 ^ k
  | .negSucc k => v / 2 ^ (k + 1)

/-- The scaled value of a reading, before it is stored as an int16 (R111). -/
def scaleInt (c : Config) (raw : Reading) : Int := shiftBy ((raw.toNat : Int) - Config.mid) c.shift

/-- The sample a reading stands for (R111). -/
def scale (c : Config) (raw : Reading) : Word16 := BitVec.ofInt 16 (scaleInt c raw)

end Sys2Proof.Machine
end

