-- ==== Sys2Proof/Machine/Flags.lean ====
section
/-! DEFINITION. The FAULT bits, the STATUS view and the map of registers RDSR reads (spec/10_state.md R28, R40 to R42). -/

namespace Sys2Proof.Machine

/-- The codes of the FAULT bits (R41). -/
def FaultBit.code : FaultBit → BitVec 4
  | .ill => 0x1
  | .noheld => 0x2
  | .range => 0x4
  | .ovr => 0x8

/-- The place of a FAULT bit (R41). -/
def FaultBit.index : FaultBit → Nat
  | .ill => 0
  | .noheld => 1
  | .range => 2
  | .ovr => 3

/-- The FAULT bit is set. -/
def State.hasFault (s : State) (f : FaultBit) : Bool := s.fault.getLsbD f.index

/-- The encoding of ST (R22). -/
def SigState.code : SigState → BitVec 2
  | .searchingSilence => 0
  | .searchingBurstStart => 1
  | .guarding => 2
  | .capturing => 3

/-- FULL, derived: CUR = L (R28). -/
def State.full (s : State) : Bool := s.cur.toNat == s.cfg.bufLen

/-- The level RDY as the output line that the host may wait on (spec/30_encoding.md R73). -/
def State.rdyLine (s : State) : Bool := s.rdy

/-- STATUS, assembled from the state (R40). -/
def State.status (s : State) : Word32 :=
  (0#23 ++ BitVec.ofBool s.full ++ BitVec.ofBool s.matched ++ s.heldSel.select ++ BitVec.ofBool s.held ++
    s.rdySel.select ++ BitVec.ofBool s.rdy ++ s.act.select ++ s.st.code : BitVec (23 + 1 + 1 + 1 + 1 + 1 + 1 + 1 + 2))

/-- The register of index `a` as RDSR reads it (R42); none for an index that is not in the map. -/
def State.register (s : State) (a : Nat) : Option Word32 :=
  match a with
  | 0 => some s.status
  | 1 => some (zext32 s.fault)
  | 2 => some (zext32 s.cur)
  | 3 => some (zext32 s.cnt)
  | 4 => some s.eref
  | 5 => some s.lim1
  | 6 => some s.lim2
  | 7 => some s.lim3
  | 8 => some (zext32 s.ckacc)
  | 16 => some (BitVec.ofNat 32 s.cfg.log2L)
  | 17 => some (BitVec.ofInt 32 s.cfg.shift)
  | 18 => some (BitVec.ofNat 32 s.cfg.tLow)
  | 19 => some (BitVec.ofNat 32 s.cfg.tHigh)
  | 20 => some (BitVec.ofNat 32 s.cfg.nSilence)
  | 21 => some (BitVec.ofNat 32 s.cfg.nGuard)
  | 22 => some (BitVec.ofNat 32 s.cfg.nsym)
  | 23 => some (zext32 Config.poly)
  | 24 => some (BitVec.ofNat 32 Config.rBin)
  | 25 => some (BitVec.ofNat 32 Config.f0)
  | 26 => some (BitVec.ofNat 32 Config.stride)
  | 27 => some (zext32 (BitVec.ofBool s.cfg.emitFirstOnly))
  | _ => none

end Sys2Proof.Machine
end

