-- ==== Sys2Proof/Machine/Ops.lean ====
section
/-! DEFINITION. The named operations every meaning is written over: memory, the held region, the response, and raising a
fault, which is this block's way of taking an exception (spec/00_scope.md R9, spec/60_exceptions.md R191, R198). -/

namespace Sys2Proof.Machine

/-- The three outcomes of a step of this machine. -/
abbrev Result := Host.Outcome State Fault Refusal

/-! ### Memory as a list of cells -/

/-- The canonical form: addresses strictly rising. An unlisted address holds no value, so no listed value can equal
it. -/
def Memory.wf : Memory → Bool
  | [] => true
  | [_] => true
  | c :: d :: m => decide (c.1 < d.1) && Memory.wf (d :: m)

/-- The byte at an address, none where nothing was written (R211). -/
def Memory.readByte : Memory → Nat → Option Byte
  | [], _ => none
  | c :: m, a => if c.1 = a then some c.2 else Memory.readByte m a

/-- The memory with a byte written, its cells still in order. -/
def Memory.writeByte : Memory → Nat → Byte → Memory
  | [], a, v => [(a, v)]
  | c :: m, a, v =>
    if a < c.1 then (a, v) :: c :: m
    else if a = c.1 then (a, v) :: m
    else c :: Memory.writeByte m a v

/-- The word whose high byte lies at address `a` and whose low byte lies at `a + 1` (log 9). -/
def Memory.readWord (m : Memory) (a : Nat) : Option Word16 :=
  match Memory.readByte m a, Memory.readByte m (a + 1) with
  | some hi, some lo => some (hi ++ lo : BitVec (8 + 8))
  | _, _ => none

/-- The memory with a word written: both of its bytes (log 9). -/
def Memory.writeWord (m : Memory) (a : Nat) (v : Word16) : Memory :=
  Memory.writeByte (Memory.writeByte m a (v.extractLsb' 8 8)) (a + 1) (v.extractLsb' 0 8)

/-- The memory with a sequence of words written from address `a` on. -/
def Memory.writeWords : Memory → Nat → List Word16 → Memory
  | m, _, [] => m
  | m, a, v :: vs => Memory.writeWords (Memory.writeWord m a v) (a + 2) vs

/-- All the values of a list of possible values, or none if one is missing. -/
def gather {α : Type} : List (Option α) → Option (List α)
  | [] => some []
  | none :: _ => none
  | some x :: xs =>
    match gather xs with
    | some ys => some (x :: ys)
    | none => none

/-! ### The two regions -/

/-- `MemRead(r, i)` (R9, R55): the word, none where it was never written. -/
def State.load (s : State) (r : Region) (i : Nat) : Option Word16 := s.mem.readWord (wordAddr s.cfg.toConfig r i)

/-- `MemWrite(r, i, v)` (R9, R55). -/
def State.store (s : State) (r : Region) (i : Nat) (v : Word16) : State :=
  { s with mem := s.mem.writeWord (wordAddr s.cfg.toConfig r i) v }

/-- The L words of a region in order (R52), none if one of them was never written. -/
def State.loadRegion (s : State) (r : Region) : Option (List Word16) :=
  gather ((List.range s.cfg.bufLen).map (s.load r))

/-- The region with its words replaced, from word 0 on. -/
def State.storeRegion (s : State) (r : Region) (ws : List Word16) : State :=
  { s with mem := s.mem.writeWords (wordAddr s.cfg.toConfig r 0) ws }

/-! ### Responses and faults -/

/-- `rsp(ok, res)` (R9). -/
def State.reply (s : State) (ok : Bool) (res : Word32) : State := { s with response := some ⟨ok, res⟩ }

/-- A tick and a reset have no response (spec/30_encoding.md R73). -/
def State.noReply (s : State) : State := { s with response := none }

/-- Set a sticky FAULT bit (R41). -/
def State.setFault (s : State) (f : FaultBit) : State := { s with fault := s.fault ||| f.code }

/-- `fault(F)` (R9, R191), this block's exception: the sticky bit is set, nothing else changes, the response is (0, 0),
and the next event is performed normally. There is no handler and no return (R198). -/
def State.raise (s : State) (f : FaultBit) : State := (s.setFault f).reply false 0

/-- The command is done, with this response. -/
def done (s : State) (ok : Bool) (res : Word32) : Result := .next (s.reply ok res)

/-- The command faults (R191). -/
def faulted (s : State) (f : FaultBit) : Result := .next (s.raise f)

/-- `if HELD = 0 then fault(NOHELD) else …` on the held region (R193). -/
def onHeld (s : State) (k : Region → Result) : Result :=
  if s.held then k s.heldSel else faulted s .noheld

/-- `if i >= n then fault(RANGE) else …` (R194). -/
def inRange (s : State) (i n : Nat) (k : Result) : Result :=
  if i < n then k else faulted s .range

/-- Go on with a value read from memory; the model stops where a word that was read holds no value (R211). -/
def withValue {α : Type} (o : Option α) (k : α → Result) : Result :=
  match o with
  | some v => k v
  | none => .fault .unwrittenWord

/-! ### Registers -/

/-- SYM[i] (R36). A register file shorter than NSYM, which no run reaches, reads as 0 beyond its end (log 13). -/
def State.symAt (s : State) (i : Nat) : Byte := s.sym.getD i 0

/-- `SYM[i] <- v`, which clears MATCH (R37, R152, R183). -/
def State.setSym (s : State) (i : Nat) (v : Byte) : State := { s with sym := s.sym.set i v, matched := false }

/-- All of SYM replaced, which clears MATCH (R153). -/
def State.setFrame (s : State) (vs : List Byte) : State := { s with sym := vs, matched := false }

/-! ### Events -/

/-- The next event presented, and the state with it taken (R7; log 1); none where none is presented. -/
def State.takeEvent (s : State) : Option (Event × State) :=
  match s.inbox with
  | [] => none
  | e :: es => some (e, { s with inbox := es })

/-- The state with an event presented before all others. -/
def State.present (s : State) (e : Event) : State := { s with inbox := e :: s.inbox }

end Sys2Proof.Machine
end

