-- ==== Sys2Proof/Machine/Acquire.lean ====
section
/-! DEFINITION. Sample acquisition and the hand-off of regions: TICK, TAKE, RELEASE, LDS, STS, XFORM
(spec/41_acquire.md R110 to R122). -/

namespace Sys2Proof.Machine

/-- TICK in SEARCHING_SILENCE (R112). -/
def tickSilence (raw : Reading) (s : State) : State :=
  if distance raw < s.cfg.tLow then
    { s with cnt := s.cnt - 1, st := if s.cnt - 1 = 0 then .searchingBurstStart else s.st }
  else { s with cnt := BitVec.ofNat 16 s.cfg.nSilence }

/-- TICK in SEARCHING_BURST_START (R113). -/
def tickBurstStart (raw : Reading) (s : State) : State :=
  if s.cfg.tHigh ≤ distance raw then { s with st := .guarding, cnt := BitVec.ofNat 16 s.cfg.nGuard }
  else s

/-- The GUARD to CAPTURING transition (R114): the other region becomes active, the cursor is cleared, and FAULT.OVR is
set when the region that becomes active is the held one. -/
def startCapture (s : State) : State :=
  { (if s.held && s.heldSel == s.act.other then s.setFault .ovr else s) with
    act := s.act.other, cur := 0, st := .capturing }

/-- TICK in GUARD (R114); the reading is ignored. -/
def tickGuard (s : State) : State :=
  if s.cnt - 1 = 0 then startCapture { s with cnt := s.cnt - 1 } else { s with cnt := s.cnt - 1 }

/-- The storing tick of CAPTURING (R115). -/
def storeSample (raw : Reading) (s : State) : State :=
  { s.store s.act s.cur.toNat (scale s.cfg.toConfig raw) with cur := s.cur + 1 }

/-- The buffer-full tick (R115), with the entry action of SEARCHING_SILENCE. -/
def bufferFull (s : State) : State :=
  { s with rdySel := s.act, rdy := true, st := .searchingSilence, cnt := BitVec.ofNat 16 s.cfg.nSilence }

/-- TICK in CAPTURING (R115). -/
def tickCapturing (raw : Reading) (s : State) : State :=
  if s.cur.toNat < s.cfg.bufLen then storeSample raw s else bufferFull s

/-- The one state rule a tick performs, by the value of ST before the step (R110). -/
def tickState (raw : Reading) (s : State) : State :=
  match s.st with
  | .searchingSilence => tickSilence raw s
  | .searchingBurstStart => tickBurstStart raw s
  | .guarding => tickGuard s
  | .capturing => tickCapturing raw s

/-- TICK (R110): never refused, no response. -/
def execTick (raw : Reading) (s : State) : Result := .next (tickState raw s).noReply

/-- TAKE (R118). -/
def execTake (s : State) : Result :=
  if s.rdy then done { s with held := true, heldSel := s.rdySel, rdy := false } true (zext32 s.rdySel.select)
  else done s false 0

/-- RELEASE (R119). -/
def execRelease (s : State) : Result := done { s with held := false } true 0

/-- LDS (R120). -/
def execLds (i : Word16) (s : State) : Result :=
  onHeld s fun r => inRange s (unsigned16 i) s.cfg.bufLen <|
    withValue (s.load r (unsigned16 i)) fun v => done s true (sext32 v)

/-- STS (R121). -/
def execSts (i v : Word16) (s : State) : Result :=
  onHeld s fun r => inRange s (unsigned16 i) s.cfg.bufLen <| done (s.store r (unsigned16 i) v) true 0

/-- `xform` (R122): the same number of words as it is given, each of them free (log 7). -/
def xform (w : List Word16) : List Word16 := (List.range w.length).map (Config.xformWord w)

/-- XFORM (R122). -/
def execXform (s : State) : Result :=
  onHeld s fun r => withValue (s.loadRegion r) fun w => done (s.storeRegion r (xform w)) true 0

end Sys2Proof.Machine
end

