-- ==== Sys2Proof/Machine/Checksum.lean ====
section
/-! DEFINITION. The frame checksum, the validator and the emission of the payload: CKINIT, CKBYTE, CKFIN, CKCMP, VALIDATE,
EMIT (spec/43_checksum_frame.md R160 to R168). -/

namespace Sys2Proof.Machine

/-- acc[15:8], the high byte, in which the remainder forms (R35). -/
def highByte (acc : Word16) : Byte := acc.extractLsb' 8 8

/-- `d ‖ 0x00` (R160, R162). -/
def ckstart (d : Byte) : Word16 := (d ++ 0#8 : BitVec (8 + 8))

/-- `ckstep` (R161): the bit shifted out is bit 15; POLY is xored into the high byte. -/
def ckstep (acc : Word16) : Word16 :=
  if acc.getLsbD 15 then (acc <<< 1) ^^^ (Config.poly ++ 0#8 : BitVec (8 + 8)) else acc <<< 1

/-- `ckstep` n times (R161). -/
def cksteps : Nat → Word16 → Word16
  | 0, acc => acc
  | n + 1, acc => cksteps n (ckstep acc)

/-- `ckfeed` (R161): the next byte is loaded under the high byte, then eight steps. -/
def ckfeed (acc : Word16) (d : Byte) : Word16 := cksteps 8 (highByte acc ++ d : BitVec (8 + 8))

/-- The accumulator after a first byte, the subsequent ones and the zero pass (R160). -/
def ckaccOf (d : Byte) (ds : List Byte) : Word16 := ckfeed (ds.foldl ckfeed (ckstart d)) 0

/-- `cksum` of the non-empty sequence d, ds (R160). -/
def cksum (d : Byte) (ds : List Byte) : Byte := highByte (ckaccOf d ds)

/-- One of the eight rounds of the byte-wise form of R168. -/
def crcRound (c : Byte) : Byte := if c.getLsbD 7 then (c <<< 1) ^^^ Config.poly else c <<< 1

/-- The rounds of R168, n times. -/
def crcRounds : Nat → Byte → Byte
  | 0, c => c
  | n + 1, c => crcRounds n (crcRound c)

/-- The byte-wise form of R168, over any sequence; no operation uses it. -/
def cksumBytewise (ds : List Byte) : Byte := ds.foldl (fun c d => crcRounds 8 (c ^^^ d)) 0

/-- The bytes SYM[k] to SYM[n-1]. -/
def State.symSlice (s : State) (k n : Nat) : List Byte := (List.range (n - k)).map fun j => s.symAt (k + j)

/-- The payload, SYM[0] to SYM[NSYM-2] (R167). -/
def State.payload (s : State) : List Byte := s.symSlice 0 (s.cfg.nsym - 1)

/-- The accumulator VALIDATE ends with (R166). -/
def State.frameAcc (s : State) : Word16 := ckaccOf (s.symAt 0) (s.symSlice 1 (s.cfg.nsym - 1))

/-- CKINIT (R162). -/
def execCkinit (d : Byte) (s : State) : Result := done { s with ckacc := ckstart d } true (zext32 d)

/-- CKBYTE (R163). -/
def execCkbyte (d : Byte) (s : State) : Result :=
  done { s with ckacc := ckfeed s.ckacc d } true (zext32 (highByte (ckfeed s.ckacc d)))

/-- CKFIN (R164). -/
def execCkfin (s : State) : Result :=
  done { s with ckacc := ckfeed s.ckacc 0 } true (zext32 (highByte (ckfeed s.ckacc 0)))

/-- CKCMP (R165). -/
def execCkcmp (d : Byte) (s : State) : Result :=
  done { s with matched := highByte s.ckacc == d } true (zext32 (BitVec.ofBool (highByte s.ckacc == d)))

/-- VALIDATE (R166). -/
def execValidate (s : State) : Result :=
  done { s with ckacc := s.frameAcc, matched := highByte s.frameAcc == s.symAt (s.cfg.nsym - 1) } true
    (zext32 (BitVec.ofBool (highByte s.frameAcc == s.symAt (s.cfg.nsym - 1))))

/-- The bytes EMIT appends when MATCH = 1 (R167). -/
def State.emitted (s : State) : List Byte := if s.cfg.emitFirstOnly then [s.symAt 0] else s.payload

/-- EMIT (R167). -/
def execEmit (s : State) : Result :=
  if s.matched then
    done { s with out := s.out ++ s.emitted, matched := false } true (BitVec.ofNat 32 s.emitted.length)
  else done s true 0

end Sys2Proof.Machine
end

