-- ==== Sys2Proof/Machine/Arith.lean ====
section
/-! DEFINITION. The fixed-point primitives SMUL, SQR, MAGSQ (spec/40_arith.md R100 to R105). They write no state but the
response. -/

namespace Sys2Proof.Machine

/-- `exact(x, y) = floor(x*y / 65536)` (R101). -/
def smulExact (x y : Word16) : Int := signed16 x * (unsigned16 y : Int) / 65536

/-- The difference from the exact value that an error stands for (R101). -/
def smulDelta : SmulError → Int
  | .under => -1
  | .exact => 0
  | .over => 1

/-- The scaled multiply with a given error, held to the int16 range as the law asks (R101, C10). -/
def smulWith (err : SmulError) (x y : Word16) : Word16 :=
  BitVec.ofInt 16 (max (-32768) (min 32767 (smulExact x y + smulDelta err)))

/-- `smul` (R101): which admitted result it gives is free (log 6). -/
def smul (x y : Word16) : Word16 := smulWith (Config.smulError x y) x y

/-- `smul_ref` (R102), the reference instance of the examples and vectors; no operation uses it. -/
def smulRef (x y : Word16) : Word16 := smulWith .exact x y

/-- The exact square as a uint32 (R104). -/
def square (x : Word16) : Word32 := BitVec.ofInt 32 (signed16 x * signed16 x)

/-- `magsq(re, im)` (R105). -/
def magsq (re im : Word16) : Word32 := square re + square im

/-- SMUL (R103). -/
def execSmul (x y : Word16) (s : State) : Result := done s true (sext32 (smul x y))

/-- SQR (R104). -/
def execSqr (x : Word16) (s : State) : Result := done s true (square x)

/-- MAGSQ (R105). -/
def execMagsq (re im : Word16) (s : State) : Result := done s true (magsq re im)

end Sys2Proof.Machine
end

