-- ==== Sys2Proof/Machine/Quantizer.lean ====
section
/-! DEFINITION. The quantizer: THRESH, SETREF, QE, QBIN, QSYM, DECODE (spec/42_quantizer.md R140 to R153). -/

namespace Sys2Proof.Machine

/-- limit1 = floor(E_r / 36) (R141). -/
def limit1 (e : Word32) : Word32 := BitVec.ofNat 32 (e.toNat / 36)
/-- limit2 = floor(E_r / 4) (R141). -/
def limit2 (e : Word32) : Word32 := BitVec.ofNat 32 (e.toNat / 4)
/-- limit3 = floor(25 * E_r / 36), the product formed exactly first (R141, D18). -/
def limit3 (e : Word32) : Word32 := BitVec.ofNat 32 (25 * e.toNat / 36)

/-- `EREF <- E_r; (LIM1, LIM2, LIM3) <- limits(E_r)` (R148, R149, R153). -/
def State.setReference (s : State) (e : Word32) : State :=
  { s with eref := e, lim1 := limit1 e, lim2 := limit2 e, lim3 := limit3 e }

/-- The level of an energy against three limits, compared as unsigned numbers (R143). -/
def levelOf (l1 l2 l3 e : Word32) : BitVec 2 :=
  if e ≤ l1 then 0 else if e ≤ l2 then 1 else if e ≤ l3 then 2 else 3

/-- `level(E)` against the current limit registers (R143). -/
def State.level (s : State) (e : Word32) : BitVec 2 := levelOf s.lim1 s.lim2 s.lim3 e

/-- `binE(b)` of a region (R144), none if one of the two words was never written. -/
def State.binEnergy (s : State) (r : Region) (b : Nat) : Option Word32 :=
  match s.load r (binWord b), s.load r (binWord b + 1) with
  | some re, some im => some (magsq re im)
  | _, _ => none

/-- Four levels as a symbol byte, the first in bits 7:6 (R145). -/
def packLevels (l0 l1 l2 l3 : BitVec 2) : Byte := (l0 ++ l1 ++ l2 ++ l3 : BitVec (2 + 2 + 2 + 2))

/-- `symbyte(i)` of a region (R145), none if a word it reads was never written. -/
def State.symByte (s : State) (r : Region) (i : Nat) : Option Byte :=
  match s.binEnergy r (symbolBase i), s.binEnergy r (symbolBase i + 1), s.binEnergy r (symbolBase i + 2),
    s.binEnergy r (symbolBase i + 3) with
  | some e0, some e1, some e2, some e3 => some (packLevels (s.level e0) (s.level e1) (s.level e2) (s.level e3))
  | _, _, _, _ => none

/-- The symbol bytes of a whole frame in the order of their index (R147). -/
def State.symBytes (s : State) (r : Region) : Option (List Byte) :=
  gather ((List.range s.cfg.nsym).map (s.symByte r))

/-- THRESH (R148). -/
def execThresh (s : State) : Result :=
  onHeld s fun r => withValue (s.binEnergy r Config.rBin) fun e => done (s.setReference e) true e

/-- SETREF (R149). -/
def execSetref (e : Word32) (s : State) : Result := done (s.setReference e) true e

/-- QE (R150). -/
def execQe (e : Word32) (s : State) : Result := done s true (zext32 (s.level e))

/-- QBIN (R151). -/
def execQbin (b : Word16) (s : State) : Result :=
  onHeld s fun r => inRange s (unsigned16 b) (s.cfg.bufLen / 2) <|
    withValue (s.binEnergy r (unsigned16 b)) fun e => done s true (zext32 (s.level e))

/-- QSYM (R152). -/
def execQsym (i : Word16) (s : State) : Result :=
  onHeld s fun r => inRange s (unsigned16 i) s.cfg.nsym <|
    withValue (s.symByte r (unsigned16 i)) fun v => done (s.setSym (unsigned16 i) v) true (zext32 v)

/-- DECODE (R153): the symbol bytes are computed with the new limits. -/
def execDecodeFrame (s : State) : Result :=
  onHeld s fun r => withValue (s.binEnergy r Config.rBin) fun e =>
    withValue ((s.setReference e).symBytes r) fun vs => done ((s.setReference e).setFrame vs) true e

end Sys2Proof.Machine
end

