-- ==== Sys2Proof/Machine/System.lean ====
section
/-! DEFINITION. NOP, RDSR, RDSYM, WRSYM, RESET and what an illegal command does (spec/44_system.md R180 to R183,
spec/70_reset_and_hazards.md R210, spec/60_exceptions.md R192). -/

namespace Sys2Proof.Machine

/-- NOP (R180). -/
def execNop (s : State) : Result := done s true 0

/-- RDSR (R181). -/
def execRdsr (a : Word16) (s : State) : Result :=
  match s.register (unsigned16 a) with
  | some v => done s true v
  | none => faulted s .range

/-- RDSYM (R182). -/
def execRdsym (i : Word16) (s : State) : Result :=
  inRange s (unsigned16 i) s.cfg.nsym <| done s true (zext32 (s.symAt (unsigned16 i)))

/-- WRSYM (R183). -/
def execWrsym (i : Word16) (v : Byte) (s : State) : Result :=
  inRange s (unsigned16 i) s.cfg.nsym <| done (s.setSym (unsigned16 i) v) true 0

/-- RESET (R210): the state after reset under the same configuration; the events not yet performed stay presented
(log 10). -/
def execReset (s : State) : Result := .next { State.resetWith s.cfg with inbox := s.inbox }

/-- A command word with a reserved op (R76, R192): ILL. -/
def illegalCommand (s : State) : Result := faulted s .ill

end Sys2Proof.Machine
end

