-- ==== Sys2Proof/Machine/Dispatch.lean ====
section
/-! DEFINITION. The meaning of each operation: one arm per constructor of Instr. -/

namespace Sys2Proof.Machine

def exec (i : Instr) (s : State) : Host.Outcome State Fault Refusal :=
  match i with
  | .nop => Sys2Proof.Machine.execNop s
  | .smul x y => Sys2Proof.Machine.execSmul x y s
  | .sqr x => Sys2Proof.Machine.execSqr x s
  | .magsq re im => Sys2Proof.Machine.execMagsq re im s
  | .take => Sys2Proof.Machine.execTake s
  | .release => Sys2Proof.Machine.execRelease s
  | .lds k => Sys2Proof.Machine.execLds k s
  | .sts k v => Sys2Proof.Machine.execSts k v s
  | .xform => Sys2Proof.Machine.execXform s
  | .thresh => Sys2Proof.Machine.execThresh s
  | .setref e => Sys2Proof.Machine.execSetref e s
  | .qe e => Sys2Proof.Machine.execQe e s
  | .qbin b => Sys2Proof.Machine.execQbin b s
  | .qsym k => Sys2Proof.Machine.execQsym k s
  | .decodeFrame => Sys2Proof.Machine.execDecodeFrame s
  | .ckinit d => Sys2Proof.Machine.execCkinit d s
  | .ckbyte d => Sys2Proof.Machine.execCkbyte d s
  | .ckfin => Sys2Proof.Machine.execCkfin s
  | .ckcmp d => Sys2Proof.Machine.execCkcmp d s
  | .validate => Sys2Proof.Machine.execValidate s
  | .emit => Sys2Proof.Machine.execEmit s
  | .rdsr a => Sys2Proof.Machine.execRdsr a s
  | .rdsym k => Sys2Proof.Machine.execRdsym k s
  | .wrsym k v => Sys2Proof.Machine.execWrsym k v s
  | .tick raw => Sys2Proof.Machine.execTick raw s
  | .reset => Sys2Proof.Machine.execReset s

end Sys2Proof.Machine
end

