-- ==== Sys2Proof/Machine/Step.lean ====
section
/-! DEFINITION. One step of the machine: the next event presented is decoded and performed as one atomic step
(spec/00_scope.md R7, spec/20_memory.md R57). -/

namespace Sys2Proof.Machine

/-- Perform one event: the operation it decodes to, or the illegal-command fault (spec/30_encoding.md R76). -/
def perform (e : Event) (s : State) : Result :=
  match decode e with
  | .ok i => exec i s
  | .error _ => illegalCommand s

/-- One step: the next event presented is taken and performed; while none is presented the block does nothing
(log 2). -/
def step (s : State) : Host.Outcome State Fault Refusal :=
  match s.takeEvent with
  | some (e, t) => perform e t
  | none => .next s

/-- The state with a row's word presented as the next event (log 1, log 17). -/
def State.withFetchWord (s : State) (nbits w : Nat) : State :=
  match eventOfTable nbits w with
  | some e => s.present e
  | none => s

end Sys2Proof.Machine
end

