-- ==== Sys2Proof/Machine/Pseudo.lean ====
section
/-! DEFINITION. Sequences of events and operations, the four pseudo-operations as their expansions (spec/44_system.md
R184 to R187), and the run of a host's program: its lines one after another, the hold of WAITRDY, the ticks and resets
that fall between them, and when such a run is faulted (spec/60_exceptions.md R206). No operation uses them; the program
and its run are the host's, no state of the block (log 16). -/

namespace Sys2Proof.Machine

/-- Perform events in order, one atomic step each, stopping at the first stop. -/
def performAll : List Event → State → Result
  | [], s => .next s
  | e :: es, s =>
    match perform e s with
    | .next t => performAll es t
    | .fault f => .fault f
    | .refused r => .refused r

/-- Perform operations in order, stopping at the first stop. -/
def execAll : List Instr → State → Result
  | [], s => .next s
  | i :: is, s =>
    match exec i s with
    | .next t => execAll is t
    | .fault f => .fault f
    | .refused r => .refused r

/-- How many of the events are ticks. -/
def tickCount : List Event → Nat
  | [] => 0
  | .tick _ :: es => tickCount es + 1
  | .command _ :: es => tickCount es
  | .reset :: es => tickCount es

/-! ### Programs -/

/-- A line of a host's program in the form of R79, its pseudo-operations expanded. -/
inductive Line where
  /-- An operation, a tick or a reset, as the event it is. -/
  | event (e : Event)
  /-- TAKE until one answers ok = 1 (R184). -/
  | waitrdy
deriving DecidableEq, Repr

/-- The line of an operation (R79). -/
def Line.op (i : Instr) : Line := .event (encode i)

/-- The pseudo-operations. -/
inductive Pseudo where
  /-- WAITRDY (R184). -/
  | waitrdy
  /-- CKSUM d, ds (R185). -/
  | cksum (d : Byte) (ds : List Byte)
  /-- PROCESS (R186). -/
  | process
  /-- TICKS n, raw (R187). -/
  | ticks (n : Nat) (raw : Reading)
deriving DecidableEq, Repr

/-- The expansion of a pseudo-operation (R184 to R187). -/
def Pseudo.expand : Pseudo → List Line
  | .waitrdy => [.waitrdy]
  | .cksum d ds => (Instr.ckinit d :: (ds.map Instr.ckbyte ++ [.ckfin])).map Line.op
  | .process => .waitrdy :: [.xform, .decodeFrame, .validate, .emit, .release].map Line.op
  | .ticks n raw => List.replicate n (Line.op (.tick raw))

/-- `n` iterations of the host's main loop, which repeats PROCESS forever (R186). -/
def mainLoop : Nat → List Line
  | 0 => []
  | n + 1 => Pseudo.process.expand ++ mainLoop n

/-! ### The run of a program -/

/-- A run of a program: the block, the lines the consumer has not finished, and whether the run is faulted (R206). -/
structure Run where
  state : State
  todo : List Line
  /-- The ownership contract was broken since the last reset (R195, R206). -/
  faulted : Bool
deriving DecidableEq, Repr

/-- How a run stands. -/
inductive Verdict where
  /-- Lines are left. -/
  | running
  /-- Every line is done and the run is not faulted. -/
  | final
  /-- FAULT.OVR was set: the run is faulted and never final (R206). -/
  | faulted
deriving DecidableEq, Repr

/-- What happens next in a run: the consumer goes on with its program, or the environment supplies a tick or a reset, as
it may between any two commands (R7). -/
inductive Turn where
  | line
  | tick (raw : Reading)
  | reset
deriving DecidableEq, Repr

/-- A program about to run from a state; FAULT.OVR is sticky, so it vouches for the run since reset (R206). -/
def Run.start (program : List Line) (s : State) : Run := { state := s, todo := program, faulted := s.hasFault .ovr }

/-- The consumer is held by WAITRDY: it is at one, and no region is ready (R184). -/
def Run.onHold (r : Run) : Prop := (∃ rest, r.todo = .waitrdy :: rest) ∧ r.state.rdy = false

/-- How the run stands: a faulted run is never final (R206). -/
def Run.verdict (r : Run) : Verdict :=
  if r.faulted then .faulted else if r.todo.isEmpty then .final else .running

/-- Whether the run is faulted after an event that leaves state `t`: from the event that sets FAULT.OVR on, until RESET
begins a new run (R195, R206). -/
def Run.faultedAfter (r : Run) (e : Event) (t : State) : Bool :=
  match e with
  | .reset => false
  | .tick _ | .command _ => r.faulted || t.hasFault .ovr

/-- An event of a run is performed on the block, which goes on whether or not the run is faulted (R195); `todo` gives
the lines left, from the state it leaves. -/
def Run.perform (r : Run) (e : Event) (todo : State → List Line) : Host.Outcome Run Fault Refusal :=
  match Machine.perform e r.state with
  | .next t => .next { state := t, todo := todo t, faulted := r.faultedAfter e t }
  | .fault f => .fault f
  | .refused x => .refused x

/-- The last command answered ok = 1. -/
def State.answeredOk (s : State) : Bool :=
  match s.response with
  | some a => a.ok
  | none => false

/-- The consumer goes on with its program. At a WAITRDY it issues TAKE, and stays there unless that TAKE answers ok = 1
(R184): no count and no timeout ends the wait (R219). A program that is done stays done. -/
def Run.line (r : Run) : Host.Outcome Run Fault Refusal :=
  match r.todo with
  | [] => .next r
  | .event e :: rest => r.perform e fun _ => rest
  | .waitrdy :: rest => r.perform (encode .take) fun t => if t.answeredOk then rest else .waitrdy :: rest

/-- One turn of a run. -/
def Run.turn (r : Run) : Turn → Host.Outcome Run Fault Refusal
  | .line => r.line
  | .tick raw => r.perform (.tick raw) fun _ => r.todo
  | .reset => r.perform .reset fun _ => r.todo

/-- Turns in order, stopping at the first stop. -/
def Run.turns : List Turn → Run → Host.Outcome Run Fault Refusal
  | [], r => .next r
  | τ :: τs, r =>
    match r.turn τ with
    | .next u => Run.turns τs u
    | .fault f => .fault f
    | .refused x => .refused x

/-- The readings of the ticks the environment supplies in these turns. -/
def readingsOf : List Turn → List Reading
  | [] => []
  | .tick raw :: τs => raw :: readingsOf τs
  | .line :: τs => readingsOf τs
  | .reset :: τs => readingsOf τs

end Sys2Proof.Machine
end

