-- ==== Sys2Proof/Safety.lean ====
section
/-! DEFINITION. The terms in which a run is called safe: the FAULT bits a claim looks at (spec/60_exceptions.md R206), the
invariant of every reachable state (spec/10_state.md R32), and how many ticks the next hand-off is away
(spec/41_acquire.md R116, spec/70_reset_and_hazards.md R215). -/

namespace Sys2Proof.Machine

/-- No misuse and no broken ownership since reset: FAULT = 0 (R206). -/
def State.clean (s : State) : Bool := s.fault == 0

/-- The ownership contract was not broken since reset: FAULT.OVR = 0 (R195, R206). -/
def State.ovrClear (s : State) : Bool := !s.hasFault .ovr

/-- Word `i` of region `r` has been written since reset (R211). -/
def State.written (s : State) (r : Region) (i : Nat) : Bool := (s.load r i).isSome

/-- All L words of a region have been written since reset. -/
def State.regionWritten (s : State) (r : Region) : Prop := ∀ i < s.cfg.bufLen, s.written r i = true

/-- The next tick is the buffer-full tick (R115, the else branch). -/
def State.atBufferFull (s : State) : Prop := s.st = .capturing ∧ s.cfg.bufLen ≤ s.cur.toNat

/-- The commands that access the held region (R193). -/
def accessesHeld : Instr → Bool
  | .lds _ | .sts _ _ | .xform | .thresh | .qbin _ | .qsym _ | .decodeFrame => true
  | .nop | .smul _ _ | .sqr _ | .magsq _ _ | .take | .release | .setref _ | .qe _ | .ckinit _ | .ckbyte _ | .ckfin
  | .ckcmp _ | .validate | .emit | .rdsr _ | .rdsym _ | .wrsym _ _ | .tick _ | .reset => false

/-- The index operand is outside its range (R194, R42). -/
def indexOutOfRange (s : State) : Instr → Prop
  | .lds i | .sts i _ => s.cfg.bufLen ≤ i.toNat
  | .qbin b => s.cfg.bufLen / 2 ≤ b.toNat
  | .qsym i | .rdsym i | .wrsym i _ => s.cfg.nsym ≤ i.toNat
  | .rdsr a => ¬ (a.toNat ≤ 8 ∨ (16 ≤ a.toNat ∧ a.toNat ≤ 27))
  | .nop | .smul _ _ | .sqr _ | .magsq _ _ | .take | .release | .xform | .thresh | .setref _ | .qe _ | .decodeFrame
  | .ckinit _ | .ckbyte _ | .ckfin | .ckcmp _ | .validate | .emit | .tick _ | .reset => False

/-- Word `j` is one of the two words of bin `b` (R52). -/
def inBin (b j : Nat) : Prop := j = 2 * b ∨ j = 2 * b + 1

/-- Word `j` belongs to one of the four bins of symbol `i` (R145). -/
def inSymbol (i j : Nat) : Prop := ∃ k < 4, inBin (3 + 5 * i + k) j

/-- The command reads word `j` of the held region (R51, R120, R122, R148, R151 to R153). -/
def readsHeldWord (s : State) (j : Nat) : Instr → Prop
  | .lds i => j = i.toNat
  | .xform => True
  | .thresh => inBin 1 j
  | .qbin b => inBin b.toNat j
  | .qsym i => inSymbol i.toNat j
  | .decodeFrame => inBin 1 j ∨ ∃ i < s.cfg.nsym, inSymbol i j
  | .nop | .smul _ _ | .sqr _ | .magsq _ _ | .take | .release | .sts _ _ | .setref _ | .qe _ | .ckinit _ | .ckbyte _
  | .ckfin | .ckcmp _ | .validate | .emit | .rdsr _ | .rdsym _ | .wrsym _ _ | .tick _ | .reset => False

/-- `n` is the level of an energy `e` against the limits `l1`, `l2`, `l3`, as R143 writes the four cases. -/
def LevelIs (l1 l2 l3 e n : Nat) : Prop :=
  (e ≤ l1 → n = 0) ∧ (l1 < e ∧ e ≤ l2 → n = 1) ∧ (l2 < e ∧ e ≤ l3 → n = 2) ∧ (l3 < e → n = 3)

/-- The energy of a (real, imaginary) pair as a number (R105). -/
def energyOf (re im : Word16) : Int := re.toInt * re.toInt + im.toInt * im.toInt

/-- The distance of a reading from the midpoint 512, as R110 writes it. -/
def readingDistance (raw : Reading) : Int := |(raw.toNat : Int) - 512|

/-- The byte addresses of region `r` in the list of cells (log 9). -/
def inRegion (c : Config) (r : Region) (a : Nat) : Prop := wordAddr c r 0 ≤ a ∧ a < wordAddr c r c.bufLen

/-- What holds in every reachable state (R32, R34, R163, R211). -/
structure Inv (s : State) : Prop where
  /-- The cells are in canonical form. -/
  memOrdered : s.mem.wf = true
  /-- No cell lies outside the two regions (R50). -/
  memInside : ∀ a, 4 * s.cfg.bufLen ≤ a → s.mem.readByte a = none
  /-- R32 (a). -/
  cursorBound : s.cur.toNat ≤ s.cfg.bufLen
  /-- R32 (b): in CAPTURING the words below the cursor of the active region are written. -/
  captureWritten : s.st = .capturing → ∀ i < s.cur.toNat, s.written s.act i = true
  /-- R32 (c): the ready region is whole. -/
  readyWritten : s.rdy = true → s.regionWritten s.rdySel
  /-- R211: the held region is whole. -/
  heldWritten : s.held = true → s.regionWritten s.heldSel
  /-- R32 (d), R23: the countdown in SEARCHING_SILENCE. -/
  silenceCount : s.st = .searchingSilence → 1 ≤ s.cnt.toNat ∧ s.cnt.toNat ≤ s.cfg.nSilence
  /-- R32 (d), R23: the countdown in GUARD. -/
  guardCount : s.st = .guarding → 1 ≤ s.cnt.toNat ∧ s.cnt.toNat ≤ s.cfg.nGuard
  /-- R123: a ready region is the active one until the next capture starts, the other one from then on. -/
  readySide : s.rdy = true → s.rdySel = if s.st = .capturing then s.act.other else s.act
  /-- R60: while FAULT.OVR = 0 a capture never fills the held region. -/
  heldApart : s.held = true → s.st = .capturing → s.ovrClear = true → s.heldSel ≠ s.act
  /-- R34: the limits are those of EREF. -/
  limits : s.lim1.toNat = s.eref.toNat / 36 ∧ s.lim2.toNat = s.eref.toNat / 4 ∧
    s.lim3.toNat = 25 * s.eref.toNat / 36
  /-- R163: the low byte of CKACC is 0 between commands. -/
  ckaccLow : s.ckacc.extractLsb' 0 8 = 0
  /-- R36: SYM has NSYM registers. -/
  symLength : s.sym.length = s.cfg.nsym

/-- The fewest ticks, the buffer-full tick among them, after which RDY can have been set by a tick (R116). -/
def State.ticksToReady (s : State) : Nat :=
  match s.st with
  | .searchingSilence => s.cnt.toNat + 1 + s.cfg.nGuard + s.cfg.bufLen + 1
  | .searchingBurstStart => 1 + s.cfg.nGuard + s.cfg.bufLen + 1
  | .guarding => s.cnt.toNat + s.cfg.bufLen + 1
  | .capturing => s.cfg.bufLen - s.cur.toNat + 1

end Sys2Proof.Machine
end

