-- ==== Sys2Proof/Certificates/Slice0/Obligations.lean ====
section
/-! DEFINITION. The statements for the provers. Each docstring names the rules of spec/ it formalises; "log <n>" is a
row of notes/assumptions/. Whole states are compared by record updates: `t = { s with … }` says that every field not
named is as in `s`, which is the frame. -/

open Sys2Proof Sys2Proof.Machine

/-! ### Encoding and the step -/

/-- R70 to R75: no bit of an operand is dropped by the encoder or the decoder. -/
def Obligations.DecodeInvertsEncode : Prop :=
  ∀ i : Instr, decode (encode i) = .ok i

/-- R70, R74: a legal command word encodes back to itself with 0 in exactly the bits its command does not read, and the
bits a command does not read do not change what it is. -/
def Obligations.IgnoredBitsDoNotMatter : Prop :=
  (∀ w i, decode (.command w) = .ok i → encode i = .command (w &&& readMask w)) ∧
  (∀ w w' : CommandWord, w &&& readMask w = w' &&& readMask w → decode (.command w') = decode (.command w))

/-- R76, R192: the reserved ops, by the ranges R76 lists, set FAULT.ILL and nothing else and answer (0, 0); every other
op is a command; every reading is legal. -/
def Obligations.ReservedOpcodeSetsIllOnly : Prop :=
  (∀ (w : CommandWord) (s : State),
    let op := (w >>> 32).toNat
    ((0x01 ≤ op ∧ op ≤ 0x0F) ∨ (0x13 ≤ op ∧ op ≤ 0x1F) ∨ (0x25 ≤ op ∧ op ≤ 0x2F) ∨ (0x36 ≤ op ∧ op ≤ 0x3F) ∨
      (0x46 ≤ op ∧ op ≤ 0x4F) ∨ (0x53 ≤ op ∧ op ≤ 0xFF) →
      step (s.present (.command w)) = .next { s with fault := s.fault ||| 0x1, response := some ⟨false, 0⟩ }) ∧
    (¬ ((0x01 ≤ op ∧ op ≤ 0x0F) ∨ (0x13 ≤ op ∧ op ≤ 0x1F) ∨ (0x25 ≤ op ∧ op ≤ 0x2F) ∨ (0x36 ≤ op ∧ op ≤ 0x3F) ∨
      (0x46 ≤ op ∧ op ≤ 0x4F) ∨ (0x53 ≤ op ∧ op ≤ 0xFF)) →
      ∃ i, decode (.command w) = .ok i ∧ i.isCommand = true)) ∧
  (∀ raw : Reading, decode (.tick raw) = .ok (.tick raw))

/-- Words written out from the encoding of R70 and R75 (most of them the words of spec/95_test_vectors.md). -/
def Obligations.SampleWordsDecode : Prop :=
  decode (.command 0x0000000000) = .ok .nop ∧
  decode (.command 0x10FF9C4000) = .ok (.smul 0xFF9C 0x4000) ∧
  decode (.command 0x230002003C) = .ok (.sts 2 60) ∧
  decode (.command 0x310A3D70A3) = .ok (.setref 171798691) ∧
  decode (.command 0x43000001CC) = .ok (.ckcmp 0xCC) ∧
  decode (.command 0x52000100CD) = .ok (.wrsym 1 0xCD) ∧
  decode (.command 0xFF00000000) = .error (.reservedOpcode 0xFF) ∧
  decode (.tick 0x240) = .ok (.tick 576) ∧
  decode .reset = .ok .reset

/-- R7, R57: a step performs the next event presented, as one atomic step, on the state with that event taken. The last
clause, that nothing happens while no event is presented, is the model's choice (log 2). -/
def Obligations.StepRunsTheDecodedEvent : Prop :=
  ∀ (s : State) (e : Event) (es : List Event) (i : Instr),
    (s.inbox = e :: es → decode e = .ok i → step s = exec i { s with inbox := es }) ∧
    (s.inbox = [] → step s = .next s)

/-- R7, R57, R79, R186: stepping the machine performs the events presented in their order, and leaves those after them; a
run of a program performs its lines in their order. PROCESS with a region ready performs TAKE, XFORM, DECODE, VALIDATE,
EMIT and RELEASE, which all complete, and gives the region back; with none ready it stays at its WAITRDY and nothing
after that is performed. An iteration does not depend on EREF, LIM1 to LIM3, SYM, CKACC or MATCH as an earlier one left
them. The list of events and the run of a program are the model's own (log 1, log 16). -/
def Obligations.RunPerformsEventsInOrder : Prop :=
  (∀ (es rest : List Event) (s t : State), performAll es s = .next t →
    Host.Core.run Sys2Proof.core es.length { s with inbox := es ++ rest } = .next { t with inbox := rest }) ∧
  (∀ (es : List Event) (rest : List Line) (s t : State) (b : Bool), performAll es s = .next t →
    ∃ u : Run, Run.turns (List.replicate es.length .line) ⟨s, es.map Line.event ++ rest, b⟩ = .next u ∧
      u.state = t ∧ u.todo = rest) ∧
  (∀ (s : State) (rest : List Line), Inv s → s.rdy = true →
    ∃ t : State, execAll [.take, .xform, .decodeFrame, .validate, .emit, .release] s = .next t ∧
      t.held = false ∧ t.heldSel = s.rdySel ∧ t.rdy = false ∧
      Run.turns (List.replicate 6 .line) (Run.start (Pseudo.process.expand ++ rest) s) = .next (Run.start rest t)) ∧
  (∀ (s : State) (rest : List Line) (n : Nat), s.rdy = false →
    ∃ u : Run, Run.turns (List.replicate n .line) (Run.start (Pseudo.process.expand ++ rest) s) = .next u ∧
      u = { Run.start (Pseudo.process.expand ++ rest) s with state := u.state } ∧
      u.state = { s with response := u.state.response }) ∧
  (∀ (s : State) (eref lim1 lim2 lim3 : Word32) (sym : List Byte) (ckacc : Word16) (matched : Bool), s.rdy = true →
    execAll [.take, .xform, .decodeFrame, .validate, .emit, .release]
      { s with eref := eref, lim1 := lim1, lim2 := lim2, lim3 := lim3, sym := sym, ckacc := ckacc, matched := matched } =
    execAll [.take, .xform, .decodeFrame, .validate, .emit, .release] s)

/-- R39: the response is not stored in the block; no later operation can read it. -/
def Obligations.NoOperationReadsAResponse : Prop :=
  ∀ (i : Instr) (s : State) (r : Option Response), exec i { s with response := r } = exec i s

/-- R7: what is presented later is not seen by an operation, and is left as it is (the list of presented events is the
model's own, log 1). -/
def Obligations.NoOperationSeesLaterEvents : Prop :=
  ∀ (i : Instr) (s t : State) (q : List Event),
    (exec i s = .next t → exec i { s with inbox := q } = .next { t with inbox := q } ∧ t.inbox = s.inbox) ∧
    (exec i s = .fault .unwrittenWord → exec i { s with inbox := q } = .fault .unwrittenWord)

/-- R6: exactly the well-formed configurations have a state; clause (g) is `SmulStaysWithinItsLaw`. -/
def Obligations.ConfigurationAdmittedExactlyWhenWellFormed : Prop :=
  ∀ c : Config, (∃ w : WfConfig, c.check = some w ∧ w.toConfig = c) ↔
    (4 ≤ c.log2L ∧ c.log2L ≤ 10 ∧ c.shift = 6 - c.log2L ∧ 1 ≤ c.tLow ∧ c.tLow < c.tHigh ∧ c.tHigh ≤ 512 ∧
      1 ≤ c.nSilence ∧ c.nSilence ≤ 65535 ∧ 1 ≤ c.nGuard ∧ c.nGuard ≤ 65535 ∧ 2 ≤ c.nsym ∧
      3 + (c.nsym - 1) * 5 + 3 ≤ 2 ^ c.log2L / 2 - 1 ∧ 1 ≤ 2 ^ c.log2L / 2 - 1)

/-! ### Arithmetic -/

/-- R101, R103: SMUL answers a value within 1 of the floor, an int16, the same for the same operands in every state,
sign-extended, and writes no state. -/
def Obligations.SmulStaysWithinItsLaw : Prop :=
  ∀ x y : Word16, ∃ r : Word16,
    (-1 ≤ r.toInt - x.toInt * (y.toNat : Int) / 65536 ∧ r.toInt - x.toInt * (y.toNat : Int) / 65536 ≤ 1) ∧
    (-32768 ≤ r.toInt ∧ r.toInt ≤ 32767) ∧
    ∀ s : State, exec (.smul x y) s = .next { s with response := some ⟨true, r.signExtend 32⟩ }

/-- R101, R102 (and I1): every function within the law is an instance of the model's free error, so the model leaves no
admissible multiply out, and the reference instance is the exact floor, in [-32768, 32766]. -/
def Obligations.EveryLawfulMultiplyIsAdmitted : Prop :=
  (∀ f : Word16 → Word16 → Word16,
    (∀ x y, -1 ≤ (f x y).toInt - x.toInt * (y.toNat : Int) / 65536 ∧
      (f x y).toInt - x.toInt * (y.toNat : Int) / 65536 ≤ 1) →
    ∃ err : Word16 → Word16 → SmulError, ∀ x y, smulWith (err x y) x y = f x y) ∧
  (∀ x y : Word16, (smulRef x y).toInt = x.toInt * (y.toNat : Int) / 65536 ∧
    -32768 ≤ (smulRef x y).toInt ∧ (smulRef x y).toInt ≤ 32766)

/-- R104: SQR answers the exact square, at most 2^30, reached only at -32768, the same for x and -x; no state is
written. -/
def Obligations.SqrAnswersTheExactSquare : Prop :=
  ∀ (x : Word16), ∃ r : Word32,
    (∀ s : State, exec (.sqr x) s = .next { s with response := some ⟨true, r⟩ }) ∧
    (r.toNat : Int) = x.toInt * x.toInt ∧ r.toNat ≤ 1073741824 ∧ (r.toNat = 1073741824 ↔ x.toInt = -32768) ∧
    (x.toInt ≠ -32768 → ∀ s : State, exec (.sqr (-x)) s = exec (.sqr x) s)

/-- R105: MAGSQ answers the exact sum of two squares, at most 2^31, reached only at (-32768, -32768), symmetric in its
operands; no state is written. -/
def Obligations.MagsqAnswersTheExactSum : Prop :=
  ∀ (re im : Word16), ∃ r : Word32,
    (∀ s : State, exec (.magsq re im) s = .next { s with response := some ⟨true, r⟩ } ∧
      exec (.magsq im re) s = exec (.magsq re im) s) ∧
    (r.toNat : Int) = energyOf re im ∧ r.toNat ≤ 2147483648 ∧
    (r.toNat = 2147483648 ↔ re.toInt = -32768 ∧ im.toInt = -32768)

/-! ### System commands -/

/-- R180: NOP answers (1, 0) and writes no state; the all-zero command word is a NOP. -/
def Obligations.NopWritesNothing : Prop :=
  (∀ s : State, exec .nop s = .next { s with response := some ⟨true, 0⟩ }) ∧
  (∀ s : State, step (s.present (.command 0)) = .next { s with response := some ⟨true, 0⟩ })

/-- R40: STATUS as RDSR 0 reads it, every bit at its weight and every other bit 0, nothing written; 0 after
reset. -/
def Obligations.StatusHasTheLayoutOfItsFields : Prop :=
  (∀ s : State, ∃ v : Word32, exec (.rdsr 0) s = .next { s with response := some ⟨true, v⟩ } ∧
    v.toNat =
      (match s.st with
        | .searchingSilence => 0 | .searchingBurstStart => 1 | .guarding => 2 | .capturing => 3) +
      (if s.act = .B then 4 else 0) + (if s.rdy = true then 8 else 0) + (if s.rdySel = .B then 16 else 0) +
      (if s.held = true then 32 else 0) + (if s.heldSel = .B then 64 else 0) + (if s.matched = true then 128 else 0) +
      (if s.cur.toNat = 2 ^ s.cfg.log2L then 256 else 0)) ∧
  (∀ c : WfConfig, exec (.rdsr 0) (State.resetWith c) =
    .next { State.resetWith c with response := some ⟨true, 0⟩ })

/-- R42, R181: every mapped index answers its register, zero-extended but for SHIFT, and writes nothing; every other
index is a RANGE fault. -/
def Obligations.RdsrReadsTheRegisterMap : Prop :=
  ∀ s : State,
    (exec (.rdsr 0) s = .next { s with response := some ⟨true, s.status⟩ }) ∧
    (∀ k n : Nat, (k, n) ∈ [(1, s.fault.toNat), (2, s.cur.toNat), (3, s.cnt.toNat), (4, s.eref.toNat),
        (5, s.lim1.toNat), (6, s.lim2.toNat), (7, s.lim3.toNat), (8, s.ckacc.toNat), (16, s.cfg.log2L),
        (18, s.cfg.tLow), (19, s.cfg.tHigh), (20, s.cfg.nSilence), (21, s.cfg.nGuard), (22, s.cfg.nsym), (23, 0xCF),
        (24, 1), (25, 3), (26, 5), (27, s.cfg.emitFirstOnly.toNat)] →
      ∃ v : Word32, exec (.rdsr (BitVec.ofNat 16 k)) s = .next { s with response := some ⟨true, v⟩ } ∧ v.toNat = n) ∧
    (∃ v : Word32, exec (.rdsr 17) s = .next { s with response := some ⟨true, v⟩ } ∧
      v.toInt = 6 - (s.cfg.log2L : Int)) ∧
    (∀ a : Word16, (9 ≤ a.toNat ∧ a.toNat ≤ 15) ∨ 28 ≤ a.toNat →
      exec (.rdsr a) s = .next { s with fault := s.fault ||| 0x4, response := some ⟨false, 0⟩ })

/-- R182: RDSYM answers SYM[i], zero-extended, and writes nothing; an index of NSYM or more is a RANGE fault. SYM has
NSYM registers in every reachable state (`InvariantHoldsAtReset`, `StepKeepsTheInvariant`). -/
def Obligations.RdsymReadsOneSymbol : Prop :=
  ∀ (s : State) (i : Word16), s.sym.length = s.cfg.nsym →
    (∀ h : i.toNat < s.sym.length, ∃ v : Word32,
      exec (.rdsym i) s = .next { s with response := some ⟨true, v⟩ } ∧ v.toNat = (s.sym[i.toNat]'h).toNat) ∧
    (s.cfg.nsym ≤ i.toNat →
      exec (.rdsym i) s = .next { s with fault := s.fault ||| 0x4, response := some ⟨false, 0⟩ })

/-- R183: WRSYM writes SYM[i], leaves every other symbol register alone, clears MATCH and answers (1, 0); an index of
NSYM or more is a RANGE fault. -/
def Obligations.WrsymWritesOneSymbol : Prop :=
  ∀ (s : State) (i : Word16) (v : Byte), s.sym.length = s.cfg.nsym →
    (i.toNat < s.cfg.nsym → ∃ t : State, exec (.wrsym i v) s = .next t ∧
      t = { s with sym := t.sym, matched := false, response := some ⟨true, 0⟩ } ∧
      t.sym.length = s.sym.length ∧ t.sym[i.toNat]? = some v ∧ ∀ j, j ≠ i.toNat → t.sym[j]? = s.sym[j]?) ∧
    (s.cfg.nsym ≤ i.toNat →
      exec (.wrsym i v) s = .next { s with fault := s.fault ||| 0x4, response := some ⟨false, 0⟩ })

/-! ### The tick -/

/-- R112: a tick in SEARCHING_SILENCE with a countdown of at least 1 (which R32 (d) gives). -/
def Obligations.TickInSearchingSilence : Prop :=
  ∀ (s : State) (raw : Reading), s.st = .searchingSilence → 1 ≤ s.cnt.toNat →
    ∃ t : State, exec (.tick raw) s = .next t ∧ t = { s with st := t.st, cnt := t.cnt, response := none } ∧
      (readingDistance raw < s.cfg.tLow → t.cnt.toNat = s.cnt.toNat - 1 ∧
        (s.cnt.toNat = 1 → t.st = .searchingBurstStart) ∧ (1 < s.cnt.toNat → t.st = .searchingSilence)) ∧
      ((s.cfg.tLow : Int) ≤ readingDistance raw → t.cnt.toNat = s.cfg.nSilence ∧ t.st = .searchingSilence)

/-- R113: a tick in SEARCHING_BURST_START. -/
def Obligations.TickInSearchingBurstStart : Prop :=
  ∀ (s : State) (raw : Reading), s.st = .searchingBurstStart →
    ∃ t : State, exec (.tick raw) s = .next t ∧ t = { s with st := t.st, cnt := t.cnt, response := none } ∧
      ((s.cfg.tHigh : Int) ≤ readingDistance raw → t.st = .guarding ∧ t.cnt.toNat = s.cfg.nGuard) ∧
      (readingDistance raw < s.cfg.tHigh → t.st = .searchingBurstStart ∧ t.cnt = s.cnt)

/-- R114: a tick in GUARD with a countdown of at least 1 (which R32 (d) gives): the last one makes the other region
active, clears the cursor, and sets FAULT.OVR exactly when that region is held. -/
def Obligations.TickInGuard : Prop :=
  ∀ (s : State) (raw : Reading), s.st = .guarding → 1 ≤ s.cnt.toNat →
    (1 < s.cnt.toNat → ∃ t : State, exec (.tick raw) s = .next t ∧
      t = { s with cnt := t.cnt, response := none } ∧ t.cnt.toNat = s.cnt.toNat - 1) ∧
    (s.cnt.toNat = 1 → ∃ t : State, exec (.tick raw) s = .next t ∧
      t = { s with st := .capturing, cnt := 0, cur := 0, act := t.act, fault := t.fault, response := none } ∧
      t.act ≠ s.act ∧
      (s.held = true ∧ s.heldSel = t.act → t.fault = s.fault ||| 0x8) ∧
      (¬ (s.held = true ∧ s.heldSel = t.act) → t.fault = s.fault))

/-- R115, R111: a tick in CAPTURING. Below L it stores the scaled reading, with no overflow, at word CUR of the active
region and moves the cursor, every other byte of memory kept; at L or beyond it stores nothing, publishes the active
region and re-enters SEARCHING_SILENCE. -/
def Obligations.TickInCapturing : Prop :=
  ∀ (s : State) (raw : Reading), s.st = .capturing →
    (s.cur.toNat < s.cfg.bufLen → ∃ (t : State) (w : Word16), exec (.tick raw) s = .next t ∧
      t = { s with mem := t.mem, cur := t.cur, response := none } ∧ t.cur.toNat = s.cur.toNat + 1 ∧
      t.load s.act s.cur.toNat = some w ∧
      (s.cfg.log2L ≤ 6 → w.toInt = ((raw.toNat : Int) - 512) * 2 ^ (6 - s.cfg.log2L)) ∧
      (6 < s.cfg.log2L → w.toInt = ((raw.toNat : Int) - 512) / 2 ^ (s.cfg.log2L - 6)) ∧
      (∀ a, a < wordAddr s.cfg.toConfig s.act s.cur.toNat ∨ wordAddr s.cfg.toConfig s.act s.cur.toNat + 2 ≤ a →
        t.mem.readByte a = s.mem.readByte a)) ∧
    (s.cfg.bufLen ≤ s.cur.toNat → ∃ t : State, exec (.tick raw) s = .next t ∧
      t = { s with st := .searchingSilence, cnt := t.cnt, rdy := true, rdySel := s.act, response := none } ∧
      t.cnt.toNat = s.cfg.nSilence)

/-! ### The hand-off -/

/-- R118: TAKE moves a ready region to the consumer and answers its select; with nothing ready it answers (0, 0) and
changes nothing. -/
def Obligations.TakeHandsTheReadyRegionOver : Prop :=
  ∀ s : State,
    (s.rdy = true → ∃ v : Word32, exec .take s =
      .next { s with held := true, heldSel := s.rdySel, rdy := false, response := some ⟨true, v⟩ } ∧
      (s.rdySel = .A → v.toNat = 0) ∧ (s.rdySel = .B → v.toNat = 1)) ∧
    (s.rdy = false → exec .take s = .next { s with response := some ⟨false, 0⟩ })

/-- R119: RELEASE clears HELD, keeps HELDSEL and the words of the region, and answers (1, 0), held or not. -/
def Obligations.ReleaseClearsHeldOnly : Prop :=
  ∀ s : State, exec .release s = .next { s with held := false, response := some ⟨true, 0⟩ } ∧
    (s.held = false → exec .release s = .next { s with response := some ⟨true, 0⟩ })

/-- R120: LDS answers the word of the held region, sign-extended, and writes nothing; NOHELD is checked before RANGE. A
word of a held region is written in every reachable state (`NoReachableStepStops`). -/
def Obligations.LdsLoadsOneHeldWord : Prop :=
  ∀ (s : State) (i : Word16),
    (s.held = false → exec (.lds i) s = .next { s with fault := s.fault ||| 0x2, response := some ⟨false, 0⟩ }) ∧
    (s.held = true → s.cfg.bufLen ≤ i.toNat →
      exec (.lds i) s = .next { s with fault := s.fault ||| 0x4, response := some ⟨false, 0⟩ }) ∧
    (∀ v : Word16, s.held = true → i.toNat < s.cfg.bufLen → s.load s.heldSel i.toNat = some v →
      ∃ r : Word32, exec (.lds i) s = .next { s with response := some ⟨true, r⟩ } ∧ r.toInt = v.toInt)

/-- R121: STS stores its operand at the word of the held region and nowhere else; NOHELD is checked before RANGE. -/
def Obligations.StsStoresOneHeldWord : Prop :=
  ∀ (s : State) (i v : Word16),
    (s.held = false → exec (.sts i v) s = .next { s with fault := s.fault ||| 0x2, response := some ⟨false, 0⟩ }) ∧
    (s.held = true → s.cfg.bufLen ≤ i.toNat →
      exec (.sts i v) s = .next { s with fault := s.fault ||| 0x4, response := some ⟨false, 0⟩ }) ∧
    (s.held = true → i.toNat < s.cfg.bufLen → ∃ t : State, exec (.sts i v) s = .next t ∧
      t = { s with mem := t.mem, response := some ⟨true, 0⟩ } ∧ t.load s.heldSel i.toNat = some v ∧
      (∀ a, a < wordAddr s.cfg.toConfig s.heldSel i.toNat ∨ wordAddr s.cfg.toConfig s.heldSel i.toNat + 2 ≤ a →
        t.mem.readByte a = s.mem.readByte a) ∧
      (∀ r j, j < s.cfg.bufLen → ¬ (r = s.heldSel ∧ j = i.toNat) → t.load r j = s.load r j))

/-- R122: XFORM replaces the L words of the held region by the transform of them, whatever function it is, and changes
no byte outside the region; with nothing held it is a NOHELD fault. -/
def Obligations.XformReplacesTheHeldRegion : Prop :=
  ∀ (s : State),
    (s.held = false → exec .xform s = .next { s with fault := s.fault ||| 0x2, response := some ⟨false, 0⟩ }) ∧
    (∀ w : List Word16, s.held = true → w.length = s.cfg.bufLen →
      (∀ j (h : j < w.length), s.load s.heldSel j = some w[j]) →
      ∃ t : State, exec .xform s = .next t ∧ t = { s with mem := t.mem, response := some ⟨true, 0⟩ } ∧
        (∀ j < s.cfg.bufLen, t.load s.heldSel j = some (Config.xformWord w j)) ∧
        (∀ a, ¬ inRegion s.cfg.toConfig s.heldSel a → t.mem.readByte a = s.mem.readByte a))

/-! ### The quantizer -/

/-- R149, R141: SETREF sets the reference and the three limits, no product or quotient wrapping, and answers the
reference. -/
def Obligations.SetrefDerivesTheLimits : Prop :=
  ∀ (s : State) (e : Word32), ∃ t : State, exec (.setref e) s = .next t ∧
    t = { s with eref := e, lim1 := t.lim1, lim2 := t.lim2, lim3 := t.lim3, response := some ⟨true, e⟩ } ∧
    t.lim1.toNat = e.toNat / 36 ∧ t.lim2.toNat = e.toNat / 4 ∧ t.lim3.toNat = 25 * e.toNat / 36

/-- R148: THRESH takes the reference from bin 1 of the held region, words 2 and 3; with nothing held it is a NOHELD
fault. -/
def Obligations.ThreshDerivesTheLimitsOfBinOne : Prop :=
  ∀ (s : State),
    (s.held = false → exec .thresh s = .next { s with fault := s.fault ||| 0x2, response := some ⟨false, 0⟩ }) ∧
    (∀ re im : Word16, s.held = true → s.load s.heldSel 2 = some re → s.load s.heldSel 3 = some im →
      ∃ t : State, exec .thresh s = .next t ∧
        t = { s with eref := t.eref, lim1 := t.lim1, lim2 := t.lim2, lim3 := t.lim3,
                     response := some ⟨true, t.eref⟩ } ∧
        (t.eref.toNat : Int) = energyOf re im ∧ t.lim1.toNat = t.eref.toNat / 36 ∧
        t.lim2.toNat = t.eref.toNat / 4 ∧ t.lim3.toNat = 25 * t.eref.toNat / 36)

/-- R150, R143: QE answers the level of its operand against the limits as they are, and writes nothing. -/
def Obligations.QeAnswersTheLevel : Prop :=
  ∀ (s : State) (e : Word32), s.lim1.toNat ≤ s.lim2.toNat → s.lim2.toNat ≤ s.lim3.toNat →
    ∃ v : Word32, exec (.qe e) s = .next { s with response := some ⟨true, v⟩ } ∧
      LevelIs s.lim1.toNat s.lim2.toNat s.lim3.toNat e.toNat v.toNat

/-- R151: QBIN answers the level of bin b of the held region, words 2b and 2b+1, and writes nothing; NOHELD is checked
before RANGE. -/
def Obligations.QbinAnswersTheLevelOfABin : Prop :=
  ∀ (s : State) (b : Word16), s.lim1.toNat ≤ s.lim2.toNat → s.lim2.toNat ≤ s.lim3.toNat →
    (s.held = false → exec (.qbin b) s = .next { s with fault := s.fault ||| 0x2, response := some ⟨false, 0⟩ }) ∧
    (s.held = true → s.cfg.bufLen / 2 ≤ b.toNat →
      exec (.qbin b) s = .next { s with fault := s.fault ||| 0x4, response := some ⟨false, 0⟩ }) ∧
    (∀ re im : Word16, s.held = true → b.toNat < s.cfg.bufLen / 2 → s.load s.heldSel (2 * b.toNat) = some re →
      s.load s.heldSel (2 * b.toNat + 1) = some im →
      ∃ v : Word32, exec (.qbin b) s = .next { s with response := some ⟨true, v⟩ } ∧
        LevelIs s.lim1.toNat s.lim2.toNat s.lim3.toNat (energyOf re im).toNat v.toNat)

/-- R152, R145: QSYM writes the symbol byte of four consecutive bins from 3 + 5i, the first bin in bits 7:6, into SYM[i],
clears MATCH and answers the byte; NOHELD is checked before RANGE. -/
def Obligations.QsymDecodesOneSymbol : Prop :=
  ∀ (s : State) (i : Word16), s.lim1.toNat ≤ s.lim2.toNat → s.lim2.toNat ≤ s.lim3.toNat →
    s.sym.length = s.cfg.nsym →
    (s.held = false → exec (.qsym i) s = .next { s with fault := s.fault ||| 0x2, response := some ⟨false, 0⟩ }) ∧
    (s.held = true → s.cfg.nsym ≤ i.toNat →
      exec (.qsym i) s = .next { s with fault := s.fault ||| 0x4, response := some ⟨false, 0⟩ }) ∧
    (∀ re im : Nat → Word16, s.held = true → i.toNat < s.cfg.nsym →
      (∀ k < 4, s.load s.heldSel (2 * (3 + 5 * i.toNat + k)) = some (re k) ∧
        s.load s.heldSel (2 * (3 + 5 * i.toNat + k) + 1) = some (im k)) →
      ∃ (t : State) (v : Byte) (l : Nat → Nat), exec (.qsym i) s = .next t ∧
        t = { s with sym := t.sym, matched := false, response := some ⟨true, v.setWidth 32⟩ } ∧
        t.sym.length = s.sym.length ∧ t.sym[i.toNat]? = some v ∧ (∀ j, j ≠ i.toNat → t.sym[j]? = s.sym[j]?) ∧
        (∀ k < 4, LevelIs s.lim1.toNat s.lim2.toNat s.lim3.toNat (energyOf (re k) (im k)).toNat (l k)) ∧
        v.toNat = 64 * l 0 + 16 * l 1 + 4 * l 2 + l 3)

/-- R153: DECODE has the effect of THRESH followed by QSYM 0 to QSYM NSYM-1, and answers the reference energy; with
nothing held it is a NOHELD fault. -/
def Obligations.DecodeIsThreshThenEveryQsym : Prop :=
  ∀ (s : State),
    (s.held = false →
      exec .decodeFrame s = .next { s with fault := s.fault ||| 0x2, response := some ⟨false, 0⟩ }) ∧
    (s.held = true → s.regionWritten s.heldSel → s.sym.length = s.cfg.nsym → ∃ t : State,
      execAll (.thresh :: (List.range s.cfg.nsym).map fun i => .qsym (BitVec.ofNat 16 i)) s = .next t ∧
      exec .decodeFrame s = .next { t with response := some ⟨true, t.eref⟩ })

/-- R141, R142: against the limits of a reference energy the level is that of the exact rationals 1/36, 1/4, 25/36, and
with a reference of 0 every energy but 0 has level 3. -/
def Obligations.LevelsCompareExactRatios : Prop :=
  ∀ (s t : State) (er e : Word32), exec (.setref er) s = .next t →
    ∃ v : Word32, exec (.qe e) t = .next { t with response := some ⟨true, v⟩ } ∧ v.toNat ≤ 3 ∧
      (v.toNat = 0 ↔ 36 * e.toNat ≤ er.toNat) ∧ (v.toNat ≤ 1 ↔ 4 * e.toNat ≤ er.toNat) ∧
      (v.toNat ≤ 2 ↔ 36 * e.toNat ≤ 25 * er.toNat) ∧ (er = 0 → e ≠ 0 → v.toNat = 3)

/-- R146: multiplying the reference and an energy by the same positive factor leaves the level unchanged. -/
def Obligations.LevelsAreScaleInvariant : Prop :=
  ∀ (s t t' : State) (er e er' e' : Word32) (c : Nat), 0 < c → er'.toNat = c * er.toNat → e'.toNat = c * e.toNat →
    exec (.setref er) s = .next t → exec (.setref er') s = .next t' →
    ∃ v : Word32, exec (.qe e) t = .next { t with response := some ⟨true, v⟩ } ∧
      exec (.qe e') t' = .next { t' with response := some ⟨true, v⟩ }

/-! ### The checksum and the frame -/

/-- R160 to R164: CKINIT loads its byte as the high byte over 0, dropping what was in progress; CKBYTE feeds a byte;
CKFIN feeds the zero byte. After a feed the high byte is the old one taken through eight rounds of the 8-bit form, xored
with the byte fed, and the low byte is 0. -/
def Obligations.ChecksumCommandsFeedTheAccumulator : Prop :=
  ∀ (s : State) (d : Byte),
    (∃ t : State, exec (.ckinit d) s = .next t ∧
      t = { s with ckacc := t.ckacc, response := some ⟨true, d.setWidth 32⟩ } ∧ t.ckacc.toNat = 256 * d.toNat) ∧
    (∃ t : State, exec (.ckbyte d) s = .next t ∧
      t = { s with ckacc := t.ckacc, response := some ⟨true, (highByte t.ckacc).setWidth 32⟩ } ∧
      t.ckacc = cksteps 8 (BitVec.ofNat 16 (256 * (s.ckacc.toNat / 256) + d.toNat)) ∧
      t.ckacc.toNat % 256 = 0 ∧ highByte t.ckacc = crcRounds 8 (highByte s.ckacc) ^^^ d) ∧
    (∃ t : State, exec .ckfin s = .next t ∧ exec (.ckbyte 0) s = .next t ∧
      t = { s with ckacc := t.ckacc, response := some ⟨true, (highByte t.ckacc).setWidth 32⟩ } ∧
      t.ckacc = cksteps 8 (BitVec.ofNat 16 (256 * (s.ckacc.toNat / 256))))

/-- R165: CKCMP compares the high byte with its operand, sets MATCH accordingly, and changes nothing else. -/
def Obligations.CkcmpComparesTheHighByte : Prop :=
  ∀ (s : State) (d : Byte),
    (s.ckacc.toNat / 256 = d.toNat →
      exec (.ckcmp d) s = .next { s with matched := true, response := some ⟨true, 1⟩ }) ∧
    (s.ckacc.toNat / 256 ≠ d.toNat →
      exec (.ckcmp d) s = .next { s with matched := false, response := some ⟨true, 0⟩ })

/-- R166: VALIDATE compares the checksum of the payload with the last symbol byte, in CKACC and MATCH. -/
def Obligations.ValidateComparesTheFrameChecksum : Prop :=
  ∀ (s : State) (d c : Byte) (ds : List Byte), s.sym = d :: (ds ++ [c]) → s.sym.length = s.cfg.nsym →
    ∃ t : State, exec .validate s = .next t ∧
      t = { s with ckacc := t.ckacc, matched := t.matched, response := t.response } ∧
      highByte t.ckacc = cksum d ds ∧ t.ckacc.toNat % 256 = 0 ∧
      (cksum d ds = c → t.matched = true ∧ t.response = some ⟨true, 1⟩) ∧
      (cksum d ds ≠ c → t.matched = false ∧ t.response = some ⟨true, 0⟩)

/-- R166: VALIDATE is one atomic step with the effect of CKINIT, CKBYTE for each further payload byte, CKFIN, CKCMP. -/
def Obligations.ValidateIsTheCommandSequence : Prop :=
  ∀ (s : State) (d c : Byte) (ds : List Byte), s.sym = d :: (ds ++ [c]) → s.sym.length = s.cfg.nsym →
    execAll (.ckinit d :: (ds.map Instr.ckbyte ++ [.ckfin, .ckcmp c])) s = exec .validate s

/-- R185, R160: CKSUM runs CKINIT, a CKBYTE for each further byte and CKFIN, then the program's next line; the last
command answers the checksum of the bytes, and only CKACC is written. The run of a program is the model's own (log 16). -/
def Obligations.CksumExpansionAnswersTheChecksum : Prop :=
  ∀ (s : State) (d : Byte) (ds : List Byte) (rest : List Line), ∃ t : State,
    execAll (.ckinit d :: (ds.map Instr.ckbyte ++ [.ckfin])) s = .next t ∧
    Run.turns (List.replicate (ds.length + 2) .line) (Run.start ((Pseudo.cksum d ds).expand ++ rest) s) =
      .next (Run.start rest t) ∧
    t = { s with ckacc := t.ckacc, response := some ⟨true, (cksum d ds).setWidth 32⟩ } ∧
    highByte t.ckacc = cksum d ds

/-- R168: the bit-serial checksum is the byte-wise one, for every non-empty sequence. -/
def Obligations.BytewiseFormIsTheChecksum : Prop :=
  ∀ (d : Byte) (ds : List Byte), cksum d ds = cksumBytewise (d :: ds)

/-- R169 (d), (b): the checksum is linear over sequences of equal length, and that of zero bytes is 0. -/
def Obligations.ChecksumIsLinear : Prop :=
  (∀ (d d' : Byte) (ds ds' : List Byte), ds.length = ds'.length →
    cksum (d ^^^ d') (List.zipWith (· ^^^ ·) ds ds') = cksum d ds ^^^ cksum d' ds') ∧
  (∀ n : Nat, cksum 0 (List.replicate n 0) = 0)

/-- R169 (c): flipping any single bit of the sequence changes the checksum. -/
def Obligations.EverySingleBitFlipChangesTheChecksum : Prop :=
  ∀ (d d' : Byte) (ds ds' : List Byte) (j k : Nat), j < (d :: ds).length → k < 8 →
    d' :: ds' = (d :: ds).modify j (· ^^^ BitVec.twoPow 8 k) → cksum d' ds' ≠ cksum d ds

/-- R169 (a): a frame is valid exactly when the checksum of the whole frame is 0, so appending the checksum makes a frame
that VALIDATE accepts. -/
def Obligations.AppendedChecksumValidates : Prop :=
  (∀ (d c : Byte) (ds : List Byte), cksum d (ds ++ [c]) = 0 ↔ c = cksum d ds) ∧
  (∀ (s : State) (d : Byte) (ds : List Byte), s.sym = d :: (ds ++ [cksum d ds]) → s.sym.length = s.cfg.nsym →
    ∃ t : State, exec .validate s = .next t ∧ t.matched = true ∧ t.response = some ⟨true, 1⟩)

/-- R167: EMIT appends the payload of a validated frame (its first byte alone under EMIT_FIRST_ONLY), clears MATCH and
answers how many bytes; with MATCH = 0 it writes nothing. -/
def Obligations.EmitWritesTheValidatedPayload : Prop :=
  ∀ (s : State) (d c : Byte) (ds : List Byte), s.sym = d :: (ds ++ [c]) → s.sym.length = s.cfg.nsym →
    (s.matched = true → s.cfg.emitFirstOnly = true →
      exec .emit s = .next { s with out := s.out ++ [d], matched := false, response := some ⟨true, 1⟩ }) ∧
    (s.matched = true → s.cfg.emitFirstOnly = false → ∃ v : Word32,
      exec .emit s = .next { s with out := s.out ++ d :: ds, matched := false, response := some ⟨true, v⟩ } ∧
      v.toNat = s.cfg.nsym - 1) ∧
    (s.matched = false → exec .emit s = .next { s with response := some ⟨true, 0⟩ })

/-! ### Reset -/

/-- R210, R44, R40: RESET puts every element at its reset value under the same configuration, no byte of memory holds
a value afterwards, and STATUS reads 0; the state after reset is the one an event leaves with no event presented. That
the events not yet performed stay presented is the model's choice (log 10). -/
def Obligations.ResetGivesTheResetState : Prop :=
  (∀ s : State, ∃ t : State, exec .reset s = .next t ∧
    t = { s with
      st := .searchingSilence, cnt := t.cnt, cur := 0, act := .A, rdy := false, rdySel := .A, held := false,
      heldSel := .A, mem := t.mem, eref := 0, lim1 := 0, lim2 := 0, lim3 := 0, ckacc := 0, sym := t.sym,
      matched := false, fault := 0, out := [], response := none } ∧
    t.cnt.toNat = s.cfg.nSilence ∧ t.sym.length = s.cfg.nsym ∧ (∀ v ∈ t.sym, v = 0) ∧
    (∀ a, t.mem.readByte a = none) ∧ t.status = 0) ∧
  (∀ c : WfConfig, (State.resetWith c).cfg = c ∧ (State.resetWith c).inbox = [] ∧
    exec .reset (State.resetWith c) = .next (State.resetWith c))

/-! ### Invariants and whole-machine rules -/

/-- R32, R34, R211 at reset, for every configuration. -/
def Obligations.InvariantHoldsAtReset : Prop :=
  ∀ c : WfConfig, Inv (State.resetWith c)

/-- R32, R34, R211: every step keeps the invariant. -/
def Obligations.StepKeepsTheInvariant : Prop :=
  ∀ s t : State, Inv s → step s = .next t → Inv t

/-- R211: no rule can read a word that has not been written, so from a state of the invariant no step stops. -/
def Obligations.NoReachableStepStops : Prop :=
  ∀ s : State, Inv s → ∃ t : State, step s = .next t ∧ Inv t

/-- R211 (log 8): a command stops exactly when it gets to read a word of the held region that nothing has written, and no
operation is refused. -/
def Obligations.OnlyReadingAnUnwrittenWordStops : Prop :=
  ∀ (i : Instr) (s : State),
    (exec i s = .fault .unwrittenWord ↔ s.held = true ∧ ¬ indexOutOfRange s i ∧
      ∃ j < s.cfg.bufLen, readsHeldWord s j i ∧ s.written s.heldSel j = false) ∧
    ∀ r, exec i s ≠ .refused r

/-- R41, R191, R32 (e): no event but RESET clears a FAULT bit. R195, R206: the tick that sets FAULT.OVR makes the run
faulted, and the run goes on; from then on, until a RESET, it is faulted and never final, whatever happens; and a run from
a start is faulted exactly while FAULT.OVR = 1. How a run carries its verdict is the model's choice (log 11). -/
def Obligations.FaultBitsAreSticky : Prop :=
  (∀ (e : Event) (s t : State) (f : FaultBit), perform e s = .next t → e ≠ .reset → s.hasFault f = true →
    t.hasFault f = true) ∧
  (∀ (r : Run) (raw : Reading), r.state.st = .guarding → r.state.cnt.toNat = 1 → r.state.held = true →
    r.state.heldSel ≠ r.state.act →
    ∃ u : Run, r.turn (.tick raw) = .next u ∧ u.verdict = .faulted ∧ u.state.hasFault .ovr = true ∧
      u.state.st = .capturing ∧ u.todo = r.todo) ∧
  (∀ (τs : List Turn) (r u : Run), Run.turns τs r = .next u → r.verdict = .faulted → Turn.reset ∉ τs →
    Line.event .reset ∉ r.todo → u.verdict = .faulted) ∧
  (∀ (program : List Line) (s : State) (τs : List Turn) (u : Run), Run.turns τs (Run.start program s) = .next u →
    (u.verdict = .faulted ↔ u.state.hasFault .ovr = true) ∧
    (u.verdict = .final ↔ u.todo = [] ∧ u.state.hasFault .ovr = false))

/-- R191, R39: a command that answers ok = 0 answers res = 0 and changes nothing but one FAULT bit, NOHELD or RANGE; TAKE
alone answers ok = 0 without a fault. -/
def Obligations.FaultingCommandIsPrecise : Prop :=
  ∀ (i : Instr) (s t : State) (res : Word32), exec i s = .next t → i.isCommand = true →
    t.response = some ⟨false, res⟩ →
    (i = .take ∧ t = { s with response := some ⟨false, 0⟩ }) ∨
    (i ≠ .take ∧ ∃ f : FaultBit, (f = .noheld ∨ f = .range) ∧
      t = { s with fault := s.fault ||| f.code, response := some ⟨false, 0⟩ })

/-- R41, R193 to R196: each FAULT bit that was clear is set by exactly the operations its row names, NOHELD checked before
RANGE; ILL by none of them (`ReservedOpcodeSetsIllOnly` says what sets it). -/
def Obligations.FaultBitsAreSetExactlyAsListed : Prop :=
  ∀ (i : Instr) (s t : State), exec i s = .next t →
    (s.hasFault .ill = false → t.hasFault .ill = false) ∧
    (s.hasFault .noheld = false → (t.hasFault .noheld = true ↔ accessesHeld i = true ∧ s.held = false)) ∧
    (s.hasFault .range = false →
      (t.hasFault .range = true ↔ indexOutOfRange s i ∧ ¬ (accessesHeld i = true ∧ s.held = false))) ∧
    (s.hasFault .ovr = false → (t.hasFault .ovr = true ↔ (∃ raw, i = .tick raw) ∧ s.st = .guarding ∧
      s.cnt.toNat = 1 ∧ s.held = true ∧ s.heldSel ≠ s.act))

/-- R200: no command writes the tick agent's state or memory outside the held region, and no tick writes the consumer's
state or memory outside the active region, or memory at all outside CAPTURING. -/
def Obligations.EachContextWritesOnlyItsOwnState : Prop :=
  ∀ (i : Instr) (s t : State), exec i s = .next t →
    (i.isCommand = true →
      t.st = s.st ∧ t.cnt = s.cnt ∧ t.cur = s.cur ∧ t.act = s.act ∧ t.rdySel = s.rdySel ∧
      (t.rdy = true → s.rdy = true) ∧ t.hasFault .ovr = s.hasFault .ovr ∧ t.cfg = s.cfg ∧
      (∀ a, t.mem.readByte a ≠ s.mem.readByte a → s.held = true ∧ inRegion s.cfg.toConfig s.heldSel a)) ∧
    (∀ raw, i = .tick raw →
      t.held = s.held ∧ t.heldSel = s.heldSel ∧ t.eref = s.eref ∧ t.lim1 = s.lim1 ∧ t.lim2 = s.lim2 ∧
      t.lim3 = s.lim3 ∧ t.ckacc = s.ckacc ∧ t.sym = s.sym ∧ t.matched = s.matched ∧ t.out = s.out ∧
      (s.rdy = true → t.rdy = true) ∧ t.hasFault .ill = s.hasFault .ill ∧
      t.hasFault .noheld = s.hasFault .noheld ∧ t.hasFault .range = s.hasFault .range ∧ t.cfg = s.cfg ∧
      (∀ a, t.mem.readByte a ≠ s.mem.readByte a → s.st = .capturing ∧ inRegion s.cfg.toConfig s.act a))

/-- R26: RDY is set by the buffer-full tick alone, with RDYSEL from ACT (R27), and cleared by TAKE alone, or by RESET. R184:
so the hold of WAITRDY is lifted by the buffer-full tick and by nothing else; a WAITRDY ends at the first TAKE that
answers ok = 1, and at one that answers ok = 0 it stays where it is. The run of a program is the model's own (log 16). -/
def Obligations.RdyChangesOnlyAtBufferFullAndTake : Prop :=
  (∀ (e : Event) (s t : State), perform e s = .next t →
    (s.rdy = false → t.rdy = true → (∃ raw, e = .tick raw) ∧ s.atBufferFull ∧ t.rdySel = s.act) ∧
    (s.rdy = true → t.rdy = false → decode e = .ok .take ∨ e = .reset)) ∧
  (∀ (r : Run) (τ : Turn), r.onHold → ∃ u : Run, r.turn τ = .next u ∧ u.todo = r.todo ∧
    (u.onHold ∨ (∃ raw, τ = .tick raw) ∧ r.state.atBufferFull ∧ u.state.rdy = true)) ∧
  (∀ (r : Run) (raw : Reading), r.onHold → r.state.atBufferFull → ∃ u : Run, r.turn (.tick raw) = .next u ∧ ¬ u.onHold) ∧
  (∀ (r : Run) (rest : List Line), r.todo = .waitrdy :: rest →
    (r.state.rdy = true → ∃ u : Run, r.turn .line = .next u ∧ u.todo = rest ∧ exec .take r.state = .next u.state ∧
      u.state.held = true ∧ u.state.heldSel = r.state.rdySel) ∧
    (r.state.rdy = false → ∃ u : Run, r.turn .line = .next u ∧ u.todo = r.todo ∧
      u.state = { r.state with response := some ⟨false, 0⟩ }))

/-- R24, R25 (C2): the active region changes, and the cursor is cleared from a value other than 0, only at the GUARD to
CAPTURING transition, or by RESET. -/
def Obligations.RegionsSwapOnlyAtCaptureStart : Prop :=
  ∀ (e : Event) (s t : State), perform e s = .next t → s.cur.toNat ≤ s.cfg.bufLen →
    (t.act ≠ s.act ∨ t.cur.toNat < s.cur.toNat) →
    e = .reset ∨ ((∃ raw, e = .tick raw) ∧ s.st = .guarding ∧ s.cnt.toNat = 1 ∧ t.st = .capturing ∧
      t.act = s.act.other ∧ t.cur = 0)

/-- R60: while FAULT.OVR is clear a tick changes no word of the held region. -/
def Obligations.TickLeavesTheHeldRegionAlone : Prop :=
  ∀ (s t : State) (raw : Reading), Inv s → s.held = true → exec (.tick raw) s = .next t → t.ovrClear = true →
    ∀ j < s.cfg.bufLen, t.load s.heldSel j = s.load s.heldSel j

/-- R116, R219: RDY is not set by fewer ticks than the state machine still needs, whatever the readings and the commands
between them. So a consumer held by WAITRDY is held while fewer ticks than that have come; while no reading is quiet; and
while none is loud: however long, for there is no timeout. The run of a program is the model's own (log 16). -/
def Obligations.RdyStaysClearBeforeItsTicks : Prop :=
  (∀ (es : List Event) (s t : State), Inv s → s.rdy = false → performAll es s = .next t →
    tickCount es < s.ticksToReady → t.rdy = false) ∧
  (∀ (τs : List Turn) (r : Run), r.onHold →
    (Inv r.state ∧ (readingsOf τs).length < r.state.ticksToReady) ∨
    (r.state.st = .searchingSilence ∧ ∀ raw ∈ readingsOf τs, (r.state.cfg.tLow : Int) ≤ readingDistance raw) ∨
    ((r.state.st = .searchingSilence ∨ r.state.st = .searchingBurstStart) ∧
      ∀ raw ∈ readingsOf τs, readingDistance raw < r.state.cfg.tHigh) →
    ∃ u : Run, Run.turns τs r = .next u ∧ u.onHold ∧ u.todo = r.todo)

/-- R116, R219, R58, R59: N_SILENCE quiet readings, a loud one, N_GUARD readings, L readings and one more, with no command
between them, complete a capture: RDY is set and the other region holds the L scaled readings in order. A consumer at a
WAITRDY then takes that region and goes on with its program (R184; the run of a program is the model's own, log 16). -/
def Obligations.QuietLoudGuardCaptureCompletes : Prop :=
  ∀ (s : State) (quiet guard samples : List Reading) (loud last : Reading), Inv s → s.st = .searchingSilence →
    s.cnt.toNat = s.cfg.nSilence →
    quiet.length = s.cfg.nSilence → (∀ q ∈ quiet, readingDistance q < s.cfg.tLow) →
    (s.cfg.tHigh : Int) ≤ readingDistance loud → guard.length = s.cfg.nGuard → samples.length = s.cfg.bufLen →
    ∃ t : State,
      execAll ((quiet ++ [loud] ++ guard ++ samples ++ [last]).map Instr.tick) s = .next t ∧
      t.rdy = true ∧ t.rdySel = s.act.other ∧ t.act = s.act.other ∧ t.st = .searchingSilence ∧
      t.cnt.toNat = s.cfg.nSilence ∧
      (∀ j (h : j < samples.length), t.load t.rdySel j = some (scale s.cfg.toConfig samples[j])) ∧
      ∀ rest : List Line, ∃ u : Run,
        Run.turns ((quiet ++ [loud] ++ guard ++ samples ++ [last]).map Turn.tick ++ [.line])
          (Run.start (.waitrdy :: rest) s) = .next u ∧
        u.todo = rest ∧ exec .take t = .next u.state ∧ u.state.held = true ∧ u.state.heldSel = s.act.other

/-- R215: from a state such as a buffer-full tick leaves, FAULT.OVR is not set before N_SILENCE + 1 + N_GUARD + L + 1 +
N_SILENCE + 1 + N_GUARD ticks, whatever the readings and the commands, where nothing is held, or where a TAKE moves the
consumer to the ready region before the N_SILENCE + 1 + N_GUARD ticks in which no capture can start have come. -/
def Obligations.OverrunNeedsTwoCaptureStarts : Prop :=
  (∀ (es : List Event) (s t : State), Inv s → s.st = .searchingSilence → s.cnt.toNat = s.cfg.nSilence →
    s.held = false → s.ovrClear = true → performAll es s = .next t →
    tickCount es < s.cfg.nSilence + 1 + s.cfg.nGuard + s.cfg.bufLen + 1 + s.cfg.nSilence + 1 + s.cfg.nGuard →
    t.ovrClear = true) ∧
  (∀ (before after : List Event) (s t : State), Inv s → s.st = .searchingSilence → s.cnt.toNat = s.cfg.nSilence →
    s.rdy = true → s.ovrClear = true → performAll (before ++ encode .take :: after) s = .next t →
    tickCount before < s.cfg.nSilence + 1 + s.cfg.nGuard →
    tickCount before + tickCount after <
      s.cfg.nSilence + 1 + s.cfg.nGuard + s.cfg.bufLen + 1 + s.cfg.nSilence + 1 + s.cfg.nGuard →
    t.ovrClear = true)
end

