-- ==== Sys2Proof/Laws/Config.lean ====
section
/-! SUPPORT. What a well-formed configuration gives, and the addresses of words. -/

namespace Sys2Proof

/-- R6 read off the check, clause by clause. -/
theorem Config.wf_iff (c : Config) : c.wf = true ↔
    (4 ≤ c.log2L ∧ c.log2L ≤ 10) ∧ (1 ≤ c.tLow ∧ c.tLow < c.tHigh ∧ c.tHigh ≤ 512) ∧
    (1 ≤ c.nSilence ∧ c.nSilence ≤ 65535 ∧ 1 ≤ c.nGuard ∧ c.nGuard ≤ 65535) ∧ 2 ≤ c.nsym ∧
    (Config.f0 + (c.nsym - 1) * Config.stride + 3 + 1 ≤ c.bufLen / 2 ∧ Config.rBin + 1 ≤ c.bufLen / 2) := by
  simp only [Config.wf, Config.lengthOk, Config.thresholdsOk, Config.countsOk, Config.nsymOk, Config.binsOk,
    Bool.and_eq_true, decide_eq_true_eq]
  tauto

theorem WfConfig.log2L_bounds (c : WfConfig) : 4 ≤ c.log2L ∧ c.log2L ≤ 10 := ((Config.wf_iff _).1 c.ok).1

theorem WfConfig.threshold_bounds (c : WfConfig) : 1 ≤ c.tLow ∧ c.tLow < c.tHigh ∧ c.tHigh ≤ 512 :=
  ((Config.wf_iff _).1 c.ok).2.1

theorem WfConfig.count_bounds (c : WfConfig) :
    1 ≤ c.nSilence ∧ c.nSilence ≤ 65535 ∧ 1 ≤ c.nGuard ∧ c.nGuard ≤ 65535 := ((Config.wf_iff _).1 c.ok).2.2.1

theorem WfConfig.nsym_bound (c : WfConfig) : 2 ≤ c.nsym := ((Config.wf_iff _).1 c.ok).2.2.2.1

theorem WfConfig.bin_bounds (c : WfConfig) :
    Config.f0 + (c.nsym - 1) * Config.stride + 3 + 1 ≤ c.bufLen / 2 ∧ Config.rBin + 1 ≤ c.bufLen / 2 :=
  ((Config.wf_iff _).1 c.ok).2.2.2.2

/-- L lies between 16 and 1024 and is even. -/
theorem WfConfig.bufLen_bounds (c : WfConfig) : 16 ≤ c.bufLen ∧ c.bufLen ≤ 1024 ∧ c.bufLen % 2 = 0 := by
  obtain ⟨h1, h2⟩ := c.log2L_bounds
  simp only [Config.bufLen]
  generalize c.log2L = n at h1 h2
  interval_cases n <;> decide

/-- A configuration that is not well formed is refused, one that is comes back with its proof. -/
theorem Config.check_eq_some (c : Config) (w : WfConfig) : c.check = some w ↔ w.toConfig = c := by
  unfold Config.check
  split
  next h =>
    constructor
    · rintro ⟨⟩; rfl
    · rintro rfl; rfl
  next h =>
    constructor
    · simp
    · rintro rfl; exact absurd w.ok h

end Sys2Proof

namespace Sys2Proof.Machine

/-- Distinct words of the two regions share no byte. -/
theorem wordAddr_disjoint (c : Config) (r r' : Region) (i j : Nat) (hi : i < c.bufLen) (hj : j < c.bufLen)
    (h : ¬ (r = r' ∧ i = j)) : wordAddr c r i + 2 ≤ wordAddr c r' j ∨ wordAddr c r' j + 2 ≤ wordAddr c r i := by
  cases r <;> cases r' <;> simp [wordAddr, regionBase] at * <;> omega

/-- Word `i` of a region lies `2 * i` bytes after its word 0. -/
theorem wordAddr_eq (c : Config) (r : Region) (i : Nat) : wordAddr c r i = wordAddr c r 0 + 2 * i := by
  simp only [wordAddr]; omega

/-- Every word lies inside the two regions. -/
theorem wordAddr_inside (c : Config) (r : Region) (i : Nat) (hi : i < c.bufLen) :
    wordAddr c r i + 2 ≤ 4 * c.bufLen := by
  cases r <;> simp only [wordAddr, regionBase] <;> omega

@[simp] theorem Region.other_other (r : Region) : r.other.other = r := by cases r <;> rfl

theorem Region.other_ne (r : Region) : r.other ≠ r := by cases r <;> decide

theorem Region.ne_iff_eq_other (r q : Region) : r ≠ q ↔ r = q.other := by cases r <;> cases q <;> decide

end Sys2Proof.Machine
end

