-- ==== Sys2Proof/Laws/Memory.lean ====
section
/-! SUPPORT. The laws of the memory operations: reading after writing, and the canonical form. -/

namespace Sys2Proof.Machine

@[simp] theorem Memory.readByte_nil (a : Nat) : Memory.readByte [] a = none := rfl

/-- Reading a byte after writing one. -/
theorem Memory.readByte_writeByte (m : Memory) (a : Nat) (v : Byte) (b : Nat) :
    (Memory.writeByte m a v).readByte b = if a = b then some v else Memory.readByte m b := by
  induction m with
  | nil => by_cases h : a = b <;> simp [Memory.writeByte, Memory.readByte, h]
  | cons c m ih =>
    simp only [Memory.writeByte]
    split
    · by_cases h : a = b <;> simp [Memory.readByte, h]
    · split
      next h1 h2 =>
        by_cases h : a = b
        · simp [Memory.readByte, h]
        · have : ¬ c.1 = b := by omega
          simp [Memory.readByte, h, this]
      next h1 h2 =>
        simp only [Memory.readByte, ih]
        by_cases h : c.1 = b
        · have : ¬ a = b := by omega
          simp [h, this]
        · simp [h]

/-- The address of the first cell a write leaves is the written one or the first one before. -/
theorem Memory.head_writeByte (m : Memory) (a : Nat) (v : Byte) (lo : Nat) (ha : lo < a)
    (hm : ∀ c ∈ m.head?, lo < c.1) : ∀ c ∈ (Memory.writeByte m a v).head?, lo < c.1 := by
  cases m with
  | nil => simpa [Memory.writeByte] using ha
  | cons c m =>
    simp only [Memory.writeByte]
    split
    · simpa using ha
    · split
      · simpa using ha
      · simpa using hm

theorem Memory.wf_cons (c : Host.Cell) (m : Memory) :
    Memory.wf (c :: m) = true ↔ (∀ d ∈ m.head?, c.1 < d.1) ∧ Memory.wf m = true := by
  cases m with
  | nil => simp [Memory.wf]
  | cons d m => simp [Memory.wf]

/-- Writing a byte keeps the canonical form. -/
theorem Memory.writeByte_wf (m : Memory) (a : Nat) (v : Byte) (h : m.wf = true) :
    (Memory.writeByte m a v).wf = true := by
  induction m with
  | nil => rfl
  | cons c m ih =>
    obtain ⟨hc, hm⟩ := (Memory.wf_cons c m).1 h
    simp only [Memory.writeByte]
    split
    · exact (Memory.wf_cons _ _).2 ⟨by simpa using ‹a < c.1›, h⟩
    · split
      next h1 h2 => subst h2; exact (Memory.wf_cons _ _).2 ⟨hc, hm⟩
      next h1 h2 =>
        exact (Memory.wf_cons _ _).2 ⟨Memory.head_writeByte m a v c.1 (by omega) hc, ih hm⟩

/-- Writing a word keeps the canonical form. -/
theorem Memory.writeWord_wf (m : Memory) (a : Nat) (v : Word16) (h : m.wf = true) :
    (Memory.writeWord m a v).wf = true :=
  Memory.writeByte_wf _ _ _ (Memory.writeByte_wf _ _ _ h)

/-- Writing words keeps the canonical form. -/
theorem Memory.writeWords_wf (m : Memory) (a : Nat) (vs : List Word16) (h : m.wf = true) :
    (Memory.writeWords m a vs).wf = true := by
  induction vs generalizing m a with
  | nil => exact h
  | cons v vs ih => exact ih _ _ (Memory.writeWord_wf m a v h)

/-- Reading a byte after writing a word. -/
theorem Memory.readByte_writeWord (m : Memory) (a : Nat) (v : Word16) (b : Nat) :
    (Memory.writeWord m a v).readByte b =
      if b = a then some (v.extractLsb' 8 8)
      else if b = a + 1 then some (v.extractLsb' 0 8) else Memory.readByte m b := by
  simp only [Memory.writeWord, Memory.readByte_writeByte]
  by_cases h1 : b = a
  · subst h1; simp
  · by_cases h2 : b = a + 1
    · subst h2; simp
    · have h3 : ¬ a + 1 = b := fun h => h2 h.symm
      have h4 : ¬ a = b := fun h => h1 h.symm
      simp [h1, h2, h3, h4]

/-- Writing a word leaves every other byte alone. -/
theorem Memory.readByte_writeWord_other (m : Memory) (a : Nat) (v : Word16) (b : Nat)
    (h : b < a ∨ a + 2 ≤ b) : (Memory.writeWord m a v).readByte b = Memory.readByte m b := by
  rw [Memory.readByte_writeWord, if_neg (by omega), if_neg (by omega)]

/-- A word of 16 bits is the append of its two bytes. -/
theorem bytes_append (v : Word16) : (v.extractLsb' 8 8 ++ v.extractLsb' 0 8 : BitVec (8 + 8)) = v := by
  apply BitVec.eq_of_getLsbD_eq
  intro i hi
  simp only [BitVec.getLsbD_append, BitVec.getLsbD_extractLsb']
  by_cases h : i < 8
  · simp [h]
  · have h2 : i - 8 < 8 := by omega
    have h3 : 8 + (i - 8) = i := by omega
    simp [h, h2, h3]

/-- Reading back the word that was written. -/
theorem Memory.readWord_writeWord_same (m : Memory) (a : Nat) (v : Word16) :
    (Memory.writeWord m a v).readWord a = some v := by
  simp only [Memory.readWord, Memory.readByte_writeWord]
  simp [bytes_append]

/-- A word elsewhere is unchanged. -/
theorem Memory.readWord_writeWord_other (m : Memory) (a : Nat) (v : Word16) (b : Nat)
    (h : b + 2 ≤ a ∨ a + 2 ≤ b) : (Memory.writeWord m a v).readWord b = Memory.readWord m b := by
  simp only [Memory.readWord, Memory.readByte_writeWord_other m a v b (by omega),
    Memory.readByte_writeWord_other m a v (b + 1) (by omega)]

/-- Writing words leaves every byte outside them alone. -/
theorem Memory.readByte_writeWords_other (m : Memory) (a : Nat) (vs : List Word16) (b : Nat)
    (h : b < a ∨ a + 2 * vs.length ≤ b) : (Memory.writeWords m a vs).readByte b = Memory.readByte m b := by
  induction vs generalizing m a with
  | nil => rfl
  | cons v vs ih =>
    simp only [List.length_cons] at h
    rw [Memory.writeWords, ih _ _ (by omega), Memory.readByte_writeWord_other _ _ _ _ (by omega)]

/-- A word outside the written ones is unchanged. -/
theorem Memory.readWord_writeWords_other (m : Memory) (a : Nat) (vs : List Word16) (b : Nat)
    (h : b + 2 ≤ a ∨ a + 2 * vs.length ≤ b) : (Memory.writeWords m a vs).readWord b = Memory.readWord m b := by
  simp only [Memory.readWord, Memory.readByte_writeWords_other m a vs b (by omega),
    Memory.readByte_writeWords_other m a vs (b + 1) (by omega)]

/-- Reading back one of the written words. -/
theorem Memory.readWord_writeWords_same (m : Memory) (a : Nat) (vs : List Word16) (i : Nat) (h : i < vs.length) :
    (Memory.writeWords m a vs).readWord (a + 2 * i) = some vs[i] := by
  induction vs generalizing m a i with
  | nil => simp at h
  | cons v vs ih =>
    rw [Memory.writeWords]
    cases i with
    | zero =>
      rw [Memory.readWord_writeWords_other _ _ _ _ (by omega)]
      simpa using Memory.readWord_writeWord_same m a v
    | succ i =>
      have := ih (Memory.writeWord m a v) (a + 2) i (by simpa using h)
      simpa [show a + 2 + 2 * i = a + 2 * (i + 1) by omega] using this

/-- A written byte stays written under a write. -/
theorem Memory.readWord_isSome_writeWord (m : Memory) (a : Nat) (v : Word16) (b : Nat)
    (h : (Memory.readWord m b).isSome = true) : ((Memory.writeWord m a v).readWord b).isSome = true := by
  simp only [Memory.readWord, Memory.readByte_writeWord] at h ⊢
  revert h
  cases h1 : Memory.readByte m b <;> cases h2 : Memory.readByte m (b + 1) <;> simp
  split_ifs <;> simp

theorem Memory.readWord_isSome_writeWords (m : Memory) (a : Nat) (vs : List Word16) (b : Nat)
    (h : (Memory.readWord m b).isSome = true) : ((Memory.writeWords m a vs).readWord b).isSome = true := by
  induction vs generalizing m a with
  | nil => exact h
  | cons v vs ih => exact ih _ _ (Memory.readWord_isSome_writeWord m a v b h)

end Sys2Proof.Machine
end

