-- ==== Sys2Proof/Laws/State.lean ====
section
/-! SUPPORT. One lemma per field per named update of State, each true by rfl. -/

namespace Sys2Proof.Machine

/-! ### `State.store`: `MemWrite` -/

@[simp] theorem State.store_st (s : State) (r : Region) (i : Nat) (v : Word16) : (s.store r i v).st = s.st := rfl
@[simp] theorem State.store_cnt (s : State) (r : Region) (i : Nat) (v : Word16) : (s.store r i v).cnt = s.cnt := rfl
@[simp] theorem State.store_cur (s : State) (r : Region) (i : Nat) (v : Word16) : (s.store r i v).cur = s.cur := rfl
@[simp] theorem State.store_act (s : State) (r : Region) (i : Nat) (v : Word16) : (s.store r i v).act = s.act := rfl
@[simp] theorem State.store_rdy (s : State) (r : Region) (i : Nat) (v : Word16) : (s.store r i v).rdy = s.rdy := rfl
@[simp] theorem State.store_rdySel (s : State) (r : Region) (i : Nat) (v : Word16) : (s.store r i v).rdySel = s.rdySel := rfl
@[simp] theorem State.store_held (s : State) (r : Region) (i : Nat) (v : Word16) : (s.store r i v).held = s.held := rfl
@[simp] theorem State.store_heldSel (s : State) (r : Region) (i : Nat) (v : Word16) : (s.store r i v).heldSel = s.heldSel := rfl
@[simp] theorem State.store_mem (s : State) (r : Region) (i : Nat) (v : Word16) : (s.store r i v).mem = s.mem.writeWord (wordAddr s.cfg.toConfig r i) v := rfl
@[simp] theorem State.store_eref (s : State) (r : Region) (i : Nat) (v : Word16) : (s.store r i v).eref = s.eref := rfl
@[simp] theorem State.store_lim1 (s : State) (r : Region) (i : Nat) (v : Word16) : (s.store r i v).lim1 = s.lim1 := rfl
@[simp] theorem State.store_lim2 (s : State) (r : Region) (i : Nat) (v : Word16) : (s.store r i v).lim2 = s.lim2 := rfl
@[simp] theorem State.store_lim3 (s : State) (r : Region) (i : Nat) (v : Word16) : (s.store r i v).lim3 = s.lim3 := rfl
@[simp] theorem State.store_ckacc (s : State) (r : Region) (i : Nat) (v : Word16) : (s.store r i v).ckacc = s.ckacc := rfl
@[simp] theorem State.store_sym (s : State) (r : Region) (i : Nat) (v : Word16) : (s.store r i v).sym = s.sym := rfl
@[simp] theorem State.store_matched (s : State) (r : Region) (i : Nat) (v : Word16) : (s.store r i v).matched = s.matched := rfl
@[simp] theorem State.store_fault (s : State) (r : Region) (i : Nat) (v : Word16) : (s.store r i v).fault = s.fault := rfl
@[simp] theorem State.store_out (s : State) (r : Region) (i : Nat) (v : Word16) : (s.store r i v).out = s.out := rfl
@[simp] theorem State.store_cfg (s : State) (r : Region) (i : Nat) (v : Word16) : (s.store r i v).cfg = s.cfg := rfl
@[simp] theorem State.store_inbox (s : State) (r : Region) (i : Nat) (v : Word16) : (s.store r i v).inbox = s.inbox := rfl
@[simp] theorem State.store_response (s : State) (r : Region) (i : Nat) (v : Word16) : (s.store r i v).response = s.response := rfl

/-! ### `State.storeRegion`: A region's words replaced -/

@[simp] theorem State.storeRegion_st (s : State) (r : Region) (ws : List Word16) : (s.storeRegion r ws).st = s.st := rfl
@[simp] theorem State.storeRegion_cnt (s : State) (r : Region) (ws : List Word16) : (s.storeRegion r ws).cnt = s.cnt := rfl
@[simp] theorem State.storeRegion_cur (s : State) (r : Region) (ws : List Word16) : (s.storeRegion r ws).cur = s.cur := rfl
@[simp] theorem State.storeRegion_act (s : State) (r : Region) (ws : List Word16) : (s.storeRegion r ws).act = s.act := rfl
@[simp] theorem State.storeRegion_rdy (s : State) (r : Region) (ws : List Word16) : (s.storeRegion r ws).rdy = s.rdy := rfl
@[simp] theorem State.storeRegion_rdySel (s : State) (r : Region) (ws : List Word16) : (s.storeRegion r ws).rdySel = s.rdySel := rfl
@[simp] theorem State.storeRegion_held (s : State) (r : Region) (ws : List Word16) : (s.storeRegion r ws).held = s.held := rfl
@[simp] theorem State.storeRegion_heldSel (s : State) (r : Region) (ws : List Word16) : (s.storeRegion r ws).heldSel = s.heldSel := rfl
@[simp] theorem State.storeRegion_mem (s : State) (r : Region) (ws : List Word16) : (s.storeRegion r ws).mem = s.mem.writeWords (wordAddr s.cfg.toConfig r 0) ws := rfl
@[simp] theorem State.storeRegion_eref (s : State) (r : Region) (ws : List Word16) : (s.storeRegion r ws).eref = s.eref := rfl
@[simp] theorem State.storeRegion_lim1 (s : State) (r : Region) (ws : List Word16) : (s.storeRegion r ws).lim1 = s.lim1 := rfl
@[simp] theorem State.storeRegion_lim2 (s : State) (r : Region) (ws : List Word16) : (s.storeRegion r ws).lim2 = s.lim2 := rfl
@[simp] theorem State.storeRegion_lim3 (s : State) (r : Region) (ws : List Word16) : (s.storeRegion r ws).lim3 = s.lim3 := rfl
@[simp] theorem State.storeRegion_ckacc (s : State) (r : Region) (ws : List Word16) : (s.storeRegion r ws).ckacc = s.ckacc := rfl
@[simp] theorem State.storeRegion_sym (s : State) (r : Region) (ws : List Word16) : (s.storeRegion r ws).sym = s.sym := rfl
@[simp] theorem State.storeRegion_matched (s : State) (r : Region) (ws : List Word16) : (s.storeRegion r ws).matched = s.matched := rfl
@[simp] theorem State.storeRegion_fault (s : State) (r : Region) (ws : List Word16) : (s.storeRegion r ws).fault = s.fault := rfl
@[simp] theorem State.storeRegion_out (s : State) (r : Region) (ws : List Word16) : (s.storeRegion r ws).out = s.out := rfl
@[simp] theorem State.storeRegion_cfg (s : State) (r : Region) (ws : List Word16) : (s.storeRegion r ws).cfg = s.cfg := rfl
@[simp] theorem State.storeRegion_inbox (s : State) (r : Region) (ws : List Word16) : (s.storeRegion r ws).inbox = s.inbox := rfl
@[simp] theorem State.storeRegion_response (s : State) (r : Region) (ws : List Word16) : (s.storeRegion r ws).response = s.response := rfl

/-! ### `State.reply`: `rsp(ok, res)` -/

@[simp] theorem State.reply_st (s : State) (ok : Bool) (res : Word32) : (s.reply ok res).st = s.st := rfl
@[simp] theorem State.reply_cnt (s : State) (ok : Bool) (res : Word32) : (s.reply ok res).cnt = s.cnt := rfl
@[simp] theorem State.reply_cur (s : State) (ok : Bool) (res : Word32) : (s.reply ok res).cur = s.cur := rfl
@[simp] theorem State.reply_act (s : State) (ok : Bool) (res : Word32) : (s.reply ok res).act = s.act := rfl
@[simp] theorem State.reply_rdy (s : State) (ok : Bool) (res : Word32) : (s.reply ok res).rdy = s.rdy := rfl
@[simp] theorem State.reply_rdySel (s : State) (ok : Bool) (res : Word32) : (s.reply ok res).rdySel = s.rdySel := rfl
@[simp] theorem State.reply_held (s : State) (ok : Bool) (res : Word32) : (s.reply ok res).held = s.held := rfl
@[simp] theorem State.reply_heldSel (s : State) (ok : Bool) (res : Word32) : (s.reply ok res).heldSel = s.heldSel := rfl
@[simp] theorem State.reply_mem (s : State) (ok : Bool) (res : Word32) : (s.reply ok res).mem = s.mem := rfl
@[simp] theorem State.reply_eref (s : State) (ok : Bool) (res : Word32) : (s.reply ok res).eref = s.eref := rfl
@[simp] theorem State.reply_lim1 (s : State) (ok : Bool) (res : Word32) : (s.reply ok res).lim1 = s.lim1 := rfl
@[simp] theorem State.reply_lim2 (s : State) (ok : Bool) (res : Word32) : (s.reply ok res).lim2 = s.lim2 := rfl
@[simp] theorem State.reply_lim3 (s : State) (ok : Bool) (res : Word32) : (s.reply ok res).lim3 = s.lim3 := rfl
@[simp] theorem State.reply_ckacc (s : State) (ok : Bool) (res : Word32) : (s.reply ok res).ckacc = s.ckacc := rfl
@[simp] theorem State.reply_sym (s : State) (ok : Bool) (res : Word32) : (s.reply ok res).sym = s.sym := rfl
@[simp] theorem State.reply_matched (s : State) (ok : Bool) (res : Word32) : (s.reply ok res).matched = s.matched := rfl
@[simp] theorem State.reply_fault (s : State) (ok : Bool) (res : Word32) : (s.reply ok res).fault = s.fault := rfl
@[simp] theorem State.reply_out (s : State) (ok : Bool) (res : Word32) : (s.reply ok res).out = s.out := rfl
@[simp] theorem State.reply_cfg (s : State) (ok : Bool) (res : Word32) : (s.reply ok res).cfg = s.cfg := rfl
@[simp] theorem State.reply_inbox (s : State) (ok : Bool) (res : Word32) : (s.reply ok res).inbox = s.inbox := rfl
@[simp] theorem State.reply_response (s : State) (ok : Bool) (res : Word32) : (s.reply ok res).response = some ⟨ok, res⟩ := rfl

/-! ### `State.noReply`: No response -/

@[simp] theorem State.noReply_st (s : State) : s.noReply.st = s.st := rfl
@[simp] theorem State.noReply_cnt (s : State) : s.noReply.cnt = s.cnt := rfl
@[simp] theorem State.noReply_cur (s : State) : s.noReply.cur = s.cur := rfl
@[simp] theorem State.noReply_act (s : State) : s.noReply.act = s.act := rfl
@[simp] theorem State.noReply_rdy (s : State) : s.noReply.rdy = s.rdy := rfl
@[simp] theorem State.noReply_rdySel (s : State) : s.noReply.rdySel = s.rdySel := rfl
@[simp] theorem State.noReply_held (s : State) : s.noReply.held = s.held := rfl
@[simp] theorem State.noReply_heldSel (s : State) : s.noReply.heldSel = s.heldSel := rfl
@[simp] theorem State.noReply_mem (s : State) : s.noReply.mem = s.mem := rfl
@[simp] theorem State.noReply_eref (s : State) : s.noReply.eref = s.eref := rfl
@[simp] theorem State.noReply_lim1 (s : State) : s.noReply.lim1 = s.lim1 := rfl
@[simp] theorem State.noReply_lim2 (s : State) : s.noReply.lim2 = s.lim2 := rfl
@[simp] theorem State.noReply_lim3 (s : State) : s.noReply.lim3 = s.lim3 := rfl
@[simp] theorem State.noReply_ckacc (s : State) : s.noReply.ckacc = s.ckacc := rfl
@[simp] theorem State.noReply_sym (s : State) : s.noReply.sym = s.sym := rfl
@[simp] theorem State.noReply_matched (s : State) : s.noReply.matched = s.matched := rfl
@[simp] theorem State.noReply_fault (s : State) : s.noReply.fault = s.fault := rfl
@[simp] theorem State.noReply_out (s : State) : s.noReply.out = s.out := rfl
@[simp] theorem State.noReply_cfg (s : State) : s.noReply.cfg = s.cfg := rfl
@[simp] theorem State.noReply_inbox (s : State) : s.noReply.inbox = s.inbox := rfl
@[simp] theorem State.noReply_response (s : State) : s.noReply.response = none := rfl

/-! ### `State.setFault`: A FAULT bit set -/

@[simp] theorem State.setFault_st (s : State) (f : FaultBit) : (s.setFault f).st = s.st := rfl
@[simp] theorem State.setFault_cnt (s : State) (f : FaultBit) : (s.setFault f).cnt = s.cnt := rfl
@[simp] theorem State.setFault_cur (s : State) (f : FaultBit) : (s.setFault f).cur = s.cur := rfl
@[simp] theorem State.setFault_act (s : State) (f : FaultBit) : (s.setFault f).act = s.act := rfl
@[simp] theorem State.setFault_rdy (s : State) (f : FaultBit) : (s.setFault f).rdy = s.rdy := rfl
@[simp] theorem State.setFault_rdySel (s : State) (f : FaultBit) : (s.setFault f).rdySel = s.rdySel := rfl
@[simp] theorem State.setFault_held (s : State) (f : FaultBit) : (s.setFault f).held = s.held := rfl
@[simp] theorem State.setFault_heldSel (s : State) (f : FaultBit) : (s.setFault f).heldSel = s.heldSel := rfl
@[simp] theorem State.setFault_mem (s : State) (f : FaultBit) : (s.setFault f).mem = s.mem := rfl
@[simp] theorem State.setFault_eref (s : State) (f : FaultBit) : (s.setFault f).eref = s.eref := rfl
@[simp] theorem State.setFault_lim1 (s : State) (f : FaultBit) : (s.setFault f).lim1 = s.lim1 := rfl
@[simp] theorem State.setFault_lim2 (s : State) (f : FaultBit) : (s.setFault f).lim2 = s.lim2 := rfl
@[simp] theorem State.setFault_lim3 (s : State) (f : FaultBit) : (s.setFault f).lim3 = s.lim3 := rfl
@[simp] theorem State.setFault_ckacc (s : State) (f : FaultBit) : (s.setFault f).ckacc = s.ckacc := rfl
@[simp] theorem State.setFault_sym (s : State) (f : FaultBit) : (s.setFault f).sym = s.sym := rfl
@[simp] theorem State.setFault_matched (s : State) (f : FaultBit) : (s.setFault f).matched = s.matched := rfl
@[simp] theorem State.setFault_fault (s : State) (f : FaultBit) : (s.setFault f).fault = s.fault ||| f.code := rfl
@[simp] theorem State.setFault_out (s : State) (f : FaultBit) : (s.setFault f).out = s.out := rfl
@[simp] theorem State.setFault_cfg (s : State) (f : FaultBit) : (s.setFault f).cfg = s.cfg := rfl
@[simp] theorem State.setFault_inbox (s : State) (f : FaultBit) : (s.setFault f).inbox = s.inbox := rfl
@[simp] theorem State.setFault_response (s : State) (f : FaultBit) : (s.setFault f).response = s.response := rfl

/-! ### `State.raise`: `fault(F)` -/

@[simp] theorem State.raise_st (s : State) (f : FaultBit) : (s.raise f).st = s.st := rfl
@[simp] theorem State.raise_cnt (s : State) (f : FaultBit) : (s.raise f).cnt = s.cnt := rfl
@[simp] theorem State.raise_cur (s : State) (f : FaultBit) : (s.raise f).cur = s.cur := rfl
@[simp] theorem State.raise_act (s : State) (f : FaultBit) : (s.raise f).act = s.act := rfl
@[simp] theorem State.raise_rdy (s : State) (f : FaultBit) : (s.raise f).rdy = s.rdy := rfl
@[simp] theorem State.raise_rdySel (s : State) (f : FaultBit) : (s.raise f).rdySel = s.rdySel := rfl
@[simp] theorem State.raise_held (s : State) (f : FaultBit) : (s.raise f).held = s.held := rfl
@[simp] theorem State.raise_heldSel (s : State) (f : FaultBit) : (s.raise f).heldSel = s.heldSel := rfl
@[simp] theorem State.raise_mem (s : State) (f : FaultBit) : (s.raise f).mem = s.mem := rfl
@[simp] theorem State.raise_eref (s : State) (f : FaultBit) : (s.raise f).eref = s.eref := rfl
@[simp] theorem State.raise_lim1 (s : State) (f : FaultBit) : (s.raise f).lim1 = s.lim1 := rfl
@[simp] theorem State.raise_lim2 (s : State) (f : FaultBit) : (s.raise f).lim2 = s.lim2 := rfl
@[simp] theorem State.raise_lim3 (s : State) (f : FaultBit) : (s.raise f).lim3 = s.lim3 := rfl
@[simp] theorem State.raise_ckacc (s : State) (f : FaultBit) : (s.raise f).ckacc = s.ckacc := rfl
@[simp] theorem State.raise_sym (s : State) (f : FaultBit) : (s.raise f).sym = s.sym := rfl
@[simp] theorem State.raise_matched (s : State) (f : FaultBit) : (s.raise f).matched = s.matched := rfl
@[simp] theorem State.raise_fault (s : State) (f : FaultBit) : (s.raise f).fault = s.fault ||| f.code := rfl
@[simp] theorem State.raise_out (s : State) (f : FaultBit) : (s.raise f).out = s.out := rfl
@[simp] theorem State.raise_cfg (s : State) (f : FaultBit) : (s.raise f).cfg = s.cfg := rfl
@[simp] theorem State.raise_inbox (s : State) (f : FaultBit) : (s.raise f).inbox = s.inbox := rfl
@[simp] theorem State.raise_response (s : State) (f : FaultBit) : (s.raise f).response = some ⟨false, 0⟩ := rfl

/-! ### `State.setReference`: The reference and the limits -/

@[simp] theorem State.setReference_st (s : State) (e : Word32) : (s.setReference e).st = s.st := rfl
@[simp] theorem State.setReference_cnt (s : State) (e : Word32) : (s.setReference e).cnt = s.cnt := rfl
@[simp] theorem State.setReference_cur (s : State) (e : Word32) : (s.setReference e).cur = s.cur := rfl
@[simp] theorem State.setReference_act (s : State) (e : Word32) : (s.setReference e).act = s.act := rfl
@[simp] theorem State.setReference_rdy (s : State) (e : Word32) : (s.setReference e).rdy = s.rdy := rfl
@[simp] theorem State.setReference_rdySel (s : State) (e : Word32) : (s.setReference e).rdySel = s.rdySel := rfl
@[simp] theorem State.setReference_held (s : State) (e : Word32) : (s.setReference e).held = s.held := rfl
@[simp] theorem State.setReference_heldSel (s : State) (e : Word32) : (s.setReference e).heldSel = s.heldSel := rfl
@[simp] theorem State.setReference_mem (s : State) (e : Word32) : (s.setReference e).mem = s.mem := rfl
@[simp] theorem State.setReference_eref (s : State) (e : Word32) : (s.setReference e).eref = e := rfl
@[simp] theorem State.setReference_lim1 (s : State) (e : Word32) : (s.setReference e).lim1 = limit1 e := rfl
@[simp] theorem State.setReference_lim2 (s : State) (e : Word32) : (s.setReference e).lim2 = limit2 e := rfl
@[simp] theorem State.setReference_lim3 (s : State) (e : Word32) : (s.setReference e).lim3 = limit3 e := rfl
@[simp] theorem State.setReference_ckacc (s : State) (e : Word32) : (s.setReference e).ckacc = s.ckacc := rfl
@[simp] theorem State.setReference_sym (s : State) (e : Word32) : (s.setReference e).sym = s.sym := rfl
@[simp] theorem State.setReference_matched (s : State) (e : Word32) : (s.setReference e).matched = s.matched := rfl
@[simp] theorem State.setReference_fault (s : State) (e : Word32) : (s.setReference e).fault = s.fault := rfl
@[simp] theorem State.setReference_out (s : State) (e : Word32) : (s.setReference e).out = s.out := rfl
@[simp] theorem State.setReference_cfg (s : State) (e : Word32) : (s.setReference e).cfg = s.cfg := rfl
@[simp] theorem State.setReference_inbox (s : State) (e : Word32) : (s.setReference e).inbox = s.inbox := rfl
@[simp] theorem State.setReference_response (s : State) (e : Word32) : (s.setReference e).response = s.response := rfl

/-! ### `State.setSym`: One symbol register -/

@[simp] theorem State.setSym_st (s : State) (i : Nat) (v : Byte) : (s.setSym i v).st = s.st := rfl
@[simp] theorem State.setSym_cnt (s : State) (i : Nat) (v : Byte) : (s.setSym i v).cnt = s.cnt := rfl
@[simp] theorem State.setSym_cur (s : State) (i : Nat) (v : Byte) : (s.setSym i v).cur = s.cur := rfl
@[simp] theorem State.setSym_act (s : State) (i : Nat) (v : Byte) : (s.setSym i v).act = s.act := rfl
@[simp] theorem State.setSym_rdy (s : State) (i : Nat) (v : Byte) : (s.setSym i v).rdy = s.rdy := rfl
@[simp] theorem State.setSym_rdySel (s : State) (i : Nat) (v : Byte) : (s.setSym i v).rdySel = s.rdySel := rfl
@[simp] theorem State.setSym_held (s : State) (i : Nat) (v : Byte) : (s.setSym i v).held = s.held := rfl
@[simp] theorem State.setSym_heldSel (s : State) (i : Nat) (v : Byte) : (s.setSym i v).heldSel = s.heldSel := rfl
@[simp] theorem State.setSym_mem (s : State) (i : Nat) (v : Byte) : (s.setSym i v).mem = s.mem := rfl
@[simp] theorem State.setSym_eref (s : State) (i : Nat) (v : Byte) : (s.setSym i v).eref = s.eref := rfl
@[simp] theorem State.setSym_lim1 (s : State) (i : Nat) (v : Byte) : (s.setSym i v).lim1 = s.lim1 := rfl
@[simp] theorem State.setSym_lim2 (s : State) (i : Nat) (v : Byte) : (s.setSym i v).lim2 = s.lim2 := rfl
@[simp] theorem State.setSym_lim3 (s : State) (i : Nat) (v : Byte) : (s.setSym i v).lim3 = s.lim3 := rfl
@[simp] theorem State.setSym_ckacc (s : State) (i : Nat) (v : Byte) : (s.setSym i v).ckacc = s.ckacc := rfl
@[simp] theorem State.setSym_sym (s : State) (i : Nat) (v : Byte) : (s.setSym i v).sym = s.sym.set i v := rfl
@[simp] theorem State.setSym_matched (s : State) (i : Nat) (v : Byte) : (s.setSym i v).matched = false := rfl
@[simp] theorem State.setSym_fault (s : State) (i : Nat) (v : Byte) : (s.setSym i v).fault = s.fault := rfl
@[simp] theorem State.setSym_out (s : State) (i : Nat) (v : Byte) : (s.setSym i v).out = s.out := rfl
@[simp] theorem State.setSym_cfg (s : State) (i : Nat) (v : Byte) : (s.setSym i v).cfg = s.cfg := rfl
@[simp] theorem State.setSym_inbox (s : State) (i : Nat) (v : Byte) : (s.setSym i v).inbox = s.inbox := rfl
@[simp] theorem State.setSym_response (s : State) (i : Nat) (v : Byte) : (s.setSym i v).response = s.response := rfl

/-! ### `State.setFrame`: All symbol registers -/

@[simp] theorem State.setFrame_st (s : State) (vs : List Byte) : (s.setFrame vs).st = s.st := rfl
@[simp] theorem State.setFrame_cnt (s : State) (vs : List Byte) : (s.setFrame vs).cnt = s.cnt := rfl
@[simp] theorem State.setFrame_cur (s : State) (vs : List Byte) : (s.setFrame vs).cur = s.cur := rfl
@[simp] theorem State.setFrame_act (s : State) (vs : List Byte) : (s.setFrame vs).act = s.act := rfl
@[simp] theorem State.setFrame_rdy (s : State) (vs : List Byte) : (s.setFrame vs).rdy = s.rdy := rfl
@[simp] theorem State.setFrame_rdySel (s : State) (vs : List Byte) : (s.setFrame vs).rdySel = s.rdySel := rfl
@[simp] theorem State.setFrame_held (s : State) (vs : List Byte) : (s.setFrame vs).held = s.held := rfl
@[simp] theorem State.setFrame_heldSel (s : State) (vs : List Byte) : (s.setFrame vs).heldSel = s.heldSel := rfl
@[simp] theorem State.setFrame_mem (s : State) (vs : List Byte) : (s.setFrame vs).mem = s.mem := rfl
@[simp] theorem State.setFrame_eref (s : State) (vs : List Byte) : (s.setFrame vs).eref = s.eref := rfl
@[simp] theorem State.setFrame_lim1 (s : State) (vs : List Byte) : (s.setFrame vs).lim1 = s.lim1 := rfl
@[simp] theorem State.setFrame_lim2 (s : State) (vs : List Byte) : (s.setFrame vs).lim2 = s.lim2 := rfl
@[simp] theorem State.setFrame_lim3 (s : State) (vs : List Byte) : (s.setFrame vs).lim3 = s.lim3 := rfl
@[simp] theorem State.setFrame_ckacc (s : State) (vs : List Byte) : (s.setFrame vs).ckacc = s.ckacc := rfl
@[simp] theorem State.setFrame_sym (s : State) (vs : List Byte) : (s.setFrame vs).sym = vs := rfl
@[simp] theorem State.setFrame_matched (s : State) (vs : List Byte) : (s.setFrame vs).matched = false := rfl
@[simp] theorem State.setFrame_fault (s : State) (vs : List Byte) : (s.setFrame vs).fault = s.fault := rfl
@[simp] theorem State.setFrame_out (s : State) (vs : List Byte) : (s.setFrame vs).out = s.out := rfl
@[simp] theorem State.setFrame_cfg (s : State) (vs : List Byte) : (s.setFrame vs).cfg = s.cfg := rfl
@[simp] theorem State.setFrame_inbox (s : State) (vs : List Byte) : (s.setFrame vs).inbox = s.inbox := rfl
@[simp] theorem State.setFrame_response (s : State) (vs : List Byte) : (s.setFrame vs).response = s.response := rfl

/-! ### `State.present`: An event presented -/

@[simp] theorem State.present_st (s : State) (e : Event) : (s.present e).st = s.st := rfl
@[simp] theorem State.present_cnt (s : State) (e : Event) : (s.present e).cnt = s.cnt := rfl
@[simp] theorem State.present_cur (s : State) (e : Event) : (s.present e).cur = s.cur := rfl
@[simp] theorem State.present_act (s : State) (e : Event) : (s.present e).act = s.act := rfl
@[simp] theorem State.present_rdy (s : State) (e : Event) : (s.present e).rdy = s.rdy := rfl
@[simp] theorem State.present_rdySel (s : State) (e : Event) : (s.present e).rdySel = s.rdySel := rfl
@[simp] theorem State.present_held (s : State) (e : Event) : (s.present e).held = s.held := rfl
@[simp] theorem State.present_heldSel (s : State) (e : Event) : (s.present e).heldSel = s.heldSel := rfl
@[simp] theorem State.present_mem (s : State) (e : Event) : (s.present e).mem = s.mem := rfl
@[simp] theorem State.present_eref (s : State) (e : Event) : (s.present e).eref = s.eref := rfl
@[simp] theorem State.present_lim1 (s : State) (e : Event) : (s.present e).lim1 = s.lim1 := rfl
@[simp] theorem State.present_lim2 (s : State) (e : Event) : (s.present e).lim2 = s.lim2 := rfl
@[simp] theorem State.present_lim3 (s : State) (e : Event) : (s.present e).lim3 = s.lim3 := rfl
@[simp] theorem State.present_ckacc (s : State) (e : Event) : (s.present e).ckacc = s.ckacc := rfl
@[simp] theorem State.present_sym (s : State) (e : Event) : (s.present e).sym = s.sym := rfl
@[simp] theorem State.present_matched (s : State) (e : Event) : (s.present e).matched = s.matched := rfl
@[simp] theorem State.present_fault (s : State) (e : Event) : (s.present e).fault = s.fault := rfl
@[simp] theorem State.present_out (s : State) (e : Event) : (s.present e).out = s.out := rfl
@[simp] theorem State.present_cfg (s : State) (e : Event) : (s.present e).cfg = s.cfg := rfl
@[simp] theorem State.present_inbox (s : State) (e : Event) : (s.present e).inbox = e :: s.inbox := rfl
@[simp] theorem State.present_response (s : State) (e : Event) : (s.present e).response = s.response := rfl

end Sys2Proof.Machine
end

