-- ==== Sys2Proof/Laws/Ops.lean ====
section
/-! SUPPORT. What each shared operation can do, said once. -/

namespace Sys2Proof.Machine

/-! ### Outcomes -/

/-- A finished command answers its response on the state it was given. -/
theorem done_next (s t : State) (ok : Bool) (res : Word32) : done s ok res = .next t ↔ t = s.reply ok res := by
  simp only [done, Host.Outcome.next.injEq, eq_comm]

/-- A faulting command answers (0, 0) and sets the bit. -/
theorem faulted_next (s t : State) (f : FaultBit) : faulted s f = .next t ↔ t = s.raise f := by
  simp only [faulted, Host.Outcome.next.injEq, eq_comm]

/-- On the held region: NOHELD, or what is done with it. -/
theorem onHeld_next (s t : State) (k : Region → Result) :
    onHeld s k = .next t ↔ (s.held = false ∧ t = s.raise .noheld) ∨ (s.held = true ∧ k s.heldSel = .next t) := by
  unfold onHeld
  cases h : s.held <;> simp [faulted_next]

theorem onHeld_held (s : State) (k : Region → Result) (h : s.held = true) : onHeld s k = k s.heldSel := by
  simp [onHeld, h]

theorem onHeld_not_held (s : State) (k : Region → Result) (h : s.held = false) : onHeld s k = faulted s .noheld := by
  simp [onHeld, h]

/-- An index check: RANGE, or what is done with the index. -/
theorem inRange_next (s t : State) (i n : Nat) (k : Result) :
    inRange s i n k = .next t ↔ (n ≤ i ∧ t = s.raise .range) ∨ (i < n ∧ k = .next t) := by
  unfold inRange
  by_cases h : i < n
  · simp [h]
  · simp [h, faulted_next, Nat.not_lt.1 h]

theorem inRange_lt (s : State) (i n : Nat) (k : Result) (h : i < n) : inRange s i n k = k := by simp [inRange, h]

theorem inRange_ge (s : State) (i n : Nat) (k : Result) (h : n ≤ i) : inRange s i n k = faulted s .range := by
  simp [inRange, Nat.not_lt.2 h]

/-- Going on with a value that was read: a next state comes from a value that is there. -/
theorem withValue_next {α : Type} (o : Option α) (k : α → Result) (t : State) :
    withValue o k = .next t ↔ ∃ v, o = some v ∧ k v = .next t := by
  cases o <;> simp [withValue]

@[simp] theorem withValue_some {α : Type} (v : α) (k : α → Result) : withValue (some v) k = k v := rfl

/-! ### Gathering -/

/-- What gathering answers: the values, one for each element of the list. -/
theorem gather_eq_some {α : Type} (l : List (Option α)) (vs : List α) : gather l = some vs ↔ l = vs.map some := by
  induction l generalizing vs with
  | nil => cases vs <;> simp [gather]
  | cons o l ih =>
    cases o with
    | none => cases vs <;> simp [gather]
    | some x =>
      simp only [gather]
      cases hg : gather l with
      | none =>
        cases vs with
        | nil => simp
        | cons v vs =>
          have := ih vs
          simp [hg] at this
          simp [this]
      | some ys =>
        have h1 := (ih ys).1 hg
        cases vs with
        | nil => simp
        | cons v vs =>
          simp only [Option.some.injEq, List.cons.injEq, List.map_cons]
          rw [h1]
          constructor
          · rintro ⟨rfl, rfl⟩; exact ⟨rfl, rfl⟩
          · rintro ⟨h, h'⟩
            exact ⟨h, List.map_injective_iff.2 (Option.some_injective _) h'⟩

/-- Gathering succeeds when every element is there. -/
theorem gather_isSome {α : Type} (l : List (Option α)) (h : ∀ o ∈ l, o.isSome = true) : (gather l).isSome = true := by
  induction l with
  | nil => rfl
  | cons o l ih =>
    cases o with
    | none => simpa using h none (by simp)
    | some x =>
      have := ih fun o ho => h o (by simp [ho])
      obtain ⟨ys, hy⟩ := Option.isSome_iff_exists.1 this
      simp [gather, hy]

/-! ### Words of the regions -/

/-- Reading back a stored word. -/
theorem State.load_store_same (s : State) (r : Region) (i : Nat) (v : Word16) : (s.store r i v).load r i = some v :=
  Memory.readWord_writeWord_same _ _ _

/-- Storing one word leaves every other word of both regions alone. -/
theorem State.load_store_other (s : State) (r r' : Region) (i j : Nat) (v : Word16) (hi : i < s.cfg.bufLen)
    (hj : j < s.cfg.bufLen) (h : ¬ (r = r' ∧ i = j)) : (s.store r i v).load r' j = s.load r' j :=
  Memory.readWord_writeWord_other _ _ _ _ (by
    have := wordAddr_disjoint s.cfg.toConfig r r' i j hi hj h
    simp only [State.store_cfg]
    omega)

/-- Storing keeps written words written. -/
theorem State.written_store (s : State) (r r' : Region) (i j : Nat) (v : Word16) (h : s.written r' j = true) :
    (s.store r i v).written r' j = true :=
  Memory.readWord_isSome_writeWord _ _ _ _ h

/-- Replacing a region keeps written words written. -/
theorem State.written_storeRegion (s : State) (r r' : Region) (ws : List Word16) (j : Nat)
    (h : s.written r' j = true) : (s.storeRegion r ws).written r' j = true :=
  Memory.readWord_isSome_writeWords _ _ _ _ h

/-- The words of a replaced region. -/
theorem State.load_storeRegion_same (s : State) (r : Region) (ws : List Word16) (i : Nat) (h : i < ws.length) :
    (s.storeRegion r ws).load r i = some ws[i] := by
  have := Memory.readWord_writeWords_same s.mem (wordAddr s.cfg.toConfig r 0) ws i h
  simpa only [State.load, State.storeRegion_mem, State.storeRegion_cfg, wordAddr_eq _ r i] using this

/-- Replacing a region leaves the other one alone. -/
theorem State.load_storeRegion_other (s : State) (r : Region) (ws : List Word16) (hl : ws.length = s.cfg.bufLen)
    (j : Nat) (hj : j < s.cfg.bufLen) : (s.storeRegion r ws).load r.other j = s.load r.other j := by
  refine Memory.readWord_writeWords_other _ _ _ _ ?_
  cases r <;> simp only [State.storeRegion_cfg, wordAddr, regionBase, Region.other, hl] <;> omega

/-- The words of a region, when all of them are written. -/
theorem State.loadRegion_eq_some (s : State) (r : Region) (ws : List Word16) :
    s.loadRegion r = some ws ↔ ws.length = s.cfg.bufLen ∧ ∀ i (h : i < ws.length), s.load r i = some ws[i] := by
  unfold State.loadRegion
  rw [gather_eq_some]
  constructor
  · intro h
    have hl : ws.length = s.cfg.bufLen := by simpa using (congrArg List.length h).symm
    refine ⟨hl, fun i hi => ?_⟩
    have := congrArg (fun l : List (Option Word16) => l[i]?) h
    simpa [hi, show i < s.cfg.bufLen by omega] using this
  · rintro ⟨hl, h⟩
    refine List.ext_getElem (by simp [hl]) fun i h1 h2 => ?_
    simp only [List.getElem_map, List.getElem_range]
    exact h i (by simpa using h2)

theorem State.loadRegion_isSome (s : State) (r : Region) (h : s.regionWritten r) : (s.loadRegion r).isSome = true := by
  refine gather_isSome _ fun o ho => ?_
  obtain ⟨i, hi, rfl⟩ := List.mem_map.1 ho
  exact h i (List.mem_range.1 hi)

/-! ### Updates that leave memory alone leave every word alone -/

@[simp] theorem State.load_reply (s : State) (ok : Bool) (res : Word32) (r : Region) (i : Nat) : (s.reply ok res).load r i = s.load r i := rfl
@[simp] theorem State.binEnergy_reply (s : State) (ok : Bool) (res : Word32) (r : Region) (i : Nat) :
    (s.reply ok res).binEnergy r i = s.binEnergy r i := rfl
@[simp] theorem State.loadRegion_reply (s : State) (ok : Bool) (res : Word32) (r : Region) : (s.reply ok res).loadRegion r = s.loadRegion r := rfl
@[simp] theorem State.load_noReply (s : State) (r : Region) (i : Nat) : s.noReply.load r i = s.load r i := rfl
@[simp] theorem State.binEnergy_noReply (s : State) (r : Region) (i : Nat) :
    s.noReply.binEnergy r i = s.binEnergy r i := rfl
@[simp] theorem State.loadRegion_noReply (s : State) (r : Region) : s.noReply.loadRegion r = s.loadRegion r := rfl
@[simp] theorem State.load_setFault (s : State) (f : FaultBit) (r : Region) (i : Nat) : (s.setFault f).load r i = s.load r i := rfl
@[simp] theorem State.binEnergy_setFault (s : State) (f : FaultBit) (r : Region) (i : Nat) :
    (s.setFault f).binEnergy r i = s.binEnergy r i := rfl
@[simp] theorem State.loadRegion_setFault (s : State) (f : FaultBit) (r : Region) : (s.setFault f).loadRegion r = s.loadRegion r := rfl
@[simp] theorem State.load_raise (s : State) (f : FaultBit) (r : Region) (i : Nat) : (s.raise f).load r i = s.load r i := rfl
@[simp] theorem State.binEnergy_raise (s : State) (f : FaultBit) (r : Region) (i : Nat) :
    (s.raise f).binEnergy r i = s.binEnergy r i := rfl
@[simp] theorem State.loadRegion_raise (s : State) (f : FaultBit) (r : Region) : (s.raise f).loadRegion r = s.loadRegion r := rfl
@[simp] theorem State.load_setReference (s : State) (e : Word32) (r : Region) (i : Nat) : (s.setReference e).load r i = s.load r i := rfl
@[simp] theorem State.binEnergy_setReference (s : State) (e : Word32) (r : Region) (i : Nat) :
    (s.setReference e).binEnergy r i = s.binEnergy r i := rfl
@[simp] theorem State.loadRegion_setReference (s : State) (e : Word32) (r : Region) : (s.setReference e).loadRegion r = s.loadRegion r := rfl
@[simp] theorem State.load_setSym (s : State) (k : Nat) (v : Byte) (r : Region) (i : Nat) : (s.setSym k v).load r i = s.load r i := rfl
@[simp] theorem State.binEnergy_setSym (s : State) (k : Nat) (v : Byte) (r : Region) (i : Nat) :
    (s.setSym k v).binEnergy r i = s.binEnergy r i := rfl
@[simp] theorem State.loadRegion_setSym (s : State) (k : Nat) (v : Byte) (r : Region) : (s.setSym k v).loadRegion r = s.loadRegion r := rfl
@[simp] theorem State.load_setFrame (s : State) (vs : List Byte) (r : Region) (i : Nat) : (s.setFrame vs).load r i = s.load r i := rfl
@[simp] theorem State.binEnergy_setFrame (s : State) (vs : List Byte) (r : Region) (i : Nat) :
    (s.setFrame vs).binEnergy r i = s.binEnergy r i := rfl
@[simp] theorem State.loadRegion_setFrame (s : State) (vs : List Byte) (r : Region) : (s.setFrame vs).loadRegion r = s.loadRegion r := rfl
@[simp] theorem State.load_present (s : State) (e : Event) (r : Region) (i : Nat) : (s.present e).load r i = s.load r i := rfl
@[simp] theorem State.binEnergy_present (s : State) (e : Event) (r : Region) (i : Nat) :
    (s.present e).binEnergy r i = s.binEnergy r i := rfl
@[simp] theorem State.loadRegion_present (s : State) (e : Event) (r : Region) : (s.present e).loadRegion r = s.loadRegion r := rfl

end Sys2Proof.Machine
end

