-- ==== Sys2Proof/Laws/Arith.lean ====
section
/-! SUPPORT. The arithmetic of the scaled multiply, the squares, the limits, the levels and the sample scaling, as
integers (spec/40_arith.md, spec/42_quantizer.md, spec/41_acquire.md R111). -/

namespace Sys2Proof.Machine

/-- An int16 as an integer. -/
theorem Word16.toInt_bounds (x : Word16) : -32768 ≤ x.toInt ∧ x.toInt ≤ 32767 := by
  have h1 := BitVec.le_toInt x
  have h2 := BitVec.toInt_lt (x := x)
  simp at h1 h2
  omega

/-- An integer in the int16 range is kept. -/
theorem toInt_ofInt16 (v : Int) (h : -32768 ≤ v) (h2 : v ≤ 32767) : (BitVec.ofInt 16 v).toInt = v := by
  rw [BitVec.toInt_ofInt]
  apply Int.bmod_eq_of_le <;> simp <;> omega

/-- Concatenation as numbers. -/
theorem toNat_append_eq {n m : Nat} (a : BitVec n) (b : BitVec m) : (a ++ b).toNat = a.toNat * 2 ^ m + b.toNat := by
  rw [BitVec.toNat_append, Nat.shiftLeft_eq, Nat.mul_comm, ← Nat.two_pow_add_eq_or_of_lt b.isLt]

/-- The range of the exact value (R102). -/
theorem smulExact_bounds (x y : Word16) : -32768 ≤ smulExact x y ∧ smulExact x y ≤ 32766 := by
  have := Word16.toInt_bounds x
  have hy := y.isLt
  simp only [smulExact, signed16, unsigned16]
  have h1 : x.toInt * (y.toNat : Int) ≤ 32767 * 65535 := by nlinarith
  have h2 : -32768 * 65535 ≤ x.toInt * (y.toNat : Int) := by nlinarith
  omega

/-- The scaled multiply with an error, as an integer. -/
theorem smulWith_toInt (e : SmulError) (x y : Word16) :
    (smulWith e x y).toInt = max (-32768) (min 32767 (smulExact x y + smulDelta e)) :=
  toInt_ofInt16 _ (by omega) (by omega)

/-- The square is exact. -/
theorem square_toNat (x : Word16) : ((square x).toNat : Int) = x.toInt * x.toInt := by
  have := Word16.toInt_bounds x
  have h1 : x.toInt * x.toInt ≤ 32768 * 32768 := by nlinarith
  have h0 : 0 ≤ x.toInt * x.toInt := by nlinarith
  simp only [square, signed16, BitVec.toNat_ofInt]
  generalize x.toInt * x.toInt = z at *
  norm_num
  omega

/-- A square of an int16 is at most 2^30. -/
theorem sq_bounds (x : Word16) : 0 ≤ x.toInt * x.toInt ∧ x.toInt * x.toInt ≤ 1073741824 := by
  have := Word16.toInt_bounds x
  constructor <;> nlinarith

/-- The squared magnitude is exact: the sum does not wrap. -/
theorem magsq_toNat (re im : Word16) : ((magsq re im).toNat : Int) = energyOf re im := by
  have h1 := square_toNat re
  have h2 := square_toNat im
  have h3 := sq_bounds re
  have h4 := sq_bounds im
  simp only [magsq, energyOf, BitVec.toNat_add]
  omega

theorem limit1_toNat (e : Word32) : (limit1 e).toNat = e.toNat / 36 := by have := e.isLt; simp [limit1]; omega
theorem limit2_toNat (e : Word32) : (limit2 e).toNat = e.toNat / 4 := by have := e.isLt; simp [limit2]; omega
theorem limit3_toNat (e : Word32) : (limit3 e).toNat = 25 * e.toNat / 36 := by have := e.isLt; simp [limit3]; omega

/-- The level against ordered limits is the one R143 gives. -/
theorem levelOf_levelIs (l1 l2 l3 e : Word32) (h : l1.toNat ≤ l2.toNat) (h2 : l2.toNat ≤ l3.toNat) :
    LevelIs l1.toNat l2.toNat l3.toNat e.toNat (levelOf l1 l2 l3 e).toNat := by
  unfold levelOf LevelIs
  simp only [BitVec.le_def]
  split
  · refine ⟨fun _ => rfl, ?_, ?_, ?_⟩ <;> intros <;> omega
  · split
    · refine ⟨?_, fun _ => rfl, ?_, ?_⟩ <;> intros <;> omega
    · split
      · refine ⟨?_, ?_, fun _ => rfl, ?_⟩ <;> intros <;> omega
      · refine ⟨?_, ?_, ?_, fun _ => rfl⟩ <;> intros <;> omega

/-- A symbol byte as a number. -/
theorem packLevels_toNat (a b c d : BitVec 2) :
    (packLevels a b c d).toNat = 64 * a.toNat + 16 * b.toNat + 4 * c.toNat + d.toNat := by
  have : (packLevels a b c d).toNat = (a ++ b ++ c ++ d : BitVec (2 + 2 + 2 + 2)).toNat := rfl
  rw [this]
  simp only [toNat_append_eq]
  omega

/-- The energy of a bin from its two words. -/
theorem State.binEnergy_of_words (s : State) (r : Region) (b : Nat) (re im : Word16)
    (h1 : s.load r (2 * b) = some re) (h2 : s.load r (2 * b + 1) = some im) :
    s.binEnergy r b = some (magsq re im) := by
  simp only [State.binEnergy, binWord, h1, h2]

/-- Scaling by SHIFT = 6 - LOG2L, by the side of 6 that LOG2L lies on. -/
theorem shiftBy_sub (v : Int) (n : Nat) :
    shiftBy v (6 - (n : Int)) = if n ≤ 6 then v * 2 ^ (6 - n) else v / 2 ^ (n - 6) := by
  split
  · obtain ⟨k, hk⟩ : ∃ k, k = 6 - n := ⟨_, rfl⟩
    have : (6 : Int) - n = Int.ofNat k := by simp; omega
    rw [this, ← hk]
    rfl
  · obtain ⟨k, hk⟩ : ∃ k, k + 1 = n - 6 := ⟨n - 7, by omega⟩
    have : (6 : Int) - n = Int.negSucc k := by omega
    rw [this, ← hk]
    rfl

/-- A scaled reading fits int16 (R111). -/
theorem scale_toInt (c : WfConfig) (raw : Reading) : (scale c.toConfig raw).toInt = scaleInt c.toConfig raw := by
  obtain ⟨h1, h2⟩ := c.log2L_bounds
  have := raw.isLt
  have h : scaleInt c.toConfig raw = _ := shiftBy_sub _ _
  have : -32768 ≤ scaleInt c.toConfig raw ∧ scaleInt c.toConfig raw ≤ 32767 := by
    rw [h]
    simp only [Config.mid]
    generalize c.log2L = n at *
    interval_cases n <;> simp <;> omega
  exact toInt_ofInt16 _ this.1 this.2

/-- The distance of a reading, as R110 writes it. -/
theorem readingDistance_eq (raw : Reading) : readingDistance raw = (distance raw : Int) := by
  simp only [readingDistance, distance, Config.mid, Int.natCast_natAbs, Nat.cast_ofNat]

/-- A countdown of at least 1 does not wrap. -/
theorem cnt_sub_one (c : Word16) (h : 1 ≤ c.toNat) : (c - 1).toNat = c.toNat - 1 := by
  have := c.isLt
  simp [BitVec.toNat_sub]
  omega

/-- The countdown reaches 0 from 1 alone. -/
theorem cnt_sub_one_eq_zero (c : Word16) : c - 1 = 0 ↔ c.toNat = 1 := by
  have := c.isLt
  constructor
  · intro h
    have : (c - 1).toNat = 0 := by rw [h]; rfl
    simp [BitVec.toNat_sub] at this
    omega
  · intro h
    apply BitVec.eq_of_toNat_eq
    rw [cnt_sub_one _ (by omega), h]
    rfl

end Sys2Proof.Machine
end

