-- ==== Sys2Proof/Laws/Checksum.lean ====
section
/-! SUPPORT. The algebra of the checksum accumulator (spec/43_checksum_frame.md R160, R161) and the frame in the symbol
registers. -/

namespace Sys2Proof.Machine

/-- One round is linear. -/
theorem crcRound_xor (a b : Byte) : crcRound (a ^^^ b) = crcRound a ^^^ crcRound b := by
  unfold crcRound
  rw [BitVec.getLsbD_xor]
  have : (a ^^^ b) <<< 1 = (a <<< 1) ^^^ (b <<< 1) := BitVec.shiftLeft_xor_distrib ..
  cases a.getLsbD 7 <;> cases b.getLsbD 7 <;> simp [this]
  · rw [BitVec.xor_assoc]
  · rw [BitVec.xor_assoc, BitVec.xor_assoc]
    congr 1
    exact BitVec.xor_comm _ _
  · apply BitVec.eq_of_getLsbD_eq
    intro i hi
    simp only [BitVec.getLsbD_xor]
    cases (a <<< 1).getLsbD i <;> cases (b <<< 1).getLsbD i <;> cases Config.poly.getLsbD i <;> rfl

/-- Rounds are linear. -/
theorem crcRounds_xor (n : Nat) (a b : Byte) : crcRounds n (a ^^^ b) = crcRounds n a ^^^ crcRounds n b := by
  induction n generalizing a b with
  | zero => rfl
  | succ n ih => simp only [crcRounds, crcRound_xor, ih]

/-- Eight rounds send only 0 to 0. -/
theorem crcRounds_eight_eq_zero : ∀ c : Byte, crcRounds 8 c = 0 → c = 0 := by decide

/-- One step on the two halves of the accumulator. -/
theorem ckstep_append (hi lo : Byte) : ckstep (hi ++ lo : BitVec (8 + 8)) =
    ((crcRound hi ^^^ (if lo.getLsbD 7 then (1 : Byte) else 0)) ++ (lo <<< 1) : BitVec (8 + 8)) := by
  unfold ckstep crcRound
  have h15 : (hi ++ lo : BitVec (8 + 8)).getLsbD 15 = hi.getLsbD 7 := by rw [BitVec.getLsbD_append]; simp
  rw [h15]
  apply BitVec.eq_of_getLsbD_eq
  intro i hi'
  rw [BitVec.getLsbD_append]
  cases h : hi.getLsbD 7 <;> cases h2 : lo.getLsbD 7 <;>
    simp only [if_true, if_false, Bool.false_eq_true, BitVec.getLsbD_xor, BitVec.getLsbD_shiftLeft,
      BitVec.getLsbD_append] <;>
    interval_cases i <;> simp_all [Config.poly]

/-- What `n` steps make of the high half, the low half shifting in. -/
def shiftIn : Nat → Byte → Byte → Byte
  | 0, c, _ => c
  | n + 1, c, lo => shiftIn n (crcRound c ^^^ (if lo.getLsbD 7 then (1 : Byte) else 0)) (lo <<< 1)

theorem cksteps_append (n : Nat) (hi lo : Byte) :
    cksteps n (hi ++ lo : BitVec (8 + 8)) = (shiftIn n hi lo ++ (lo <<< n) : BitVec (8 + 8)) := by
  induction n generalizing hi lo with
  | zero => simp [cksteps, shiftIn]
  | succ n ih =>
    simp only [cksteps, shiftIn]
    rw [ckstep_append, ih]
    congr 1
    rw [← BitVec.shiftLeft_add, Nat.add_comm]

theorem shiftIn_xor (n : Nat) (a lo : Byte) : shiftIn n a lo = crcRounds n a ^^^ shiftIn n 0 lo := by
  induction n generalizing a lo with
  | zero => simp [shiftIn, crcRounds]
  | succ n ih =>
    simp only [shiftIn, crcRounds]
    rw [ih, ih (crcRound 0 ^^^ _), crcRounds_xor, crcRounds_xor]
    have : crcRounds n (crcRound 0) = 0 := by
      have h0 : crcRound 0 = 0 := by decide
      rw [h0]
      clear ih
      induction n with
      | zero => rfl
      | succ n ih => simp only [crcRounds, h0, ih]
    rw [this, show ∀ x : Byte, (0 : Byte) ^^^ x = x from fun x => BitVec.zero_xor, BitVec.xor_assoc]

theorem shiftIn_eight_zero : ∀ d : Byte, shiftIn 8 0 d = d := by decide

/-- Feeding a byte: the high byte through eight rounds, xored with the byte; the low byte 0. -/
theorem ckfeed_eq (acc : Word16) (d : Byte) :
    ckfeed acc d = ((crcRounds 8 (highByte acc) ^^^ d) ++ 0#8 : BitVec (8 + 8)) := by
  unfold ckfeed
  rw [cksteps_append, shiftIn_xor, shiftIn_eight_zero]
  congr 1
  apply BitVec.eq_of_getLsbD_eq
  intro i hi
  simp
  try omega

/-- The high byte of two halves. -/
theorem highByte_append (a b : Byte) : highByte (a ++ b : BitVec (8 + 8)) = a := by
  apply BitVec.eq_of_getLsbD_eq
  intro i hi
  simp only [highByte, BitVec.getLsbD_extractLsb', hi, decide_true, Bool.true_and]
  rw [BitVec.getLsbD_append]
  simp

theorem highByte_ckfeed (acc : Word16) (d : Byte) :
    highByte (ckfeed acc d) = crcRounds 8 (highByte acc) ^^^ d := by
  rw [ckfeed_eq, highByte_append]

theorem highByte_toNat (acc : Word16) : (highByte acc).toNat = acc.toNat / 256 := by
  have := acc.isLt
  simp [highByte, BitVec.extractLsb'_toNat, Nat.shiftRight_eq_div_pow]
  omega

/-- The low byte after a feed. -/
theorem ckfeed_low (acc : Word16) (d : Byte) : (ckfeed acc d).toNat % 256 = 0 := by
  rw [ckfeed_eq]
  have : ((crcRounds 8 (highByte acc) ^^^ d) ++ 0#8 : BitVec (8 + 8)).toNat = _ := toNat_append_eq _ _
  rw [this]
  simp

/-- The high byte after a run of feeds is a fold over bytes. -/
theorem highByte_foldl (ds : List Byte) (acc : Word16) :
    highByte (ds.foldl ckfeed acc) = ds.foldl (fun c d => crcRounds 8 c ^^^ d) (highByte acc) := by
  induction ds generalizing acc with
  | nil => rfl
  | cons d ds ih => simp only [List.foldl_cons, ih, highByte_ckfeed]

/-- The checksum as a fold over bytes. -/
theorem cksum_eq_foldl (d : Byte) (ds : List Byte) :
    cksum d ds = crcRounds 8 (ds.foldl (fun c d => crcRounds 8 c ^^^ d) d) := by
  unfold cksum ckaccOf
  rw [highByte_ckfeed, highByte_foldl]
  unfold ckstart
  rw [highByte_append]
  exact BitVec.xor_zero

/-- The frame read off the symbol registers d, ds, c. -/
theorem State.frame_parts (s : State) (d c : Byte) (ds : List Byte) (h : s.sym = d :: (ds ++ [c]))
    (hl : s.sym.length = s.cfg.nsym) :
    s.symAt 0 = d ∧ s.symSlice 1 (s.cfg.nsym - 1) = ds ∧ s.symAt (s.cfg.nsym - 1) = c ∧ s.payload = d :: ds ∧
      ds.length + 2 = s.cfg.nsym := by
  have hn : ds.length + 2 = s.cfg.nsym := by rw [← hl, h]; simp
  have h1 : ∀ j, s.symAt (1 + j) = (ds ++ [c]).getD j 0 := by
    intro j
    simp [State.symAt, h, Nat.add_comm 1 j]
  refine ⟨by simp [State.symAt, h], ?_, ?_, ?_, hn⟩
  · apply List.ext_getElem
    · simp [State.symSlice]; omega
    · intro i h2 h3
      simp only [State.symSlice, List.getElem_map, List.getElem_range, h1]
      simp [List.getElem?_append, h3]
  · rw [show s.cfg.nsym - 1 = 1 + ds.length by omega, h1]
    simp
  · unfold State.payload
    apply List.ext_getElem
    · simp [State.symSlice]; omega
    · intro i h2 h3
      simp only [State.symSlice, List.getElem_map, List.getElem_range]
      cases i with
      | zero => simp [State.symAt, h]
      | succ i =>
        have h3 : i < ds.length := by simpa using h3
        rw [show 0 + (i + 1) = 1 + i by omega, h1]
        simp [List.getElem?_append, h3]

end Sys2Proof.Machine
end

