-- ==== Sys2Proof/Laws/Exec.lean ====
section
/-! SUPPORT. What a command and a tick can do, said once: the four ways a command ends, with the state it may touch, and
the fields a tick leaves alone. -/

namespace Sys2Proof.Machine

/-- A command has had its effect (R200, R193, R194): it answers ok = 1, no check of its rule fails, FAULT and the tick
agent's registers are kept, TAKE alone changes RDY and HELDSEL, and memory changes inside the held region alone. -/
structure CommandDone (i : Instr) (s t : State) : Prop where
  resp : ∃ r, t.response = some ⟨true, r⟩
  fault : t.fault = s.fault
  st : t.st = s.st
  cnt : t.cnt = s.cnt
  cur : t.cur = s.cur
  act : t.act = s.act
  rdySel : t.rdySel = s.rdySel
  cfg : t.cfg = s.cfg
  rdy : (i = .take ∧ s.rdy = true ∧ t.rdy = false ∧ t.held = true ∧ t.heldSel = s.rdySel) ∨
    (i ≠ .take ∧ t.rdy = s.rdy ∧ t.heldSel = s.heldSel ∧ (t.held = s.held ∨ t.held = false))
  inRange : ¬ indexOutOfRange s i
  onHeld : ¬ (accessesHeld i = true ∧ s.held = false)
  mem : ∀ a, t.mem.readByte a ≠ s.mem.readByte a → s.held = true ∧ inRegion s.cfg.toConfig s.heldSel a

/-- The four ways a command ends in a next state. -/
inductive CommandOutcome (i : Instr) (s t : State) : Prop where
  /-- It has its effect. -/
  | ok (h : CommandDone i s t)
  /-- NOHELD. -/
  | noheld (h1 : accessesHeld i = true) (h2 : s.held = false) (h3 : t = s.raise .noheld)
  /-- RANGE. -/
  | range (h1 : indexOutOfRange s i) (h2 : ¬ (accessesHeld i = true ∧ s.held = false)) (h3 : t = s.raise .range)
  /-- TAKE with nothing ready. -/
  | idle (h1 : i = .take) (h2 : s.rdy = false) (h3 : t = s.reply false 0)

/-- A reply on a state that keeps what no command but TAKE writes. -/
theorem CommandDone.of_kept {i : Instr} {s u : State} (res : Word32) (hi : i ≠ .take)
    (hk : (u.st, u.cnt, u.cur, u.act, u.rdy, u.rdySel, u.heldSel, u.fault, u.cfg) =
      (s.st, s.cnt, s.cur, s.act, s.rdy, s.rdySel, s.heldSel, s.fault, s.cfg))
    (hh : u.held = s.held ∨ u.held = false) (hr : ¬ indexOutOfRange s i)
    (ho : ¬ (accessesHeld i = true ∧ s.held = false))
    (hm : ∀ a, u.mem.readByte a ≠ s.mem.readByte a → s.held = true ∧ inRegion s.cfg.toConfig s.heldSel a) :
    CommandDone i s (u.reply true res) := by
  simp only [Prod.mk.injEq] at hk
  obtain ⟨h1, h2, h3, h4, h5, h6, h7, h8, h9⟩ := hk
  exact ⟨⟨res, rfl⟩, h8, h1, h2, h3, h4, h6, h9, .inr ⟨hi, h5, h7, hh⟩, hr, ho, hm⟩

/-- The same, on a state that also keeps memory and HELD. -/
theorem CommandDone.of_same {i : Instr} {s u : State} (res : Word32) (hi : i ≠ .take)
    (hk : (u.st, u.cnt, u.cur, u.act, u.rdy, u.rdySel, u.heldSel, u.fault, u.cfg) =
      (s.st, s.cnt, s.cur, s.act, s.rdy, s.rdySel, s.heldSel, s.fault, s.cfg))
    (hh : u.held = s.held) (hm : u.mem = s.mem) (hr : ¬ indexOutOfRange s i)
    (ho : ¬ (accessesHeld i = true ∧ s.held = false)) : CommandDone i s (u.reply true res) :=
  .of_kept res hi hk (.inl hh) hr ho (by rw [hm]; intro a h; exact absurd rfl h)

/-- An address outside a region lies outside each word of it. -/
theorem outside_word_of_not_inRegion (c : Config) (r : Region) (i a : Nat) (hi : i < c.bufLen) (h : ¬ inRegion c r a) :
    a < wordAddr c r i ∨ wordAddr c r i + 2 ≤ a := by
  cases r <;> simp only [inRegion, wordAddr, regionBase] at * <;> omega

/-- A store changes bytes of its region alone. -/
theorem inRegion_of_store_ne (s : State) (r : Region) (i : Nat) (v : Word16) (a : Nat) (hi : i < s.cfg.bufLen)
    (h : (s.store r i v).mem.readByte a ≠ s.mem.readByte a) : inRegion s.cfg.toConfig r a := by
  by_contra hn
  exact h (Memory.readByte_writeWord_other _ _ _ _ (outside_word_of_not_inRegion _ _ _ _ hi hn))

/-- Replacing a region changes bytes of that region alone. -/
theorem inRegion_of_storeRegion_ne (s : State) (r : Region) (ws : List Word16) (a : Nat)
    (hi : ws.length = s.cfg.bufLen) (h : (s.storeRegion r ws).mem.readByte a ≠ s.mem.readByte a) :
    inRegion s.cfg.toConfig r a := by
  by_contra hn
  refine h (Memory.readByte_writeWords_other _ _ _ _ ?_)
  cases r <;> simp only [inRegion, wordAddr, regionBase] at * <;> omega

/-- The indices that name no register (R42). -/
theorem register_eq_none (s : State) (a : Nat) (h : s.register a = none) : ¬ (a ≤ 8 ∨ (16 ≤ a ∧ a ≤ 27)) := by
  rintro (h1 | ⟨h1, h2⟩) <;> interval_cases a <;> simp [State.register] at h

/-- The indices that name a register (R42). -/
theorem register_eq_some (s : State) (a : Nat) (v : Word32) (h : s.register a = some v) :
    a ≤ 8 ∨ (16 ≤ a ∧ a ≤ 27) := by
  by_contra hn
  unfold State.register at h
  split at h
  all_goals first | (cases h; done) | (exfalso; exact hn (by decide))

/-- Every next state of a command is one of the four outcomes. -/
theorem exec_command_outcome (i : Instr) (s t : State) (hc : i.isCommand = true) (h : exec i s = .next t) :
    CommandOutcome i s t := by
  cases i
  case tick => cases hc
  case reset => cases hc
  all_goals simp only [exec] at h
  case nop =>
    unfold execNop at h
    rw [done_next] at h
    subst h
    exact .ok (.of_same _ (by simp) rfl rfl rfl (by simp [indexOutOfRange]) (by simp [accessesHeld]))
  case smul =>
    unfold execSmul at h
    rw [done_next] at h
    subst h
    exact .ok (.of_same _ (by simp) rfl rfl rfl (by simp [indexOutOfRange]) (by simp [accessesHeld]))
  case sqr =>
    unfold execSqr at h
    rw [done_next] at h
    subst h
    exact .ok (.of_same _ (by simp) rfl rfl rfl (by simp [indexOutOfRange]) (by simp [accessesHeld]))
  case magsq =>
    unfold execMagsq at h
    rw [done_next] at h
    subst h
    exact .ok (.of_same _ (by simp) rfl rfl rfl (by simp [indexOutOfRange]) (by simp [accessesHeld]))
  case setref =>
    unfold execSetref at h
    rw [done_next] at h
    subst h
    exact .ok (.of_same _ (by simp) rfl rfl rfl (by simp [indexOutOfRange]) (by simp [accessesHeld]))
  case qe =>
    unfold execQe at h
    rw [done_next] at h
    subst h
    exact .ok (.of_same _ (by simp) rfl rfl rfl (by simp [indexOutOfRange]) (by simp [accessesHeld]))
  case ckinit =>
    unfold execCkinit at h
    rw [done_next] at h
    subst h
    exact .ok (.of_same _ (by simp) rfl rfl rfl (by simp [indexOutOfRange]) (by simp [accessesHeld]))
  case ckbyte =>
    unfold execCkbyte at h
    rw [done_next] at h
    subst h
    exact .ok (.of_same _ (by simp) rfl rfl rfl (by simp [indexOutOfRange]) (by simp [accessesHeld]))
  case ckfin =>
    unfold execCkfin at h
    rw [done_next] at h
    subst h
    exact .ok (.of_same _ (by simp) rfl rfl rfl (by simp [indexOutOfRange]) (by simp [accessesHeld]))
  case ckcmp =>
    unfold execCkcmp at h
    rw [done_next] at h
    subst h
    exact .ok (.of_same _ (by simp) rfl rfl rfl (by simp [indexOutOfRange]) (by simp [accessesHeld]))
  case validate =>
    unfold execValidate at h
    rw [done_next] at h
    subst h
    exact .ok (.of_same _ (by simp) rfl rfl rfl (by simp [indexOutOfRange]) (by simp [accessesHeld]))
  case release =>
    unfold execRelease at h
    rw [done_next] at h
    subst h
    exact .ok (.of_kept _ (by simp) rfl (.inr rfl) (by simp [indexOutOfRange]) (by simp [accessesHeld]) fun a h => absurd rfl h)
  case take =>
    unfold execTake at h
    by_cases hr : s.rdy = true
    · rw [if_pos hr, done_next] at h
      subst h
      exact .ok ⟨⟨_, rfl⟩, rfl, rfl, rfl, rfl, rfl, rfl, rfl, .inl ⟨rfl, hr, rfl, rfl, rfl⟩, by simp [indexOutOfRange],
        by simp [accessesHeld], fun a h => absurd rfl h⟩
    · rw [if_neg hr, done_next] at h
      subst h
      exact .idle rfl (Bool.eq_false_iff.2 hr) rfl
  case emit =>
    unfold execEmit at h
    split at h <;> rw [done_next] at h <;> subst h <;>
      exact .ok (.of_same _ (by simp) rfl rfl rfl (by simp [indexOutOfRange]) (by simp [accessesHeld]))
  case rdsr a =>
    unfold execRdsr at h
    split at h
    next v hv =>
      rw [done_next] at h
      subst h
      exact .ok (.of_same _ (by simp) rfl rfl rfl (fun h => h (register_eq_some _ _ _ hv)) (by simp [accessesHeld]))
    next hv =>
      rw [faulted_next] at h
      exact .range (register_eq_none _ _ hv) (by simp [accessesHeld]) h
  case rdsym =>
    unfold execRdsym at h
    rw [inRange_next] at h
    obtain ⟨hk, h⟩ | ⟨hk, h⟩ := h
    · exact .range hk (by simp [accessesHeld]) h
    rw [done_next] at h
    subst h
    exact .ok (.of_same _ (by simp) rfl rfl rfl (Nat.not_le.2 hk) (by simp [accessesHeld]))
  case wrsym =>
    unfold execWrsym at h
    rw [inRange_next] at h
    obtain ⟨hk, h⟩ | ⟨hk, h⟩ := h
    · exact .range hk (by simp [accessesHeld]) h
    rw [done_next] at h
    subst h
    exact .ok (.of_same _ (by simp) rfl rfl rfl (Nat.not_le.2 hk) (by simp [accessesHeld]))
  case lds =>
    unfold execLds at h
    rw [onHeld_next] at h
    obtain ⟨hh, h⟩ | ⟨hh, h⟩ := h
    · exact .noheld rfl hh h
    rw [inRange_next] at h
    obtain ⟨hk, h⟩ | ⟨hk, h⟩ := h
    · exact .range hk (by simp [hh]) h
    rw [withValue_next] at h
    obtain ⟨w0, hw0, h⟩ := h
    rw [done_next] at h
    subst h
    exact .ok (.of_same _ (by simp) rfl rfl rfl (Nat.not_le.2 hk) (by simp [hh]))
  case sts =>
    unfold execSts at h
    rw [onHeld_next] at h
    obtain ⟨hh, h⟩ | ⟨hh, h⟩ := h
    · exact .noheld rfl hh h
    rw [inRange_next] at h
    obtain ⟨hk, h⟩ | ⟨hk, h⟩ := h
    · exact .range hk (by simp [hh]) h
    rw [done_next] at h
    subst h
    exact .ok (.of_kept _ (by simp) rfl (.inl rfl) (Nat.not_le.2 hk) (by simp [hh]) fun a h =>
      ⟨hh, inRegion_of_store_ne _ _ _ _ _ hk h⟩)
  case xform =>
    unfold execXform at h
    rw [onHeld_next] at h
    obtain ⟨hh, h⟩ | ⟨hh, h⟩ := h
    · exact .noheld rfl hh h
    rw [withValue_next] at h
    obtain ⟨w0, hw0, h⟩ := h
    have hl := ((State.loadRegion_eq_some _ _ _).1 hw0).1
    rw [done_next] at h
    subst h
    exact .ok (.of_kept _ (by simp) rfl (.inl rfl) (by simp [indexOutOfRange]) (by simp [hh]) fun a h =>
      ⟨hh, inRegion_of_storeRegion_ne _ _ _ _ (by simp [xform, hl]) h⟩)
  case thresh =>
    unfold execThresh at h
    rw [onHeld_next] at h
    obtain ⟨hh, h⟩ | ⟨hh, h⟩ := h
    · exact .noheld rfl hh h
    rw [withValue_next] at h
    obtain ⟨w0, hw0, h⟩ := h
    rw [done_next] at h
    subst h
    exact .ok (.of_same _ (by simp) rfl rfl rfl (by simp [indexOutOfRange]) (by simp [hh]))
  case qbin =>
    unfold execQbin at h
    rw [onHeld_next] at h
    obtain ⟨hh, h⟩ | ⟨hh, h⟩ := h
    · exact .noheld rfl hh h
    rw [inRange_next] at h
    obtain ⟨hk, h⟩ | ⟨hk, h⟩ := h
    · exact .range hk (by simp [hh]) h
    rw [withValue_next] at h
    obtain ⟨w0, hw0, h⟩ := h
    rw [done_next] at h
    subst h
    exact .ok (.of_same _ (by simp) rfl rfl rfl (Nat.not_le.2 hk) (by simp [hh]))
  case qsym =>
    unfold execQsym at h
    rw [onHeld_next] at h
    obtain ⟨hh, h⟩ | ⟨hh, h⟩ := h
    · exact .noheld rfl hh h
    rw [inRange_next] at h
    obtain ⟨hk, h⟩ | ⟨hk, h⟩ := h
    · exact .range hk (by simp [hh]) h
    rw [withValue_next] at h
    obtain ⟨w0, hw0, h⟩ := h
    rw [done_next] at h
    subst h
    exact .ok (.of_same _ (by simp) rfl rfl rfl (Nat.not_le.2 hk) (by simp [hh]))
  case decodeFrame =>
    unfold execDecodeFrame at h
    rw [onHeld_next] at h
    obtain ⟨hh, h⟩ | ⟨hh, h⟩ := h
    · exact .noheld rfl hh h
    rw [withValue_next] at h
    obtain ⟨w0, hw0, h⟩ := h
    rw [withValue_next] at h
    obtain ⟨w1, hw1, h⟩ := h
    rw [done_next] at h
    subst h
    exact .ok (.of_same _ (by simp) rfl rfl rfl (by simp [indexOutOfRange]) (by simp [hh]))

/-- A FAULT bit after one was set. -/
theorem getLsbD_or_code (f : FaultBit) (v : BitVec 4) (i : Nat) :
    (v ||| f.code).getLsbD i = (v.getLsbD i || decide (i = f.index)) := by
  rw [BitVec.getLsbD_or]; congr 1
  by_cases h : i < 4
  · cases f <;> interval_cases i <;> decide
  · rw [show f.code.getLsbD i = false from BitVec.getLsbD_of_ge f.code i (by omega)]
    have hlt : f.index < 4 := by cases f <;> decide
    symm; rw [decide_eq_false_iff_not]; omega

/-- The FAULT bits after a fault. -/
theorem hasFault_raise (s : State) (f g : FaultBit) : (s.raise f).hasFault g = (s.hasFault g || decide (g = f)) := by
  simp only [State.hasFault, State.raise, State.reply, State.setFault, getLsbD_or_code]
  congr 1; cases f <;> cases g <;> decide

/-- A tick keeps the consumer's registers and the configuration. -/
theorem tickState_frame (raw : Reading) (s : State) :
    (tickState raw s).held = s.held ∧ (tickState raw s).heldSel = s.heldSel ∧ (tickState raw s).eref = s.eref ∧
    (tickState raw s).lim1 = s.lim1 ∧ (tickState raw s).lim2 = s.lim2 ∧ (tickState raw s).lim3 = s.lim3 ∧
    (tickState raw s).ckacc = s.ckacc ∧ (tickState raw s).sym = s.sym ∧ (tickState raw s).matched = s.matched ∧
    (tickState raw s).out = s.out ∧ (tickState raw s).cfg = s.cfg := by
  unfold tickState tickSilence tickBurstStart tickGuard tickCapturing startCapture bufferFull storeSample
  repeat' split
  all_goals exact ⟨rfl, rfl, rfl, rfl, rfl, rfl, rfl, rfl, rfl, rfl, rfl⟩

/-- A tick changes bytes of the active region alone, in CAPTURING alone. -/
theorem tickState_mem (raw : Reading) (s : State) (a : Nat)
    (h : (tickState raw s).mem.readByte a ≠ s.mem.readByte a) :
    s.st = .capturing ∧ inRegion s.cfg.toConfig s.act a := by
  unfold tickState tickSilence tickBurstStart tickGuard tickCapturing startCapture bufferFull at h
  repeat' split at h
  all_goals first
    | exact absurd rfl h
    | skip
  refine ⟨‹_›, inRegion_of_store_ne s s.act s.cur.toNat (scale s.cfg.toConfig raw) a ‹_› h⟩

/-- A tick changes RDY and RDYSEL at the buffer-full tick alone. -/
theorem tickState_rdy (raw : Reading) (s : State) :
    ((tickState raw s).rdy = s.rdy ∧ (tickState raw s).rdySel = s.rdySel ∧ ¬ s.atBufferFull) ∨
    ((tickState raw s).rdy = true ∧ (tickState raw s).rdySel = s.act ∧ s.atBufferFull) := by
  unfold tickState tickSilence tickBurstStart tickGuard tickCapturing startCapture bufferFull storeSample State.atBufferFull
  repeat' split
  all_goals simp_all [State.setFault, State.store]

theorem hasFault_congr (s t : State) (h : t.fault = s.fault) (f : FaultBit) :
    t.hasFault f = s.hasFault f := by simp only [State.hasFault, h]

/-- The FAULT bits after a tick. -/
theorem tickState_hasFault (raw : Reading) (s : State) (f : FaultBit) :
    (tickState raw s).hasFault f = (s.hasFault f || (decide (f = .ovr) &&
      decide (s.st = .guarding ∧ s.cnt.toNat = 1 ∧ s.held = true ∧ s.heldSel ≠ s.act))) := by
  unfold tickState
  split
  · rename_i hst
    have : (tickSilence raw s).fault = s.fault := by unfold tickSilence; split <;> rfl
    rw [hasFault_congr _ _ this]; simp [hst]
  · rename_i hst
    have : (tickBurstStart raw s).fault = s.fault := by unfold tickBurstStart; split <;> rfl
    rw [hasFault_congr _ _ this]; simp [hst]
  · rename_i hst
    unfold tickGuard
    by_cases h0 : s.cnt - 1 = 0
    · have h1 := (cnt_sub_one_eq_zero _).1 h0
      rw [if_pos h0]
      unfold startCapture
      dsimp only
      by_cases hc : s.held = true ∧ s.heldSel = s.act.other
      · rw [if_pos (by simp [hc])]
        have : decide (s.st = .guarding ∧ s.cnt.toNat = 1 ∧ s.held = true ∧ s.heldSel ≠ s.act) = true := by
          simp [hst, h1, hc, Region.other_ne]
        rw [this]
        have := hasFault_raise s .ovr f
        simp only [State.hasFault, State.setFault] at this ⊢
        rw [Bool.and_true]; exact this
      · rw [if_neg (by simpa using hc)]
        have : decide (s.st = .guarding ∧ s.cnt.toNat = 1 ∧ s.held = true ∧ s.heldSel ≠ s.act) = false := by
          simp only [decide_eq_false_iff_not]; rintro ⟨-, -, h3, h4⟩; exact hc ⟨h3, (Region.ne_iff_eq_other _ _).1 h4⟩
        rw [this]
        simp [State.hasFault]
    · have h1 := mt (cnt_sub_one_eq_zero _).2 h0
      rw [if_neg h0]
      simp [State.hasFault, h1]
  · rename_i hst
    have : (tickCapturing raw s).fault = s.fault := by unfold tickCapturing storeSample bufferFull; split <;> rfl
    rw [hasFault_congr _ _ this]; simp [hst]

/-- Every next state of an operation: of a command, of a tick, of a reset. -/
theorem exec_outcome (i : Instr) (s t : State) (h : exec i s = .next t) :
    (i.isCommand = true ∧ CommandOutcome i s t) ∨
    (∃ raw, i = .tick raw ∧ t = (tickState raw s).noReply) ∨
    (i = .reset ∧ t = { State.resetWith s.cfg with inbox := s.inbox }) := by
  cases hi : i.isCommand
  · cases i <;> simp [Instr.isCommand] at hi
    · right; left; simp only [exec, execTick, Host.Outcome.next.injEq] at h; exact ⟨_, rfl, h.symm⟩
    · right; right; simp only [exec, execReset, Host.Outcome.next.injEq] at h; exact ⟨rfl, h.symm⟩
  · exact .inl ⟨rfl, exec_command_outcome i s t hi h⟩

end Sys2Proof.Machine
end

