-- ==== Sys2Proof/Laws/PerInstr.lean ====
section
/-! SUPPORT. The per-instruction family `EncodeDecode`: decoding the encoding of an instruction gives the instruction
back, one lemma per constructor, over the field laws of a command word. -/

namespace Sys2Proof

theorem opField_commandWord (op : Byte) (a b : Word16) : opField (commandWord op a b) = op := by
  apply BitVec.eq_of_getLsbD_eq
  intro i hi
  simp only [opField, commandWord, BitVec.getLsbD_extractLsb', BitVec.getLsbD_append]
  have h1 : ¬ 32 + i < 16 := by omega
  have h2 : ¬ 32 + i - 16 < 16 := by omega
  simp only [hi, h1, h2, if_false, decide_true, Bool.true_and]
  congr 1
  omega

theorem aField_commandWord (op : Byte) (a b : Word16) : aField (commandWord op a b) = a := by
  apply BitVec.eq_of_getLsbD_eq
  intro i hi
  simp only [aField, commandWord, BitVec.getLsbD_extractLsb', BitVec.getLsbD_append]
  have h1 : ¬ 16 + i < 16 := by omega
  have h2 : 16 + i - 16 < 16 := by omega
  simp only [hi, h1, h2, if_false, if_true, decide_true, Bool.true_and]
  congr 1
  omega

theorem bField_commandWord (op : Byte) (a b : Word16) : bField (commandWord op a b) = b := by
  apply BitVec.eq_of_getLsbD_eq
  intro i hi
  simp only [bField, commandWord, BitVec.getLsbD_extractLsb', BitVec.getLsbD_append, Nat.zero_add, hi, if_true,
    decide_true, Bool.true_and]

theorem b8Field_commandWord (op : Byte) (a : Word16) (d : Byte) :
    b8Field (commandWord op a (b8Operand d)) = d := by
  apply BitVec.eq_of_getLsbD_eq
  intro i hi
  have h1 : i < 16 := by omega
  simp only [b8Field, b8Operand, commandWord, BitVec.getLsbD_extractLsb', BitVec.getLsbD_append, Nat.zero_add, hi, h1,
    if_true, decide_true, Bool.true_and, BitVec.getLsbD_setWidth]

theorem opField_e32Word (op : Byte) (e : Word32) : opField (e32Word op e) = op := opField_commandWord _ _ _

theorem e32Field_e32Word (op : Byte) (e : Word32) : e32Field (e32Word op e) = e := by
  apply BitVec.eq_of_getLsbD_eq
  intro i hi
  simp only [e32Field, e32Word, commandWord, BitVec.getLsbD_extractLsb', BitVec.getLsbD_append]
  by_cases h : i < 16
  · simp [hi, h]
  · have h2 : i - 16 < 16 := by omega
    have h3 : 16 + (i - 16) = i := by omega
    simp [hi, h, h2, h3]

namespace Laws.EncodeDecode

/-- Decoding the encoding of `i` gives `i` back (spec/30_encoding.md R70 to R75). -/
def Statement (i : Instr) : Prop := Sys2Proof.decode (encode i) = .ok i

theorem nop : Statement .nop := by
  simp [Statement, encode, Sys2Proof.decode, decodeCommand, opField_commandWord]
theorem smul (x y : Word16) : Statement (.smul x y) := by
  simp [Statement, encode, Sys2Proof.decode, decodeCommand, opField_commandWord, aField_commandWord, bField_commandWord]
theorem sqr (x : Word16) : Statement (.sqr x) := by
  simp [Statement, encode, Sys2Proof.decode, decodeCommand, opField_commandWord, aField_commandWord]
theorem magsq (re im : Word16) : Statement (.magsq re im) := by
  simp [Statement, encode, Sys2Proof.decode, decodeCommand, opField_commandWord, aField_commandWord, bField_commandWord]
theorem take : Statement .take := by
  simp [Statement, encode, Sys2Proof.decode, decodeCommand, opField_commandWord]
theorem release : Statement .release := by
  simp [Statement, encode, Sys2Proof.decode, decodeCommand, opField_commandWord]
theorem lds (i : Word16) : Statement (.lds i) := by
  simp [Statement, encode, Sys2Proof.decode, decodeCommand, opField_commandWord, aField_commandWord]
theorem sts (i v : Word16) : Statement (.sts i v) := by
  simp [Statement, encode, Sys2Proof.decode, decodeCommand, opField_commandWord, aField_commandWord, bField_commandWord]
theorem xform : Statement .xform := by
  simp [Statement, encode, Sys2Proof.decode, decodeCommand, opField_commandWord]
theorem thresh : Statement .thresh := by
  simp [Statement, encode, Sys2Proof.decode, decodeCommand, opField_commandWord]
theorem setref (e : Word32) : Statement (.setref e) := by
  simp [Statement, encode, Sys2Proof.decode, decodeCommand, opField_e32Word, e32Field_e32Word]
theorem qe (e : Word32) : Statement (.qe e) := by
  simp [Statement, encode, Sys2Proof.decode, decodeCommand, opField_e32Word, e32Field_e32Word]
theorem qbin (b : Word16) : Statement (.qbin b) := by
  simp [Statement, encode, Sys2Proof.decode, decodeCommand, opField_commandWord, aField_commandWord]
theorem qsym (i : Word16) : Statement (.qsym i) := by
  simp [Statement, encode, Sys2Proof.decode, decodeCommand, opField_commandWord, aField_commandWord]
theorem decodeFrame : Statement .decodeFrame := by
  simp [Statement, encode, Sys2Proof.decode, decodeCommand, opField_commandWord]
theorem ckinit (d : Byte) : Statement (.ckinit d) := by
  simp [Statement, encode, Sys2Proof.decode, decodeCommand, opField_commandWord, b8Field_commandWord]
theorem ckbyte (d : Byte) : Statement (.ckbyte d) := by
  simp [Statement, encode, Sys2Proof.decode, decodeCommand, opField_commandWord, b8Field_commandWord]
theorem ckfin : Statement .ckfin := by
  simp [Statement, encode, Sys2Proof.decode, decodeCommand, opField_commandWord]
theorem ckcmp (d : Byte) : Statement (.ckcmp d) := by
  simp [Statement, encode, Sys2Proof.decode, decodeCommand, opField_commandWord, b8Field_commandWord]
theorem validate : Statement .validate := by
  simp [Statement, encode, Sys2Proof.decode, decodeCommand, opField_commandWord]
theorem emit : Statement .emit := by
  simp [Statement, encode, Sys2Proof.decode, decodeCommand, opField_commandWord]
theorem rdsr (a : Word16) : Statement (.rdsr a) := by
  simp [Statement, encode, Sys2Proof.decode, decodeCommand, opField_commandWord, aField_commandWord]
theorem rdsym (i : Word16) : Statement (.rdsym i) := by
  simp [Statement, encode, Sys2Proof.decode, decodeCommand, opField_commandWord, aField_commandWord]
theorem wrsym (i : Word16) (v : Byte) : Statement (.wrsym i v) := by
  simp [Statement, encode, Sys2Proof.decode, decodeCommand, opField_commandWord, aField_commandWord, b8Field_commandWord]
theorem tick (raw : Reading) : Statement (.tick raw) := rfl
theorem reset : Statement .reset := rfl

end Laws.EncodeDecode
end Sys2Proof
end

