-- ==== Sys2Proof/Laws/Run.lean ====
section
/-! SUPPORT. What one turn of a run does, said once for each kind of turn, and how turns compose. -/

namespace Sys2Proof.Machine

@[simp] theorem State.answeredOk_reply (s : State) (ok : Bool) (res : Word32) : (s.reply ok res).answeredOk = ok := rfl
@[simp] theorem State.answeredOk_noReply (s : State) : s.noReply.answeredOk = false := rfl
@[simp] theorem Run.start_state (p : List Line) (s : State) : (Run.start p s).state = s := rfl
@[simp] theorem Run.start_todo (p : List Line) (s : State) : (Run.start p s).todo = p := rfl
@[simp] theorem Run.start_faulted (p : List Line) (s : State) : (Run.start p s).faulted = s.hasFault .ovr := rfl
@[simp] theorem Run.faultedAfter_reset (r : Run) (t : State) : r.faultedAfter .reset t = false := rfl
@[simp] theorem Run.faultedAfter_tick (r : Run) (raw : Reading) (t : State) :
    r.faultedAfter (.tick raw) t = (r.faulted || t.hasFault .ovr) := rfl
@[simp] theorem Run.faultedAfter_command (r : Run) (w : CommandWord) (t : State) :
    r.faultedAfter (.command w) t = (r.faulted || t.hasFault .ovr) := rfl

/-- An event of a run goes on where the block does. -/
theorem Run.perform_next (r u : Run) (e : Event) (todo : State → List Line) :
    r.perform e todo = .next u ↔
      ∃ t, Machine.perform e r.state = .next t ∧ u = ⟨t, todo t, r.faultedAfter e t⟩ := by
  unfold Run.perform
  cases Machine.perform e r.state <;> simp [eq_comm]

/-- A faulted run is one whose mark is set (R206). -/
theorem Run.verdict_faulted (r : Run) : r.verdict = .faulted ↔ r.faulted = true := by
  unfold Run.verdict
  cases r.faulted <;> cases r.todo.isEmpty <;> simp

/-- A final run is one that is done and not faulted (R206). -/
theorem Run.verdict_final (r : Run) : r.verdict = .final ↔ r.todo = [] ∧ r.faulted = false := by
  unfold Run.verdict
  cases r.faulted <;> cases r.todo <;> simp

/-- A tick of the environment. -/
theorem Run.turn_tick (r : Run) (raw : Reading) :
    r.turn (.tick raw) = .next ⟨(tickState raw r.state).noReply, r.todo,
      r.faulted || (tickState raw r.state).noReply.hasFault .ovr⟩ := rfl

/-- A reset by the environment. -/
theorem Run.turn_reset (r : Run) :
    r.turn .reset = .next ⟨{ State.resetWith r.state.cfg with inbox := r.state.inbox }, r.todo, false⟩ := rfl

/-- The consumer at a line that is an event. -/
theorem Run.turn_event (s : State) (e : Event) (rest : List Line) (b : Bool) :
    (⟨s, .event e :: rest, b⟩ : Run).turn .line = (⟨s, .event e :: rest, b⟩ : Run).perform e fun _ => rest := rfl

/-- The consumer at a WAITRDY with a region ready. -/
theorem Run.turn_waitrdy_ready (s : State) (rest : List Line) (b : Bool) (h : s.rdy = true) :
    ∃ t, execTake s = .next t ∧
      (⟨s, .waitrdy :: rest, b⟩ : Run).turn .line = .next ⟨t, rest, b || s.hasFault .ovr⟩ := by
  refine ⟨_, if_pos h, ?_⟩
  exact (Run.perform_next _ _ _ _).2 ⟨_, if_pos h, rfl⟩

/-- The consumer at a WAITRDY with none ready. -/
theorem Run.turn_waitrdy_idle (s : State) (rest : List Line) (b : Bool) (h : s.rdy = false) :
    (⟨s, .waitrdy :: rest, b⟩ : Run).turn .line =
      .next ⟨s.reply false 0, .waitrdy :: rest, b || s.hasFault .ovr⟩ :=
  (Run.perform_next _ _ _ _).2 ⟨_, if_neg (Bool.eq_false_iff.1 h), rfl⟩

/-- Turns one after another. -/
theorem Run.turns_append (τs σs : List Turn) (r u : Run) (h : Run.turns τs r = .next u) :
    Run.turns (τs ++ σs) r = Run.turns σs u := by
  induction τs generalizing r with
  | nil => cases h; rfl
  | cons τ τs ih =>
    simp only [Run.turns, List.cons_append] at h ⊢
    split at h
    next v hv => exact ih v h
    all_goals cases h

end Sys2Proof.Machine
end

