-- ==== Sys2Proof/Tests/Slice0.lean ====
section
/-! SUPPORT. Tests: ill-formed configurations refused, words written out from the encoding decoded, one-step behaviour
against the vectors of spec/95_test_vectors.md, and for each obligation with hypotheses a witness that meets them. -/

namespace Sys2Proof.Tests

open Sys2Proof.Machine

/-! ### The configuration check (R6): an ill-formed configuration for each clause -/

theorem test_cfg32_cfg64_well_formed : Config.cfg32.wf = true ∧ Config.cfg64.wf = true := by decide
theorem test_refuses_log2L_3 : ({ Config.cfg32 with log2L := 3 } : Config).lengthOk = false := by decide
theorem test_refuses_log2L_11 : ({ Config.cfg64 with log2L := 11 } : Config).wf = false := by decide
theorem test_refuses_equal_thresholds : ({ Config.cfg32 with tLow := 64 } : Config).thresholdsOk = false := by decide
theorem test_refuses_tLow_0 : ({ Config.cfg32 with tLow := 0 } : Config).wf = false := by decide
theorem test_refuses_tHigh_513 : ({ Config.cfg32 with tHigh := 513 } : Config).wf = false := by decide
theorem test_refuses_nSilence_0 : ({ Config.cfg32 with nSilence := 0 } : Config).countsOk = false := by decide
theorem test_refuses_nGuard_65536 : ({ Config.cfg32 with nGuard := 65536 } : Config).wf = false := by decide
theorem test_refuses_nsym_1 : ({ Config.cfg32 with nsym := 1 } : Config).nsymOk = false := by decide
theorem test_refuses_nsym_3_for_L_32 : ({ Config.cfg32 with nsym := 3 } : Config).binsOk = false := by decide
theorem test_refuses_nsym_7_for_L_64 : ({ Config.cfg64 with nsym := 7 } : Config).wf = false := by decide
theorem test_admits_nsym_6_for_L_64 : ({ Config.cfg64 with nsym := 6 } : Config).wf = true := by decide

/-- An ill-formed configuration has no state (R6). -/
theorem test_check_refuses : ({ Config.cfg32 with nsym := 1 } : Config).check = none := by decide

/-- LOG2L = 4 meets clause (a) but no NSYM meets (e) and (f) with it (log 15). -/
theorem test_log2L_4_has_no_frame : ({ Config.cfg32 with log2L := 4, nsym := 2 } : Config).binsOk = false := by decide

/-! ### Decoding: words of R70 and R75, written out -/

theorem test_decode_system :
    decode (.command 0x0000000000) = .ok .nop ∧ decode (.command 0x00FFFFFFFF) = .ok .nop ∧
    decode (.command 0x5000090000) = .ok (.rdsr 9) ∧ decode (.command 0x510001FFFF) = .ok (.rdsym 1) ∧
    decode (.command 0x52000100CC) = .ok (.wrsym 1 0xCC) ∧ decode (.command 0x520001ABCC) = .ok (.wrsym 1 0xCC) := by
  decide

theorem test_decode_arith :
    decode (.command 0x10FF9C4000) = .ok (.smul (-100) 16384) ∧ decode (.command 0x110005FFFF) = .ok (.sqr 5) ∧
    decode (.command 0x12FFFD0004) = .ok (.magsq (-3) 4) := by decide

theorem test_decode_acquire :
    decode (.command 0x2000000000) = .ok .take ∧ decode (.command 0x2112345678) = .ok .release ∧
    decode (.command 0x22001F0000) = .ok (.lds 31) ∧ decode (.command 0x230009000A) = .ok (.sts 9 10) ∧
    decode (.command 0x2400000000) = .ok .xform := by decide

theorem test_decode_quantizer :
    decode (.command 0x3000000000) = .ok .thresh ∧ decode (.command 0x310A3D70A4) = .ok (.setref 171798692) ∧
    decode (.command 0x32000003B6) = .ok (.qe 950) ∧ decode (.command 0x33000F0000) = .ok (.qbin 15) ∧
    decode (.command 0x3400010000) = .ok (.qsym 1) ∧ decode (.command 0x3500000000) = .ok .decodeFrame := by decide

theorem test_decode_checksum :
    decode (.command 0x400000001B) = .ok (.ckinit 0x1B) ∧ decode (.command 0x4100000034) = .ok (.ckbyte 0x34) ∧
    decode (.command 0x4200000000) = .ok .ckfin ∧ decode (.command 0x43000001CC) = .ok (.ckcmp 0xCC) ∧
    decode (.command 0x4400000000) = .ok .validate ∧ decode (.command 0x4500000000) = .ok .emit := by decide

theorem test_decode_events :
    decode (.tick 0x240) = .ok (.tick 576) ∧ decode (.tick 0x3FF) = .ok (.tick 1023) ∧
    decode .reset = .ok .reset := by decide

/-- R79: `SMUL -100, 16384` assembles to 0x10FF9C4000, `QE 950` to 0x32000003B6. -/
theorem test_encode : encode (.smul (-100) 16384) = .command 0x10FF9C4000 ∧
    encode (.qe 950) = .command 0x32000003B6 ∧ encode (.wrsym 1 0xCD) = .command 0x52000100CD := by decide

/-- R76: the ends of the reserved ranges. -/
theorem test_reserved_ops : ∀ op ∈ [0x01, 0x0F, 0x13, 0x1F, 0x25, 0x2F, 0x36, 0x3F, 0x46, 0x4F, 0x53, 0xFF],
    decode (.command (commandWord (BitVec.ofNat 8 op) 0 0)) = .error (.reservedOpcode (BitVec.ofNat 8 op)) := by decide

/-- The rows of the opcode table: a command word of 40 bits, a tick of 10 bits, a reset of none. -/
theorem test_table_words :
    decodeTableWord 40 0x2200280000 = some (.lds 40) ∧ decodeTableWord 40 0x0100001234 = none ∧
    decodeTableWord 16 0x240 = some (.tick 576) ∧ decodeTableWord 0 0 = some .reset := by decide

/-! ### States the tests use -/

/-- The L words of a region under CFG32: the spectrum S of P4. -/
def spectrum : List Word16 :=
  [0, 0, 60, 0, 0, 0, 7, 1, 20, 10, 40, 20, 60, 20, 0, 0] ++ [60, 20, 0, 0, 60, 20, 0, 0, 0, 0, 0, 0, 0, 0, 0, 0]

/-- P4 after the STS commands: region B held, S in it. -/
def heldB : State :=
  { State.reset with
    cnt := 3, cur := 32, act := .B, rdySel := .B, held := true, heldSel := .B,
    mem := Memory.writeWords [] (wordAddr Config.cfg32 .B 0) spectrum }

/-- The same with the limits of E_r = 3600. -/
def heldLimits : State := { heldB with eref := 3600, lim1 := 100, lim2 := 900, lim3 := 2500 }

/-- The same with a capture of region A beginning. -/
def heldCapturing : State := { heldB with st := .capturing, cnt := 0, cur := 0, act := .A }

/-- The same region, ready and not yet taken. -/
def readyB : State := { heldB with rdy := true, held := false, heldSel := .A }

/-- P2 after the two WRSYM commands, with a match. -/
def frame2 : State := { State.reset with sym := [0x1B, 0xCC], matched := true }

/-- The variant of P2 under CFG64. -/
def frame4 : State := { State.resetWith WfConfig.cfg64 with sym := [0x12, 0x34, 0x56, 0xBC], matched := true }

/-- The answer of an operation. -/
def answer (i : Instr) (s : State) : Option Response :=
  match exec i s with
  | .next t => t.response
  | .fault _ => none
  | .refused _ => none

/-- FAULT after an operation. -/
def faultAfter (i : Instr) (s : State) : Option (BitVec 4) :=
  match exec i s with
  | .next t => some t.fault
  | .fault _ => none
  | .refused _ => none

/-- A view of the state after an operation. -/
def after {α : Type} (i : Instr) (s : State) (view : State → α) : Option α :=
  match exec i s with
  | .next t => some (view t)
  | .fault _ => none
  | .refused _ => none

theorem test_reset_memory_canonical : Memory.wf State.reset.mem = true := by decide
theorem test_heldB_memory_canonical : Memory.wf heldB.mem = true := by decide

/-! ### Arithmetic: T1 to T47 -/

theorem test_smulRef_T13_T7_T18 : smulRef 0xCFC7 0xD431 = -10233 ∧ smulRef 0x8000 0xFFFF = -32768 ∧
    smulRef 0xFFFD 0x5556 = -2 := by decide
theorem test_smul_law_is_clamped_T7 : smulWith .under 0x8000 0xFFFF = -32768 ∧ smulWith .over 0x7FFF 0xFFFF = 32767 := by
  decide
theorem test_sqr_V1 : answer (.sqr 0x8000) State.reset = some ⟨true, 0x40000000⟩ ∧
    answer (.sqr 0x7FFF) State.reset = some ⟨true, 0x3FFF0001⟩ := by decide
theorem test_magsq_T42_T45 : answer (.magsq 0x8000 0x8000) State.reset = some ⟨true, 0x80000000⟩ ∧
    answer (.magsq 0xFFFD 4) State.reset = some ⟨true, 25⟩ := by decide

/-! ### Acquisition: V7, T91, T92, P4, P5 -/

theorem test_tick_silence_T91 : after (.tick 505) State.reset (fun t => (t.st, t.cnt)) = some (.searchingSilence, 3) ∧
    after (.tick 520) { State.reset with cnt := 1 } (fun t => (t.st, t.cnt)) = some (.searchingSilence, 4) ∧
    after (.tick 519) { State.reset with cnt := 1 } (fun t => (t.st, t.cnt)) = some (.searchingBurstStart, 0) := by decide
theorem test_tick_capturing_P4 :
    after (.tick 412) { State.reset with st := .capturing, act := .B } (fun t => (t.cur, t.load .B 0))
      = some (1, some (-200)) ∧
    after (.tick 700) { readyB with st := .capturing, rdy := false } (fun t => t.status) = some 0x11C := by decide
theorem test_tick_burst_T92 :
    after (.tick 575) { State.reset with st := .searchingBurstStart, cnt := 0 } (fun t => t.st)
      = some .searchingBurstStart ∧
    after (.tick 448) { State.reset with st := .searchingBurstStart, cnt := 0 } (fun t => (t.st, t.cnt))
      = some (.guarding, 2) := by decide
theorem test_tick_guard_P5 :
    after (.tick 512) { heldB with st := .guarding, cnt := 1, act := .A } (fun t => (t.act, t.fault)) = some (.B, 0x8) ∧
    after (.tick 512) { heldB with st := .guarding, cnt := 1, act := .B } (fun t => (t.act, t.fault)) = some (.A, 0) := by
  decide
theorem test_take : answer .take readyB = some ⟨true, 1⟩ ∧ answer .take State.reset = some ⟨false, 0⟩ ∧
    faultAfter .take State.reset = some 0 := by decide
theorem test_release : after .release heldB (fun t => (t.held, t.heldSel)) = some (false, .B) := by decide
theorem test_lds : answer (.lds 2) heldB = some ⟨true, 60⟩ ∧
    answer (.lds 2) { heldB with mem := Memory.writeWord [] (wordAddr Config.cfg32 .B 2) 0xFF38 } = some ⟨true, 0xFFFFFF38⟩ := by
  decide
theorem test_lds_faults_T101_T113 : faultAfter (.lds 40) State.reset = some 0x2 ∧
    faultAfter (.lds 32) heldB = some 0x4 := by decide
theorem test_sts : after (.sts 2 0xFFFF) heldB (fun t => (t.load .B 2, t.load .B 3)) = some (some (-1), some 0) ∧
    faultAfter (.sts 32 0) heldB = some 0x4 := by decide
theorem test_xform_T105 : faultAfter .xform State.reset = some 0x2 ∧ answer .xform heldB = some ⟨true, 0⟩ := by
  exact ⟨rfl, rfl⟩

/-- R111: the table of section 2.5, for SHIFT = 1, 0, -1 and -4. -/
theorem test_scale :
    scale Config.cfg32 0 = -1024 ∧ scale Config.cfg32 1023 = 1022 ∧ scale Config.cfg64 511 = -1 ∧
    scale { Config.cfg32 with log2L := 7 } 0 = -256 ∧ scale { Config.cfg32 with log2L := 7 } 511 = -1 ∧
    scale { Config.cfg32 with log2L := 10 } 1 = -32 ∧ scale { Config.cfg32 with log2L := 10 } 1023 = 31 := by decide

/-! ### The quantizer: T48, T50 to T57, P3, P4 -/

theorem test_setref_T48o_T48m :
    after (.setref 171798692) State.reset (fun t => (t.lim1, t.lim2, t.lim3)) = some (4772185, 42949673, 119304647) ∧
    after (.setref 0xFFFFFFFF) State.reset (fun t => (t.lim1, t.lim2, t.lim3))
      = some (119304647, 1073741823, 2982616177) := by decide
theorem test_qe_edges : [0x64, 0x65, 0x384, 0x385, 0x9C4, 0x9C5, 0xFFFFFFFF].map (fun e => answer (.qe e) heldLimits) =
    [0, 1, 1, 2, 2, 3, 3].map (fun v => some ⟨true, v⟩) := by decide
theorem test_qe_source_scenario_V8 : [50, 950, 2600, 4000].map (fun e => answer (.qe e) heldLimits) =
    [0, 2, 3, 3].map (fun v => some ⟨true, v⟩) := by decide
theorem test_thresh_P4 : after .thresh heldB (fun t => (t.response, t.lim1, t.lim2, t.lim3))
    = some (some ⟨true, 3600⟩, 100, 900, 2500) := by decide
theorem test_qbin_P4 : [1, 3, 4, 5, 6].map (fun b => answer (.qbin b) heldLimits) =
    [3, 0, 1, 2, 3].map (fun v => some ⟨true, v⟩) := by decide
theorem test_qbin_T113 : faultAfter (.qbin 16) heldB = some 0x4 ∧ faultAfter (.qbin 15) heldB = some 0 := by decide
theorem test_qsym_P4 : answer (.qsym 0) heldLimits = some ⟨true, 0x1B⟩ ∧
    after (.qsym 1) { heldLimits with matched := true } (fun t => (t.sym, t.matched)) = some ([0, 0xCC], false) := by decide
theorem test_decode_P4 : after .decodeFrame heldB (fun t => (t.response, t.sym, t.lim3))
    = some (some ⟨true, 3600⟩, [0x1B, 0xCC], 2500) := by decide

/-! ### The checksum and the frame: T70 to T86, P2 -/

theorem test_ckinit : after (.ckinit 0x12) State.reset (fun t => (t.ckacc, t.response)) = some (0x1200, some ⟨true, 0x12⟩) := by
  decide
theorem test_ckbyte : after (.ckbyte 0x34) { State.reset with ckacc := 0x1200 } (fun t => (t.ckacc, t.response))
    = some (0xBC00, some ⟨true, 0xBC⟩) := by decide
theorem test_ckfin : after .ckfin { State.reset with ckacc := 0xBC00 } (fun t => (t.ckacc, t.response))
    = some (0xB600, some ⟨true, 0xB6⟩) := by decide
theorem test_ckstep_trace : ckstep 0x48D0 = 0x91A0 ∧ ckstep 0x91A0 = 0xEC40 := by decide
theorem test_ckcmp : after (.ckcmp 0xCC) { State.reset with ckacc := 0xCC00 } (fun t => (t.matched, t.response))
    = some (true, some ⟨true, 1⟩) ∧
    after (.ckcmp 0xCD) { State.reset with ckacc := 0xCC00, matched := true } (fun t => (t.matched, t.response))
    = some (false, some ⟨true, 0⟩) := by decide
theorem test_cksum_T71_T79_T83 : cksum 0x01 [] = 0xCF ∧
    cksum 0x31 [0x32, 0x33, 0x34, 0x35, 0x36, 0x37, 0x38, 0x39] = 0x7E ∧ cksum 0x12 [0x34, 0x56, 0xBC] = 0x00 := by
  decide +kernel
theorem test_cksum_flips_T84 : [0x1A, 0x19, 0x1F, 0x13, 0x0B, 0x3B, 0x5B, 0x9B].map (fun d => cksum d []) =
    [0x03, 0x9D, 0x6E, 0x47, 0x15, 0xB1, 0x36, 0xF7] := by decide
theorem test_validate_P2 : after .validate { frame2 with matched := false } (fun t => (t.ckacc, t.matched, t.response))
    = some (0xCC00, true, some ⟨true, 1⟩) ∧
    after .validate { frame2 with sym := [0x1B, 0xCD] } (fun t => (t.ckacc, t.matched)) = some (0xCC00, false) := by decide
theorem test_validate_cfg64 : after .validate frame4 (fun t => (t.ckacc, t.matched)) = some (0xBC00, true) := by
  decide +kernel
theorem test_emit_cfg64 : after .emit { frame4 with out := [9] } (fun t => (t.out, t.matched, t.response))
    = some ([9, 0x12, 0x34, 0x56], false, some ⟨true, 3⟩) := by decide
theorem test_emit_unmatched : after .emit { frame2 with matched := false } (fun t => (t.out, t.response))
    = some ([], some ⟨true, 0⟩) := by decide

/-! ### System commands, faults and reset: 2.7, 2.8 -/

theorem test_nop : after .nop heldB (fun t => { t with response := none }) = some heldB ∧
    answer .nop heldB = some ⟨true, 0⟩ := ⟨rfl, rfl⟩
theorem test_rdsr_constants : [16, 17, 18, 19, 20, 21, 22, 23, 24, 25, 26, 27].map (fun a => answer (.rdsr a) State.reset) =
    [5, 1, 8, 64, 4, 2, 2, 0xCF, 1, 3, 5, 0].map (fun v => some ⟨true, v⟩) := by decide
theorem test_rdsr_status_R181_T102 :
    answer (.rdsr 0) { State.reset with st := .capturing, act := .B, cur := 32 } = some ⟨true, 0x107⟩ ∧
    faultAfter (.rdsr 9) { State.reset with fault := 0x3 } = some 0x7 := by decide
theorem test_rdsym : answer (.rdsym 1) frame2 = some ⟨true, 0xCC⟩ ∧ faultAfter (.rdsym 2) frame2 = some 0x4 := by decide
theorem test_wrsym : after (.wrsym 1 0xCD) frame2 (fun t => (t.sym, t.matched)) = some ([0x1B, 0xCD], false) ∧
    after (.wrsym 2 1) frame2 (fun t => (t.sym, t.matched, t.fault)) = some ([0x1B, 0xCC], true, 0x4) := by decide
theorem test_reset : after .reset { heldLimits with fault := 0xF, out := [1] } id = some State.reset := rfl

/-- A word placed by `withFetchWord` is what the next step performs. -/
theorem test_withFetchWord :
    step (State.reset.withFetchWord 40 0x52000100CC) = exec (.wrsym 1 0xCC) State.reset ∧
    step (State.reset.withFetchWord 16 0x240) = exec (.tick 576) State.reset ∧
    step (State.reset.withFetchWord 0 0) = exec .reset State.reset ∧
    step (State.reset.withFetchWord 40 0x0100001234) = .next (State.reset.raise .ill) := ⟨rfl, rfl, rfl, rfl⟩

/-! ### Runs of a program: R184, R186, R206, P5 -/

/-- P5 just before the tick that breaks the ownership contract, a WAITRDY left. -/
def overrunNext : Run := Run.start Pseudo.waitrdy.expand { heldB with st := .guarding, cnt := 1, act := .A }

/-- A view of the run after some turns. -/
def ranTo {α : Type} (τs : List Turn) (r : Run) (view : Run → α) : Option α :=
  match Run.turns τs r with
  | .next u => some (view u)
  | .fault _ => none
  | .refused _ => none

/-- WAITRDY polls in vain, is let go by the buffer-full tick, and ends at the next TAKE, before XFORM. -/
theorem test_waitrdy :
    ranTo [.line, .line, .tick 700, .line] (Run.start Pseudo.process.expand { heldB with st := .capturing })
      (fun u => (u.todo.length, u.state.rdy, u.state.held, u.verdict)) = some (5, false, true, .running) ∧
    ranTo [.line, .line, .line] (Run.start Pseudo.process.expand State.reset) (fun u => u.todo)
      = some Pseudo.process.expand := by decide

/-- The tick of P5 that sets FAULT.OVR makes the run faulted; the block goes on; RESET begins a new run. -/
theorem test_overrun_faults_the_run_P5 :
    ranTo [.tick 512] overrunNext (fun u => (u.verdict, u.state.fault)) = some (.faulted, 0x8) ∧
    ranTo [.tick 512, .tick 512, .line] overrunNext (fun u => (u.verdict, u.state.cur)) = some (.faulted, 1) ∧
    ranTo [.tick 512, .reset] overrunNext (fun u => u.verdict) = some .running ∧
    ranTo [.line] (Run.start [.op .release] heldB) (fun u => u.verdict) = some .final := by decide

/-! ### Witnesses: states and operands that meet the hypotheses of the obligations, clause by clause -/

theorem witness_IgnoredBitsDoNotMatter :
    decode (.command 0x110005FFFF) = .ok (.sqr 5) ∧
    (0x520001ABCC : CommandWord) &&& readMask 0x520001ABCC = 0x52000100CC &&& readMask 0x520001ABCC := by decide

/-- The ends of each reserved range, and of the ranges of listed ops between them. -/
theorem witness_ReservedOpcodeSetsIllOnly :
    (∀ op ∈ [0x01, 0x0F, 0x13, 0x1F, 0x25, 0x2F, 0x36, 0x3F, 0x46, 0x4F, 0x53, 0xFF],
      ((commandWord (BitVec.ofNat 8 op) 0 0) >>> 32).toNat = op) ∧
    (∀ op ∈ [0x00, 0x10, 0x12, 0x20, 0x24, 0x30, 0x35, 0x40, 0x45, 0x50, 0x52],
      ((commandWord (BitVec.ofNat 8 op) 0 0) >>> 32).toNat = op) := by decide

theorem witness_StepRunsTheDecodedEvent :
    (State.reset.present (.command 0x110005FFFF)).inbox = [.command 0x110005FFFF] ∧
    decode (.command 0x110005FFFF) = .ok (.sqr 5) ∧ State.reset.inbox = [] := by decide

theorem witness_NoOperationSeesLaterEvents :
    (∃ t, exec .take readyB = .next t) ∧
    exec (.lds 0) { State.reset with held := true } = .fault .unwrittenWord := ⟨⟨_, rfl⟩, rfl⟩

/-- A function within the law that is not the reference instance. -/
theorem witness_EveryLawfulMultiplyIsAdmitted : ∀ x y : Word16,
    -1 ≤ (smulWith .under x y).toInt - x.toInt * (y.toNat : Int) / 65536 ∧
      (smulWith .under x y).toInt - x.toInt * (y.toNat : Int) / 65536 ≤ 1 := by
  intro x y
  have h := smulExact_bounds x y
  have h2 : x.toInt * (y.toNat : Int) / 65536 = smulExact x y := rfl
  rw [h2, smulWith_toInt, smulDelta]
  omega

theorem witness_SqrAnswersTheExactSquare : (0x7FFF : Word16).toInt ≠ -32768 ∧ (0x8000 : Word16).toInt = -32768 := by
  decide

/-- The ends of the map and of the gaps in it. -/
theorem witness_RdsrReadsTheRegisterMap :
    (∀ s : State, s = heldLimits → ∀ p ∈ [(1, s.fault.toNat), (27, s.cfg.emitFirstOnly.toNat)],
      p ∈ [(1, s.fault.toNat), (2, s.cur.toNat), (3, s.cnt.toNat), (4, s.eref.toNat), (5, s.lim1.toNat),
        (6, s.lim2.toNat), (7, s.lim3.toNat), (8, s.ckacc.toNat), (16, s.cfg.log2L), (18, s.cfg.tLow),
        (19, s.cfg.tHigh), (20, s.cfg.nSilence), (21, s.cfg.nGuard), (22, s.cfg.nsym), (23, 0xCF), (24, 1), (25, 3),
        (26, 5), (27, s.cfg.emitFirstOnly.toNat)]) ∧
    (∀ a ∈ [9, 15], 9 ≤ (BitVec.ofNat 16 a).toNat ∧ (BitVec.ofNat 16 a).toNat ≤ 15) ∧
    (∀ a ∈ [28, 65535], 28 ≤ (BitVec.ofNat 16 a).toNat) :=
  ⟨fun s _ p h => by simp at h ⊢; tauto, by decide, by decide⟩

theorem witness_RdsymReadsOneSymbol : frame2.sym.length = frame2.cfg.nsym ∧ (1 : Word16).toNat < frame2.sym.length ∧
    frame2.cfg.nsym ≤ (2 : Word16).toNat := by decide

theorem witness_WrsymWritesOneSymbol : frame2.sym.length = frame2.cfg.nsym ∧ (1 : Word16).toNat < frame2.cfg.nsym ∧
    frame2.cfg.nsym ≤ (2 : Word16).toNat := by decide

/-- Both tests of the distance at their edges, and the countdown at 1 and above. -/
theorem witness_TickInSearchingSilence :
    State.reset.st = .searchingSilence ∧ 1 < State.reset.cnt.toNat ∧
    ({ State.reset with cnt := 1 } : State).cnt.toNat = 1 ∧
    readingDistance 519 < State.reset.cfg.tLow ∧ (State.reset.cfg.tLow : Int) ≤ readingDistance 520 := by
  simp only [readingDistance_eq]; decide

theorem witness_TickInSearchingBurstStart :
    ({ State.reset with st := .searchingBurstStart, cnt := 0 } : State).st = .searchingBurstStart ∧
    (State.reset.cfg.tHigh : Int) ≤ readingDistance 448 ∧ readingDistance 449 < State.reset.cfg.tHigh := by
  simp only [readingDistance_eq]; decide

/-- The last guard tick with the held region becoming active, and with it not. -/
theorem witness_TickInGuard :
    ({ heldB with st := .guarding, cnt := 2 } : State).cnt.toNat = 2 ∧
    ({ heldB with st := .guarding, cnt := 1, act := .A } : State).cnt.toNat = 1 ∧
    heldB.held = true ∧ heldB.heldSel = Region.A.other ∧ heldB.heldSel ≠ Region.B.other := by decide

/-- The first and the last storing tick, with a shift to the left and with one to the right, and the buffer-full tick. -/
theorem witness_TickInCapturing :
    heldCapturing.st = .capturing ∧ heldCapturing.cur.toNat < heldCapturing.cfg.bufLen ∧
    ({ heldCapturing with cur := 31 } : State).cur.toNat < heldCapturing.cfg.bufLen ∧ heldCapturing.cfg.log2L ≤ 6 ∧
    (∃ c : WfConfig, 6 < c.log2L ∧ (State.resetWith c).cur.toNat < (State.resetWith c).cfg.bufLen) ∧
    heldCapturing.cfg.bufLen ≤ ({ heldCapturing with cur := 32 } : State).cur.toNat :=
  ⟨by decide, by decide, by decide, by decide, ⟨⟨{ Config.cfg32 with log2L := 7 }, by decide⟩, by decide, by decide⟩,
    by decide⟩

theorem witness_TakeHandsTheReadyRegionOver : readyB.rdy = true ∧ readyB.rdySel = .B ∧
    ({ readyB with rdySel := .A } : State).rdySel = .A ∧ State.reset.rdy = false := by decide

theorem witness_ReleaseClearsHeldOnly : State.reset.held = false := rfl

/-- The first and the last word, and the first index beyond it. -/
theorem witness_LdsLoadsOneHeldWord : State.reset.held = false ∧ heldB.held = true ∧
    heldB.cfg.bufLen ≤ (32 : Word16).toNat ∧ (31 : Word16).toNat < heldB.cfg.bufLen ∧
    heldB.load heldB.heldSel (31 : Word16).toNat = some 0 ∧ heldB.load heldB.heldSel 2 = some 60 := by decide

theorem witness_StsStoresOneHeldWord : State.reset.held = false ∧ heldB.held = true ∧
    heldB.cfg.bufLen ≤ (32 : Word16).toNat ∧ (31 : Word16).toNat < heldB.cfg.bufLen := by decide

theorem witness_XformReplacesTheHeldRegion : State.reset.held = false ∧ heldB.held = true ∧
    spectrum.length = heldB.cfg.bufLen ∧
    ∀ j (h : j < spectrum.length), heldB.load heldB.heldSel j = some spectrum[j] := by decide

theorem witness_ThreshDerivesTheLimitsOfBinOne : State.reset.held = false ∧ heldB.held = true ∧
    heldB.load heldB.heldSel 2 = some 60 ∧ heldB.load heldB.heldSel 3 = some 0 := by decide

theorem witness_QeAnswersTheLevel : heldLimits.lim1.toNat ≤ heldLimits.lim2.toNat ∧
    heldLimits.lim2.toNat ≤ heldLimits.lim3.toNat := by decide

/-- The first and the last bin, and the first index beyond it. -/
theorem witness_QbinAnswersTheLevelOfABin :
    heldLimits.lim1.toNat ≤ heldLimits.lim2.toNat ∧ heldLimits.lim2.toNat ≤ heldLimits.lim3.toNat ∧
    State.reset.held = false ∧ heldLimits.held = true ∧ heldLimits.cfg.bufLen / 2 ≤ (16 : Word16).toNat ∧
    (15 : Word16).toNat < heldLimits.cfg.bufLen / 2 ∧ heldLimits.load heldLimits.heldSel 30 = some 0 ∧
    heldLimits.load heldLimits.heldSel 31 = some 0 ∧ heldLimits.load heldLimits.heldSel 1 = some 0 := by decide

/-- The last symbol, and the first index beyond it. -/
theorem witness_QsymDecodesOneSymbol :
    heldLimits.lim1.toNat ≤ heldLimits.lim2.toNat ∧ heldLimits.lim2.toNat ≤ heldLimits.lim3.toNat ∧
    heldLimits.sym.length = heldLimits.cfg.nsym ∧ State.reset.held = false ∧ heldLimits.held = true ∧
    heldLimits.cfg.nsym ≤ (2 : Word16).toNat ∧ (1 : Word16).toNat < heldLimits.cfg.nsym ∧
    ∀ k < 4,
      heldLimits.load heldLimits.heldSel (2 * (3 + 5 * (1 : Word16).toNat + k)) = some ([60, 0, 60, 0].getD k 0) ∧
      heldLimits.load heldLimits.heldSel (2 * (3 + 5 * (1 : Word16).toNat + k) + 1) = some ([20, 0, 20, 0].getD k 0) := by
  decide

/-- Every word of the region is written. -/
theorem heldB_regionWritten : heldB.regionWritten .B := show ∀ i < 32, heldB.written .B i = true by decide

theorem witness_DecodeIsThreshThenEveryQsym : State.reset.held = false ∧ heldB.held = true ∧
    heldB.regionWritten heldB.heldSel ∧ heldB.sym.length = heldB.cfg.nsym :=
  ⟨rfl, rfl, heldB_regionWritten, rfl⟩

theorem witness_LevelsCompareExactRatios :
    (∃ t, exec (.setref 3600) State.reset = .next t) ∧ (∃ t, exec (.setref 0) State.reset = .next t) ∧
    (1 : Word32) ≠ 0 := ⟨⟨_, rfl⟩, ⟨_, rfl⟩, by decide⟩

/-- T60: the factor 4. -/
theorem witness_LevelsAreScaleInvariant :
    0 < 4 ∧ (14400 : Word32).toNat = 4 * (3600 : Word32).toNat ∧ (2000 : Word32).toNat = 4 * (500 : Word32).toNat ∧
    (∃ t, exec (.setref 3600) State.reset = .next t) ∧ ∃ t, exec (.setref 14400) State.reset = .next t :=
  ⟨by decide, by decide, by decide, ⟨_, rfl⟩, ⟨_, rfl⟩⟩

theorem witness_CkcmpComparesTheHighByte : ({ State.reset with ckacc := 0xCC00 } : State).ckacc.toNat / 256 = (0xCC : Byte).toNat ∧
    ({ State.reset with ckacc := 0xCC00 } : State).ckacc.toNat / 256 ≠ (0xCD : Byte).toNat := by decide

/-- A valid and an invalid frame. -/
theorem witness_ValidateComparesTheFrameChecksum :
    frame4.sym = 0x12 :: ([0x34, 0x56] ++ [0xBC]) ∧ frame4.sym.length = frame4.cfg.nsym ∧
    cksum 0x12 [0x34, 0x56] = 0xBC ∧ frame2.sym = 0x1B :: ([] ++ [0xCC]) ∧ frame2.sym.length = frame2.cfg.nsym ∧
    cksum 0x1B [] ≠ 0xCD := by decide +kernel

theorem witness_ValidateIsTheCommandSequence :
    frame4.sym = 0x12 :: ([0x34, 0x56] ++ [0xBC]) ∧ frame4.sym.length = frame4.cfg.nsym := by decide

theorem witness_ChecksumIsLinear : [(0x34 : Byte)].length = [(0x2F : Byte)].length := rfl

/-- The first bit of the first byte and the last bit of the last. -/
theorem witness_EverySingleBitFlipChangesTheChecksum :
    (0 < [(0x12 : Byte), 0x34].length ∧ 7 < 8 ∧
      [(0x92 : Byte), 0x34] = [(0x12 : Byte), 0x34].modify 0 (· ^^^ BitVec.twoPow 8 7)) ∧
    (1 < [(0x12 : Byte), 0x34].length ∧ 0 < 8 ∧
      [(0x12 : Byte), 0x35] = [(0x12 : Byte), 0x34].modify 1 (· ^^^ BitVec.twoPow 8 0)) := by decide

theorem witness_AppendedChecksumValidates :
    frame2.sym = 0x1B :: ([] ++ [cksum 0x1B []]) ∧ frame2.sym.length = frame2.cfg.nsym := by decide

/-- Matched with each value of EMIT_FIRST_ONLY, and not matched. -/
theorem witness_EmitWritesTheValidatedPayload :
    frame4.sym = 0x12 :: ([0x34, 0x56] ++ [0xBC]) ∧ frame4.sym.length = frame4.cfg.nsym ∧ frame4.matched = true ∧
    frame4.cfg.emitFirstOnly = false ∧ ({ frame4 with matched := false } : State).matched = false ∧
    ∃ c : WfConfig, c.emitFirstOnly = true ∧
      ({ State.resetWith c with sym := [0x1B, 0xCC], matched := true } : State).sym.length = c.nsym :=
  ⟨by decide, by decide, by decide, by decide, by decide,
    ⟨⟨{ Config.cfg32 with emitFirstOnly := true }, by decide⟩, by decide, by decide⟩⟩

/-- No cell of the spectrum lies outside the regions. -/
theorem heldB_inside (a : Nat) (h : 128 ≤ a) : Memory.readByte heldB.mem a = none := by
  have hl : spectrum.length = 32 := rfl
  have hm : heldB.mem = Memory.writeWords [] 64 spectrum := rfl
  rw [hm, Memory.readByte_writeWords_other [] 64 spectrum a (by omega)]
  rfl

/-- The invariant in a state with a held region and a capture of the other one beginning. -/
theorem heldCapturing_inv : Inv heldCapturing where
  memOrdered := test_heldB_memory_canonical
  memInside := heldB_inside
  cursorBound := by decide
  captureWritten := fun _ i h => absurd h (Nat.not_lt_zero i)
  readyWritten := fun h => absurd h (by decide)
  heldWritten := fun _ => heldB_regionWritten
  silenceCount := fun h => absurd h (by decide)
  guardCount := fun h => absurd h (by decide)
  readySide := fun h => absurd h (by decide)
  heldApart := fun _ _ _ => by decide
  limits := by decide
  ckaccLow := by decide
  symLength := rfl

/-- The same with events presented. -/
theorem heldCapturing_presented_inv (e : Event) : Inv (heldCapturing.present e) :=
  ⟨heldCapturing_inv.1, heldCapturing_inv.2, heldCapturing_inv.3, heldCapturing_inv.4, heldCapturing_inv.5,
    heldCapturing_inv.6, heldCapturing_inv.7, heldCapturing_inv.8, heldCapturing_inv.9, heldCapturing_inv.10,
    heldCapturing_inv.11, heldCapturing_inv.12, heldCapturing_inv.13⟩

theorem witness_StepKeepsTheInvariant : Inv (heldCapturing.present (.tick 412)) ∧
    ∃ t, step (heldCapturing.present (.tick 412)) = .next t := ⟨heldCapturing_presented_inv _, ⟨_, rfl⟩⟩

theorem witness_NoReachableStepStops : Inv (heldCapturing.present (.command 0x3500000000)) :=
  heldCapturing_presented_inv _

/-- Each reading command stops with nothing written, and not on a written region. -/
theorem witness_OnlyReadingAnUnwrittenWordStops :
    (∀ i ∈ [Instr.lds 31, .xform, .thresh, .qbin 15, .qsym 1, .decodeFrame],
      exec i { State.reset with held := true } = .fault .unwrittenWord) ∧ ∃ t, exec .xform heldB = .next t :=
  ⟨by simp only [List.forall_mem_cons, List.not_mem_nil, false_implies, implies_true, and_true]
      exact ⟨rfl, rfl, rfl, rfl, rfl, rfl⟩, ⟨_, rfl⟩⟩

/-- A bit that is set; the tick that breaks the ownership contract; a faulted run that goes on; a run from a start. -/
theorem witness_FaultBitsAreSticky :
    ((∃ t, perform (.command 0x5000010000) { State.reset with fault := 0x3 } = .next t) ∧
      Event.command 0x5000010000 ≠ .reset ∧ ({ State.reset with fault := 0x3 } : State).hasFault .noheld = true) ∧
    (overrunNext.state.st = .guarding ∧ overrunNext.state.cnt.toNat = 1 ∧ overrunNext.state.held = true ∧
      overrunNext.state.heldSel ≠ overrunNext.state.act) ∧
    ((∃ u, Run.turns [.line, .tick 512] { overrunNext with faulted := true } = .next u) ∧
      ({ overrunNext with faulted := true } : Run).verdict = .faulted ∧ Turn.reset ∉ [Turn.line, .tick 512] ∧
      Line.event .reset ∉ overrunNext.todo) ∧
    ∃ u, Run.turns [.line, .tick 512, .reset] (Run.start [.op .release] heldB) = .next u :=
  ⟨⟨⟨_, rfl⟩, by decide, by decide⟩, by decide, ⟨⟨_, rfl⟩, by decide, by decide, by decide⟩, ⟨_, rfl⟩⟩

theorem witness_FaultingCommandIsPrecise :
    (Instr.lds 32).isCommand = true ∧ (∃ t, exec (.lds 32) heldB = .next t ∧ t.response = some ⟨false, 0⟩) ∧
    Instr.take.isCommand = true ∧ ∃ t, exec .take State.reset = .next t ∧ t.response = some ⟨false, 0⟩ :=
  ⟨rfl, ⟨_, rfl, rfl⟩, rfl, ⟨_, rfl, rfl⟩⟩

/-- Each bit clear before, with the event of its row and with another one. -/
theorem witness_FaultBitsAreSetExactlyAsListed :
    (∀ f : FaultBit, State.reset.hasFault f = false ∧ heldB.hasFault f = false) ∧
    (∃ t, exec (.lds 40) State.reset = .next t) ∧ (∃ t, exec (.lds 32) heldB = .next t) ∧
    (∃ t, exec .nop State.reset = .next t) ∧
    ∃ t, exec (.tick 512) { heldB with st := .guarding, cnt := 1, act := .A } = .next t :=
  ⟨fun f => by cases f <;> decide, ⟨_, rfl⟩, ⟨_, rfl⟩, ⟨_, rfl⟩, ⟨_, rfl⟩⟩

theorem witness_EachContextWritesOnlyItsOwnState :
    ((Instr.sts 31 5).isCommand = true ∧ ∃ t, exec (.sts 31 5) heldB = .next t) ∧
    ∃ t, exec (.tick 412) heldCapturing = .next t := ⟨⟨rfl, ⟨_, rfl⟩⟩, ⟨_, rfl⟩⟩

/-- RDY set by a buffer-full tick, and cleared by a TAKE; a hold, the next tick lifting it; a WAITRDY with a region ready
and with none. -/
theorem witness_RdyChangesOnlyAtBufferFullAndTake :
    (∃ t, perform (.tick 700) { heldB with st := .capturing } = .next t ∧ heldB.rdy = false ∧ t.rdy = true) ∧
    (∃ t, perform (.command 0x2000000000) readyB = .next t ∧ readyB.rdy = true ∧ t.rdy = false) ∧
    ((Run.start Pseudo.process.expand { heldB with st := .capturing }).onHold ∧
      ({ heldB with st := .capturing } : State).atBufferFull) ∧
    ((Run.start Pseudo.waitrdy.expand readyB).todo = [.waitrdy] ∧ readyB.rdy = true ∧ State.reset.rdy = false) :=
  ⟨⟨_, rfl, rfl, rfl⟩, ⟨_, rfl, rfl, rfl⟩, ⟨⟨⟨_, rfl⟩, rfl⟩, ⟨rfl, by decide⟩⟩, rfl, rfl, rfl⟩

theorem witness_RegionsSwapOnlyAtCaptureStart :
    heldB.cur.toNat ≤ heldB.cfg.bufLen ∧
    ∃ t, perform (.tick 0) { heldB with st := .guarding, cnt := 1 } = .next t ∧ t.act ≠ heldB.act ∧
      t.cur.toNat < heldB.cur.toNat := ⟨by decide, ⟨_, rfl, by decide, by decide⟩⟩

theorem witness_TickLeavesTheHeldRegionAlone : Inv heldCapturing ∧ heldCapturing.held = true ∧
    ∃ t, exec (.tick 412) heldCapturing = .next t ∧ t.ovrClear = true :=
  ⟨heldCapturing_inv, rfl, ⟨_, rfl, by decide⟩⟩

/-- One tick fewer than the 33 the capture still needs, of events and of turns; readings none of which is quiet; readings
none of which is loud, in each of the two states. -/
theorem witness_RdyStaysClearBeforeItsTicks :
    (Inv heldCapturing ∧ heldCapturing.rdy = false ∧
      tickCount (List.replicate 32 (.tick 600)) < heldCapturing.ticksToReady ∧
      ∃ t, performAll (List.replicate 32 (.tick 600)) heldCapturing = .next t) ∧
    ((Run.start [.waitrdy] heldCapturing).onHold ∧
      (readingsOf (.line :: List.replicate 32 (.tick 600))).length < heldCapturing.ticksToReady) ∧
    ((Run.start [.waitrdy] State.reset).onHold ∧ State.reset.st = .searchingSilence ∧
      ∀ raw ∈ readingsOf [.tick 520, .line, .tick 504], (State.reset.cfg.tLow : Int) ≤ readingDistance raw) ∧
    ∀ st, st = .searchingSilence ∨ st = .searchingBurstStart →
      (Run.start [.waitrdy] { State.reset with st := st }).onHold ∧
      ∀ raw ∈ readingsOf [.tick 575, .line, .tick 449], readingDistance raw < State.reset.cfg.tHigh :=
  ⟨⟨heldCapturing_inv, rfl, by decide, ⟨_, rfl⟩⟩, ⟨⟨⟨_, rfl⟩, rfl⟩, by decide⟩,
    ⟨⟨⟨_, rfl⟩, rfl⟩, rfl, by simp only [readingDistance_eq]; decide⟩,
    fun _ _ => ⟨⟨⟨_, rfl⟩, rfl⟩, by simp only [readingDistance_eq]; decide⟩⟩

/-- The invariant in a state that searches, its countdown fresh. -/
theorem heldSearching_inv : Inv { heldB with cnt := 4 } where
  memOrdered := test_heldB_memory_canonical
  memInside := heldB_inside
  cursorBound := by decide
  captureWritten := fun h => absurd h (by decide)
  readyWritten := fun h => absurd h (by decide)
  heldWritten := fun _ => heldB_regionWritten
  silenceCount := fun _ => by decide
  guardCount := fun h => absurd h (by decide)
  readySide := fun h => absurd h (by decide)
  heldApart := fun _ h => absurd h (by decide)
  limits := by decide
  ckaccLow := by decide
  symLength := rfl

theorem witness_QuietLoudGuardCaptureCompletes :
    Inv { heldB with cnt := 4 } ∧ ({ heldB with cnt := 4 } : State).cnt.toNat = heldB.cfg.nSilence ∧
    [(512 : Reading), 515, 505, 519].length = heldB.cfg.nSilence ∧
    (∀ q ∈ [(512 : Reading), 515, 505, 519], readingDistance q < heldB.cfg.tLow) ∧
    (heldB.cfg.tHigh : Int) ≤ readingDistance 576 ∧ [(0 : Reading), 1023].length = heldB.cfg.nGuard ∧
    (List.replicate 32 (600 : Reading)).length = heldB.cfg.bufLen :=
  ⟨heldSearching_inv, by simp only [readingDistance_eq]; decide⟩

/-- The invariant with a region ready and not taken, the countdown fresh. -/
theorem ready_inv : Inv { readyB with cnt := 4 } where
  memOrdered := test_heldB_memory_canonical
  memInside := heldB_inside
  cursorBound := by decide
  captureWritten := fun h => absurd h (by decide)
  readyWritten := fun _ => heldB_regionWritten
  heldWritten := fun h => absurd h (by decide)
  silenceCount := fun _ => by decide
  guardCount := fun h => absurd h (by decide)
  readySide := fun _ => by decide
  heldApart := fun h => absurd h (by decide)
  limits := by decide
  ckaccLow := by decide
  symLength := rfl

/-- Events that go on; a region ready; none ready. -/
theorem witness_RunPerformsEventsInOrder :
    (∃ t, performAll [.tick 512, .command 0x2000000000] State.reset = .next t) ∧
    (Inv { readyB with cnt := 4 } ∧ ({ readyB with cnt := 4 } : State).rdy = true) ∧ State.reset.rdy = false :=
  ⟨⟨_, rfl⟩, ⟨ready_inv, rfl⟩, rfl⟩

/-- Nothing held, and one tick fewer than the 47 of P5; a region ready, taken at the last moment that is early enough. -/
theorem witness_OverrunNeedsTwoCaptureStarts :
    (Inv { heldB with cnt := 4, held := false } ∧ heldB.ovrClear = true ∧
      (∃ t, performAll [.tick 512, .command 0x2000000000] { heldB with cnt := 4, held := false } = .next t) ∧
      tickCount (List.replicate 46 (.tick 512)) <
        heldB.cfg.nSilence + 1 + heldB.cfg.nGuard + heldB.cfg.bufLen + 1 + heldB.cfg.nSilence + 1 + heldB.cfg.nGuard) ∧
    (Inv { readyB with cnt := 4 } ∧ readyB.st = .searchingSilence ∧ readyB.rdy = true ∧ readyB.ovrClear = true ∧
      tickCount (List.replicate 6 (.tick 512)) < readyB.cfg.nSilence + 1 + readyB.cfg.nGuard ∧
      ∃ t, performAll (List.replicate 6 (.tick 512) ++ encode .take :: [.tick 512]) { readyB with cnt := 4 } = .next t) :=
  ⟨⟨{ heldSearching_inv with
      heldWritten := fun h => absurd h (by decide)
      heldApart := fun h => absurd h (by decide) }, by decide, ⟨_, rfl⟩, by decide⟩,
    ⟨ready_inv, rfl, rfl, by decide, by decide, ⟨_, rfl⟩⟩⟩

end Sys2Proof.Tests
end

section
/-! PROOFS. The scope rules of spec/00_scope.md: R6 (configurations), R7 (events in order, none seen early), and the
run of PROCESS of spec/44_system.md R186. -/

namespace Sys2Proof.Machine

/-! ### Outcomes carried along an update of the state -/

/-- An outcome with its next state, if it has one, put through `f`. -/
def mapNext (f : State → State) : Result → Result
  | .next t => .next (f t)
  | .fault r => .fault r
  | .refused r => .refused r

/-- An update that touches nothing the shared operations of Machine/Ops.lean read or write: the held region, FAULT and
the response. -/
structure Unseen (f : State → State) : Prop where
  held : ∀ s, (f s).held = s.held
  heldSel : ∀ s, (f s).heldSel = s.heldSel
  reply : ∀ s ok res, (f s).reply ok res = f (s.reply ok res)
  raise : ∀ s b, (f s).raise b = f (s.raise b)

/-- Two cases on the same condition, related branch by branch. -/
theorem ite_eq_apply_ite {α : Type} {g : α → α} {p : Prop} [Decidable p] {a b a' b' : α} (ha : a' = g a)
    (hb : b' = g b) : (if p then a' else b') = g (if p then a else b) := by
  rw [apply_ite g, ha, hb]

section
variable {f : State → State} {s : State}

/-- A value read from memory is the same one on both sides. -/
theorem withValue_mapNext {α : Type} (o : Option α) {k k' : α → Result} (h : ∀ v, k' v = mapNext f (k v)) :
    withValue o k' = mapNext f (withValue o k) := by
  cases o with
  | none => rfl
  | some v => exact h v

theorem Unseen.done (hf : Unseen f) (ok : Bool) (res : Word32) :
    done (f s) ok res = mapNext f (done s ok res) := congrArg _ (hf.reply s ok res)

theorem Unseen.faulted (hf : Unseen f) (b : FaultBit) : faulted (f s) b = mapNext f (faulted s b) :=
  congrArg _ (hf.raise s b)

theorem Unseen.onHeld (hf : Unseen f) {k k' : Region → Result} (h : ∀ r, k' r = mapNext f (k r)) :
    onHeld (f s) k' = mapNext f (onHeld s k) := by
  cases hs : s.held with
  | false => rw [onHeld_not_held _ _ hs, onHeld_not_held _ _ (by rw [hf.held, hs]), hf.faulted]
  | true => rw [onHeld_held _ _ hs, onHeld_held _ _ (by rw [hf.held, hs]), hf.heldSel, h]

theorem Unseen.inRange (hf : Unseen f) (i n : Nat) {k k' : Result} (h : k' = mapNext f k) :
    inRange (f s) i n k' = mapNext f (inRange s i n k) := by
  rcases lt_or_ge i n with hi | hi
  · rw [inRange_lt _ _ _ _ hi, inRange_lt _ _ _ _ hi, h]
  · rw [inRange_ge _ _ _ _ hi, inRange_ge _ _ _ _ hi, hf.faulted]

end

/-! ### The events presented later (R7) -/

/-- The state with `q` as the events presented and not yet performed. -/
def State.withInbox (q : List Event) (s : State) : State := { s with inbox := q }

@[simp] theorem State.withInbox_inbox (q : List Event) (s : State) : (s.withInbox q).inbox = q := rfl

@[simp] theorem State.withInbox_self (s : State) : s.withInbox s.inbox = s := rfl

theorem State.register_withInbox (q : List Event) (s : State) : (s.withInbox q).register = s.register := rfl

theorem unseen_withInbox (q : List Event) : Unseen (State.withInbox q) :=
  ⟨fun _ => rfl, fun _ => rfl, fun _ _ _ => rfl, fun _ _ => rfl⟩

/-- The GUARD to CAPTURING transition under other events to come. -/
theorem startCapture_withInbox (q : List Event) (s : State) :
    startCapture (s.withInbox q) = (startCapture s).withInbox q := by
  have hcond : ((s.withInbox q).held && (s.withInbox q).heldSel == (s.withInbox q).act.other) =
      (s.held && s.heldSel == s.act.other) := rfl
  unfold startCapture
  rw [hcond]
  cases s.held && s.heldSel == s.act.other <;> rfl

/-- A tick under other events to come, by the state rule it performs (R110). -/
theorem tickState_withInbox (raw : Reading) (q : List Event) (s : State) :
    tickState raw (s.withInbox q) = (tickState raw s).withInbox q := by
  have hst : (s.withInbox q).st = s.st := rfl
  unfold tickState
  rw [hst]
  cases s.st with
  | searchingSilence =>
    simp only [tickSilence]
    exact ite_eq_apply_ite rfl rfl
  | searchingBurstStart =>
    simp only [tickBurstStart]
    exact ite_eq_apply_ite rfl rfl
  | guarding =>
    simp only [tickGuard]
    exact ite_eq_apply_ite (startCapture_withInbox q { s with cnt := s.cnt - 1 }) rfl
  | capturing =>
    simp only [tickCapturing]
    exact ite_eq_apply_ite rfl rfl

/-- Every operation does the same under other events to come, and leaves them as they are. -/
theorem exec_withInbox (i : Instr) (q : List Event) (s : State) :
    exec i (s.withInbox q) = mapNext (State.withInbox q) (exec i s) := by
  have hq := unseen_withInbox q
  cases i with
  | nop | smul | sqr | magsq | release | setref | qe | ckinit | ckbyte | ckfin | ckcmp | validate | reset => rfl
  | take =>
    simp only [exec, execTake]
    exact ite_eq_apply_ite rfl rfl
  | emit =>
    simp only [exec, execEmit]
    exact ite_eq_apply_ite rfl rfl
  | rdsr a =>
    simp only [exec, execRdsr, State.register_withInbox]
    cases s.register (unsigned16 a) <;> rfl
  | rdsym => exact hq.inRange _ _ rfl
  | wrsym => exact hq.inRange _ _ rfl
  | lds =>
    simp only [exec, execLds]
    exact hq.onHeld fun _ => hq.inRange _ _ (withValue_mapNext _ fun _ => rfl)
  | sts =>
    simp only [exec, execSts]
    exact hq.onHeld fun _ => hq.inRange _ _ rfl
  | xform =>
    simp only [exec, execXform]
    exact hq.onHeld fun _ => withValue_mapNext _ fun _ => rfl
  | thresh =>
    simp only [exec, execThresh]
    exact hq.onHeld fun _ => withValue_mapNext _ fun _ => rfl
  | qbin =>
    simp only [exec, execQbin]
    exact hq.onHeld fun _ => hq.inRange _ _ (withValue_mapNext _ fun _ => rfl)
  | qsym =>
    simp only [exec, execQsym]
    exact hq.onHeld fun _ => hq.inRange _ _ (withValue_mapNext _ fun _ => rfl)
  | decodeFrame =>
    simp only [exec, execDecodeFrame]
    exact hq.onHeld fun _ => withValue_mapNext _ fun _ => withValue_mapNext _ fun _ => rfl
  | tick raw =>
    simp only [exec, execTick, tickState_withInbox]
    rfl

/-- No operation takes or adds an event. -/
theorem exec_inbox {i : Instr} {s t : State} (h : exec i s = .next t) : t.inbox = s.inbox := by
  have hs := exec_withInbox i s.inbox s
  rw [State.withInbox_self, h] at hs
  have ht : t = t.withInbox s.inbox := Host.Outcome.next.inj hs
  rw [ht, State.withInbox_inbox]

/-- Settles O8: `exec_withInbox` with `exec_inbox`. -/
theorem noOperationSeesLaterEvents : Obligations.NoOperationSeesLaterEvents := by
  intro i s t q
  have hq : exec i { s with inbox := q } = mapNext (State.withInbox q) (exec i s) := exec_withInbox i q s
  refine ⟨fun h => ⟨?_, exec_inbox h⟩, fun h => ?_⟩ <;> rw [hq, h] <;> rfl

/-! ### Steps and the events presented -/

/-- A step takes the next event presented and performs it (R7, R57). -/
theorem step_of_inbox_cons {s : State} {e : Event} {es : List Event} (h : s.inbox = e :: es) :
    step s = perform e (s.withInbox es) := by
  simp only [step, State.takeEvent, h]
  rfl

/-- An event that decodes is performed as its operation. -/
theorem perform_of_decode {e : Event} {i : Instr} (h : decode e = .ok i) (s : State) : perform e s = exec i s := by
  simp only [perform, h]

/-- Settles O5. -/
theorem stepRunsTheDecodedEvent : Obligations.StepRunsTheDecodedEvent := by
  intro s e es i
  refine ⟨fun hin hdec => ?_, fun hin => ?_⟩
  · rw [step_of_inbox_cons hin, perform_of_decode hdec]
    rfl
  · simp only [step, State.takeEvent, hin]

/-- Performing an event, a reserved op included, under other events to come. -/
theorem perform_withInbox (e : Event) (q : List Event) (s : State) :
    perform e (s.withInbox q) = mapNext (State.withInbox q) (perform e s) := by
  unfold perform
  cases decode e with
  | ok i => exact exec_withInbox i q s
  | error => rfl

/-- A sequence of events goes on exactly when its first event does and the rest does from there. -/
theorem performAll_cons_eq_next {e : Event} {es : List Event} {s t : State} :
    performAll (e :: es) s = .next t ↔ ∃ u, perform e s = .next u ∧ performAll es u = .next t := by
  simp only [performAll]
  cases perform e s <;> simp

/-- Stepping performs the events presented in their order and leaves those after them. -/
theorem run_of_performAll (es rest : List Event) (s t : State) (h : performAll es s = .next t) :
    Host.Core.run Sys2Proof.core es.length (s.withInbox (es ++ rest)) = .next (t.withInbox rest) := by
  induction es generalizing s with
  | nil => cases h; rfl
  | cons e es ih =>
    obtain ⟨u, hu, h⟩ := performAll_cons_eq_next.1 h
    have hstep : Sys2Proof.core.step (s.withInbox (e :: es ++ rest)) = .next (u.withInbox (es ++ rest)) := by
      have hp := perform_withInbox e (es ++ rest) s
      rw [hu] at hp
      exact (step_of_inbox_cons (s := s.withInbox (e :: es ++ rest)) rfl).trans hp
    simp only [List.length_cons, Host.Core.run, hstep]
    exact ih u h

/-! ### A run of a program performs its lines in order -/

/-- Turns one by one. -/
theorem Run.turns_cons_next {τ : Turn} {r u : Run} (h : r.turn τ = .next u) (τs : List Turn) :
    Run.turns (τ :: τs) r = Run.turns τs u := by
  simp only [Run.turns, h]

/-- The consumer at a line that is an event: it is performed, and the line is done. -/
theorem Run.turn_event_next {e : Event} {s t : State} (h : Machine.perform e s = .next t) (rest : List Line)
    (b : Bool) : ∃ b', (⟨s, .event e :: rest, b⟩ : Run).turn .line = .next ⟨t, rest, b'⟩ :=
  ⟨_, (Run.turn_event s e rest b).trans ((Run.perform_next _ _ _ _).2 ⟨t, h, rfl⟩)⟩

/-- Lines that are events are performed in their order, each by one turn of the consumer. -/
theorem Run.turns_events (es : List Event) (rest : List Line) (s t : State) (b : Bool)
    (h : performAll es s = .next t) :
    ∃ u : Run, Run.turns (List.replicate es.length .line) ⟨s, es.map Line.event ++ rest, b⟩ = .next u ∧
      u.state = t ∧ u.todo = rest := by
  induction es generalizing s b with
  | nil => cases h; exact ⟨_, rfl, rfl, rfl⟩
  | cons e es ih =>
    obtain ⟨v, hv, h⟩ := performAll_cons_eq_next.1 h
    obtain ⟨b', hturn⟩ := Run.turn_event_next hv (es.map Line.event ++ rest) b
    obtain ⟨u, hu, hstate, htodo⟩ := ih v b' h
    exact ⟨u, (Run.turns_cons_next hturn _).trans hu, hstate, htodo⟩

/-- The decoder undoes the encoder, operation by operation. -/
theorem decode_encode (i : Instr) : decode (encode i) = .ok i := by
  cases i with
  | nop => exact Laws.EncodeDecode.nop
  | smul x y => exact Laws.EncodeDecode.smul x y
  | sqr x => exact Laws.EncodeDecode.sqr x
  | magsq re im => exact Laws.EncodeDecode.magsq re im
  | take => exact Laws.EncodeDecode.take
  | release => exact Laws.EncodeDecode.release
  | lds k => exact Laws.EncodeDecode.lds k
  | sts k v => exact Laws.EncodeDecode.sts k v
  | xform => exact Laws.EncodeDecode.xform
  | thresh => exact Laws.EncodeDecode.thresh
  | setref e => exact Laws.EncodeDecode.setref e
  | qe e => exact Laws.EncodeDecode.qe e
  | qbin b => exact Laws.EncodeDecode.qbin b
  | qsym k => exact Laws.EncodeDecode.qsym k
  | decodeFrame => exact Laws.EncodeDecode.decodeFrame
  | ckinit d => exact Laws.EncodeDecode.ckinit d
  | ckbyte d => exact Laws.EncodeDecode.ckbyte d
  | ckfin => exact Laws.EncodeDecode.ckfin
  | ckcmp d => exact Laws.EncodeDecode.ckcmp d
  | validate => exact Laws.EncodeDecode.validate
  | emit => exact Laws.EncodeDecode.emit
  | rdsr a => exact Laws.EncodeDecode.rdsr a
  | rdsym k => exact Laws.EncodeDecode.rdsym k
  | wrsym k v => exact Laws.EncodeDecode.wrsym k v
  | tick raw => exact Laws.EncodeDecode.tick raw
  | reset => exact Laws.EncodeDecode.reset

theorem perform_encode (i : Instr) (s : State) : perform (encode i) s = exec i s :=
  perform_of_decode (decode_encode i) s

/-- A command is encoded as a command word. -/
theorem encode_of_isCommand {i : Instr} (h : i.isCommand = true) : ∃ w, encode i = .command w := by
  cases i with
  | tick | reset => cases h
  | _ => exact ⟨_, rfl⟩

/-- A sequence of operations goes on exactly when its first one does and the rest does from there. -/
theorem execAll_cons_eq_next {i : Instr} {is : List Instr} {s t : State} :
    execAll (i :: is) s = .next t ↔ ∃ u, exec i s = .next u ∧ execAll is u = .next t := by
  simp only [execAll]
  cases exec i s <;> simp

/-- No command sets or clears FAULT.OVR: a tick alone sets it (R195), a reset alone clears it. -/
theorem exec_command_ovr {i : Instr} {s t : State} (hi : i.isCommand = true) (h : exec i s = .next t) :
    t.hasFault .ovr = s.hasFault .ovr := by
  cases exec_command_outcome i s t hi h with
  | ok hd => exact hasFault_congr _ _ hd.fault _
  | noheld _ _ ht => rw [ht, hasFault_raise]; simp
  | range _ _ ht => rw [ht, hasFault_raise]; simp
  | idle _ _ ht => rw [ht]; rfl

/-- The consumer at a command: the run goes on as one that starts from the state the command leaves. -/
theorem Run.turn_command {i : Instr} {s t : State} (hi : i.isCommand = true) (h : exec i s = .next t)
    (rest : List Line) : (Run.start (Line.op i :: rest) s).turn .line = .next (Run.start rest t) := by
  obtain ⟨w, hw⟩ := encode_of_isCommand hi
  refine (Run.perform_next _ _ _ _).2 ⟨t, (perform_encode i s).trans h, ?_⟩
  simp [hw, Run.start, exec_command_ovr hi h]

/-- The consumer at commands, one turn for each. -/
theorem Run.turns_commands (is : List Instr) (rest : List Line) (s t : State)
    (hc : ∀ i ∈ is, i.isCommand = true) (h : execAll is s = .next t) :
    Run.turns (List.replicate is.length .line) (Run.start (is.map Line.op ++ rest) s) = .next (Run.start rest t) := by
  induction is generalizing s with
  | nil => cases h; rfl
  | cons i is ih =>
    obtain ⟨u, hu, h⟩ := execAll_cons_eq_next.1 h
    obtain ⟨hi, his⟩ := List.forall_mem_cons.1 hc
    exact (Run.turns_cons_next (Run.turn_command hi hu _) _).trans (ih u his h)

/-- The consumer at a WAITRDY with a region ready: its TAKE ends the wait (R184). -/
theorem Run.turn_waitrdy_take {s t : State} (hr : s.rdy = true) (h : exec .take s = .next t) (rest : List Line) :
    (Run.start (.waitrdy :: rest) s).turn .line = .next (Run.start rest t) := by
  obtain ⟨u, hu, hturn⟩ := Run.turn_waitrdy_ready s rest (s.hasFault .ovr) hr
  obtain rfl : u = t := Host.Outcome.next.inj (hu.symm.trans h)
  refine hturn.trans ?_
  simp [Run.start, exec_command_ovr (i := .take) rfl h]

/-- The consumer at a WAITRDY with no region ready stays there, however often it goes on; the response alone
changes (R184, R219). -/
theorem Run.turns_waitrdy_idle (n : Nat) (rest : List Line) (s : State) (hr : s.rdy = false) :
    ∃ a, Run.turns (List.replicate n .line) (Run.start (.waitrdy :: rest) s) =
      .next (Run.start (.waitrdy :: rest) { s with response := a }) := by
  induction n generalizing s with
  | zero => exact ⟨s.response, rfl⟩
  | succ n ih =>
    obtain ⟨a, ha⟩ := ih (s.reply false 0) hr
    have hturn : (Run.start (.waitrdy :: rest) s).turn .line =
        .next (Run.start (.waitrdy :: rest) (s.reply false 0)) := by
      refine (Run.turn_waitrdy_idle s rest _ hr).trans ?_
      rw [Bool.or_self]
      rfl
    exact ⟨a, (Run.turns_cons_next hturn _).trans ha⟩

/-! ### PROCESS with a region ready (R186) -/

/-- TAKE with a region ready (R118). -/
theorem exec_take_ready {s : State} (h : s.rdy = true) :
    exec .take s = .next (({ s with held := true, heldSel := s.rdySel, rdy := false } : State).reply true
      (zext32 s.rdySel.select)) := if_pos h

/-- The energy of a bin of a written region is there. -/
theorem State.binEnergy_isSome {s : State} {r : Region} (h : s.regionWritten r) {b : Nat}
    (hb : b < s.cfg.bufLen / 2) : (s.binEnergy r b).isSome = true := by
  obtain ⟨re, hre⟩ := Option.isSome_iff_exists.1 (h (2 * b) (by omega))
  obtain ⟨im, him⟩ := Option.isSome_iff_exists.1 (h (2 * b + 1) (by omega))
  rw [s.binEnergy_of_words r b re im hre him]
  rfl

/-- The bins of every symbol of a frame exist (R6 (f)). -/
theorem symbolBase_lt (c : WfConfig) {i : Nat} (hi : i < c.nsym) : symbolBase i + 3 < c.bufLen / 2 := by
  have hb := c.bin_bounds.1
  simp only [symbolBase, Config.f0, Config.stride] at *
  omega

/-- A symbol byte of a written region is there. -/
theorem State.symByte_isSome {s : State} {r : Region} (h : s.regionWritten r) {i : Nat} (hi : i < s.cfg.nsym) :
    (s.symByte r i).isSome = true := by
  have hlt := symbolBase_lt s.cfg hi
  have hbin : ∀ k ≤ 3, ∃ e, s.binEnergy r (symbolBase i + k) = some e := fun k hk =>
    Option.isSome_iff_exists.1 (State.binEnergy_isSome h (by omega))
  obtain ⟨e0, h0⟩ := hbin 0 (by omega)
  obtain ⟨e1, h1⟩ := hbin 1 (by omega)
  obtain ⟨e2, h2⟩ := hbin 2 (by omega)
  obtain ⟨e3, h3⟩ := hbin 3 (by omega)
  rw [Nat.add_zero] at h0
  simp only [State.symByte, h0, h1, h2, h3, Option.isSome_some]

/-- The symbol bytes of a written region are there. -/
theorem State.symBytes_isSome {s : State} {r : Region} (h : s.regionWritten r) : (s.symBytes r).isSome = true := by
  refine gather_isSome _ fun o ho => ?_
  obtain ⟨i, hi, rfl⟩ := List.mem_map.1 ho
  exact State.symByte_isSome h (List.mem_range.1 hi)

/-- What a command of PROCESS between TAKE and RELEASE keeps: the held region stays held, and RDY is as it was. -/
def State.handoff (s : State) : Bool × Region × Bool := (s.held, s.heldSel, s.rdy)

section
variable {s : State}

/-- XFORM on a written held region completes and leaves it written. -/
theorem exec_xform_completes (hh : s.held = true) (hw : s.regionWritten s.heldSel) :
    ∃ t, exec .xform s = .next t ∧ t.handoff = s.handoff ∧ t.regionWritten s.heldSel := by
  obtain ⟨ws, hws⟩ := Option.isSome_iff_exists.1 (s.loadRegion_isSome _ hw)
  refine ⟨(s.storeRegion s.heldSel (xform ws)).reply true 0, ?_, rfl, fun i hi => ?_⟩
  · simp only [exec, execXform, onHeld_held _ _ hh, hws, withValue_some, Machine.done]
  · exact s.written_storeRegion _ _ _ _ (hw i hi)

/-- DECODE on a written held region completes. -/
theorem exec_decodeFrame_completes (hh : s.held = true) (hw : s.regionWritten s.heldSel) :
    ∃ t, exec .decodeFrame s = .next t ∧ t.handoff = s.handoff := by
  obtain ⟨e, he⟩ := Option.isSome_iff_exists.1 (State.binEnergy_isSome hw (Nat.lt_of_succ_le s.cfg.bin_bounds.2))
  obtain ⟨vs, hvs⟩ := Option.isSome_iff_exists.1
    (State.symBytes_isSome (s := s.setReference e) (r := s.heldSel) hw)
  refine ⟨((s.setReference e).setFrame vs).reply true e, ?_, rfl⟩
  simp only [exec, execDecodeFrame, onHeld_held _ _ hh, he, hvs, withValue_some, Machine.done]

/-- VALIDATE completes. -/
theorem exec_validate_completes : ∃ t, exec .validate s = .next t ∧ t.handoff = s.handoff := ⟨_, rfl, rfl⟩

/-- EMIT completes, with a match or without. -/
theorem exec_emit_completes : ∃ t, exec .emit s = .next t ∧ t.handoff = s.handoff := by
  cases h : s.matched with
  | true => exact ⟨_, if_pos h, rfl⟩
  | false => exact ⟨_, if_neg (Bool.eq_false_iff.1 h), rfl⟩

/-- One iteration of PROCESS on a region that is ready and whole: every command completes, and the region is given
back. -/
theorem execAll_process_completes (hr : s.rdy = true) (hw : s.regionWritten s.rdySel) :
    ∃ u t, exec .take s = .next u ∧ execAll [.xform, .decodeFrame, .validate, .emit, .release] u = .next t ∧
      t.held = false ∧ t.heldSel = s.rdySel ∧ t.rdy = false := by
  obtain ⟨t1, h1, k1, hw1⟩ := exec_xform_completes
    (s := ({ s with held := true, heldSel := s.rdySel, rdy := false } : State).reply true (zext32 s.rdySel.select))
    rfl hw
  obtain ⟨hheld, hsel, -⟩ : t1.held = true ∧ t1.heldSel = s.rdySel ∧ t1.rdy = false := by
    simpa [State.handoff] using k1
  obtain ⟨t2, h2, k2⟩ := exec_decodeFrame_completes hheld (hsel.symm ▸ hw1)
  obtain ⟨t3, h3, k3⟩ := exec_validate_completes (s := t2)
  obtain ⟨t4, h4, k4⟩ := exec_emit_completes (s := t3)
  have hkept := k4.trans (k3.trans (k2.trans k1))
  simp only [State.handoff, Prod.mk.injEq] at hkept
  obtain ⟨-, hsel4, hrdy4⟩ := hkept
  refine ⟨_, ({ t4 with held := false } : State).reply true 0, exec_take_ready hr, ?_, rfl, hsel4, hrdy4⟩
  simp only [execAll, h1, h2, h3, h4]
  rfl

end

/-! ### PROCESS does not depend on what an earlier iteration left (R186) -/

/-- The state with EREF, the limits, SYM, CKACC and MATCH as `l` has them. -/
def State.withLeftoversOf (l s : State) : State :=
  { s with eref := l.eref, lim1 := l.lim1, lim2 := l.lim2, lim3 := l.lim3, sym := l.sym, ckacc := l.ckacc,
           matched := l.matched }

theorem unseen_withLeftoversOf (l : State) : Unseen (State.withLeftoversOf l) :=
  ⟨fun _ => rfl, fun _ => rfl, fun _ _ _ => rfl, fun _ _ => rfl⟩

/-- The state with another checksum accumulator. -/
def State.withCkacc (c : Word16) (s : State) : State := { s with ckacc := c }

theorem exec_take_withLeftoversOf (l s : State) :
    exec .take (State.withLeftoversOf l s) = mapNext (State.withLeftoversOf l) (exec .take s) := by
  simp only [exec, execTake]
  exact ite_eq_apply_ite rfl rfl

theorem exec_xform_withLeftoversOf (l s : State) :
    exec .xform (State.withLeftoversOf l s) = mapNext (State.withLeftoversOf l) (exec .xform s) := by
  simp only [exec, execXform]
  exact (unseen_withLeftoversOf l).onHeld fun _ => withValue_mapNext _ fun _ => rfl

/-- DECODE of a held region writes every leftover but CKACC, from the words of the region alone. -/
theorem exec_decodeFrame_withLeftoversOf (l : State) {s : State} (hh : s.held = true) :
    exec .decodeFrame (State.withLeftoversOf l s) = mapNext (State.withCkacc l.ckacc) (exec .decodeFrame s) := by
  simp only [exec, execDecodeFrame, onHeld_held s _ hh, onHeld_held (State.withLeftoversOf l s) _ hh]
  exact withValue_mapNext _ fun _ => withValue_mapNext _ fun _ => rfl

/-- VALIDATE starts its own accumulator (R166). -/
theorem exec_validate_withCkacc (c : Word16) (s : State) : exec .validate (s.withCkacc c) = exec .validate s := rfl

/-- Two sequences agree when their first operations differ by an update that the rest does not see. -/
theorem execAll_cons_congr {i : Instr} {is : List Instr} {s u : State} {g : State → State}
    (h : exec i u = mapNext g (exec i s)) (hrest : ∀ t, exec i s = .next t → execAll is (g t) = execAll is t) :
    execAll (i :: is) u = execAll (i :: is) s := by
  simp only [execAll, h]
  cases hx : exec i s with
  | next t => exact hrest t hx
  | fault | refused => rfl

/-- XFORM keeps HELD, whether or not it completes. -/
theorem exec_xform_held {s t : State} (h : exec .xform s = .next t) : t.held = s.held := by
  simp only [exec, execXform] at h
  obtain ⟨-, ht⟩ | ⟨-, h⟩ := (onHeld_next _ _ _).1 h
  · rw [ht]; rfl
  · obtain ⟨ws, -, h⟩ := (withValue_next _ _ _).1 h
    rw [(done_next _ _ _ _).1 h]
    rfl

/-- An iteration that takes a region does the same whatever an earlier one left: DECODE and VALIDATE write each leftover
before it is read. -/
theorem execAll_process_withLeftoversOf (l : State) {s : State} (hr : s.rdy = true) :
    execAll [.take, .xform, .decodeFrame, .validate, .emit, .release] (State.withLeftoversOf l s) =
      execAll [.take, .xform, .decodeFrame, .validate, .emit, .release] s := by
  refine execAll_cons_congr (exec_take_withLeftoversOf l s) fun t1 h1 => ?_
  refine execAll_cons_congr (exec_xform_withLeftoversOf l t1) fun t2 h2 => ?_
  have hheld : t2.held = true := by
    obtain rfl := Host.Outcome.next.inj ((exec_take_ready hr).symm.trans h1)
    exact exec_xform_held h2
  refine execAll_cons_congr (exec_decodeFrame_withLeftoversOf l hheld) fun t3 _ => ?_
  simp only [execAll, exec_validate_withCkacc]

/-- Settles O6, clause by clause: by induction on the events, on the lines, by completion of each command of PROCESS, by
induction on the turns spent at WAITRDY, and by independence of the leftovers. -/
theorem runPerformsEventsInOrder : Obligations.RunPerformsEventsInOrder := by
  refine ⟨run_of_performAll, Run.turns_events, fun s rest hinv hr => ?_, fun s rest n hr => ?_,
    fun s eref lim1 lim2 lim3 sym ckacc matched hr => ?_⟩
  · obtain ⟨u, t, htake, htail, hheld, hsel, hrdy⟩ := execAll_process_completes hr (hinv.readyWritten hr)
    refine ⟨t, execAll_cons_eq_next.2 ⟨u, htake, htail⟩, hheld, hsel, hrdy, ?_⟩
    exact (Run.turns_cons_next (Run.turn_waitrdy_take hr htake _) _).trans
      (Run.turns_commands _ rest u t (by decide) htail)
  · obtain ⟨a, ha⟩ := Run.turns_waitrdy_idle n _ s hr
    exact ⟨_, ha, rfl, rfl⟩
  · exact execAll_process_withLeftoversOf { s with eref, lim1, lim2, lim3, sym, ckacc, matched } hr

/-! ### Configurations (R6) -/

/-- A configuration comes back from the check exactly when it passes it. -/
theorem check_admits_iff_wf (c : Config) : (∃ w : WfConfig, c.check = some w ∧ w.toConfig = c) ↔ c.wf = true := by
  constructor
  · rintro ⟨w, -, rfl⟩
    exact w.ok
  · intro h
    exact ⟨⟨c, h⟩, (c.check_eq_some _).2 rfl, rfl⟩

/-- Settles O9: the clauses of `Config.wf_iff`, with `x + 1 ≤ L/2` for `x ≤ L/2 - 1`. -/
theorem configurationAdmittedExactlyWhenWellFormed : Obligations.ConfigurationAdmittedExactlyWhenWellFormed := by
  intro c
  rw [check_admits_iff_wf, Config.wf_iff]
  simp only [Config.shift, Config.bufLen, Config.f0, Config.stride, Config.rBin, true_and]
  generalize 2 ^ c.log2L = L
  omega

end Sys2Proof.Machine
end

section
/-! PROOFS. The registers RDSR reads and the STATUS view (spec/10_state.md R40, R42, spec/44_system.md R181). -/

namespace Sys2Proof

/-- NSYM is small, since every symbol has its bins (R6 (f)). -/
theorem WfConfig.nsym_le (c : WfConfig) : c.nsym ≤ 512 := by
  have h1 := c.bin_bounds.1
  have h2 := c.bufLen_bounds
  simp only [Config.f0, Config.stride] at h1
  omega

end Sys2Proof

namespace Sys2Proof.Machine

/-! ### RDSR and STATUS (R40, R42) -/

/-- RDSR at an index of the map. -/
theorem exec_rdsr_mapped {s : State} {a : Word16} {v : Word32} (h : s.register a.toNat = some v) :
    exec (.rdsr a) s = .next (s.reply true v) := by
  simp only [exec, execRdsr, unsigned16, h, Machine.done]

theorem Region.select_toNat (r : Region) : r.select.toNat = if r = .B then 1 else 0 := by cases r <;> rfl

theorem ofBool_toNat (b : Bool) : (BitVec.ofBool b).toNat = if b = true then 1 else 0 := by cases b <;> rfl

theorem State.full_eq_true (s : State) : s.full = true ↔ s.cur.toNat = 2 ^ s.cfg.log2L := by
  simp only [State.full, Config.bufLen, beq_iff_eq]

/-- STATUS as a number: each field at the weight of its lowest bit (R40). -/
theorem State.status_toNat (s : State) : s.status.toNat =
    s.st.code.toNat + (if s.act = .B then 4 else 0) + (if s.rdy = true then 8 else 0) +
    (if s.rdySel = .B then 16 else 0) + (if s.held = true then 32 else 0) + (if s.heldSel = .B then 64 else 0) +
    (if s.matched = true then 128 else 0) + (if s.cur.toNat = 2 ^ s.cfg.log2L then 256 else 0) := by
  have happend : s.status.toNat = (0#23 ++ BitVec.ofBool s.full ++ BitVec.ofBool s.matched ++ s.heldSel.select ++
    BitVec.ofBool s.held ++ s.rdySel.select ++ BitVec.ofBool s.rdy ++ s.act.select ++ s.st.code).toNat := rfl
  rw [happend]
  simp only [toNat_append_eq, ofBool_toNat, Region.select_toNat, State.full_eq_true, BitVec.toNat_ofNat]
  split_ifs <;> omega

/-- Settles O15: RDSR 0 answers `State.status`, whose value is `State.status_toNat`. -/
theorem statusHasTheLayoutOfItsFields : Obligations.StatusHasTheLayoutOfItsFields := by
  refine ⟨fun s => ⟨s.status, exec_rdsr_mapped rfl, ?_⟩, fun c => ?_⟩
  · rw [State.status_toNat]
    cases s.st <;> rfl
  · have hstatus : (State.resetWith c).status = 0 := by
      apply BitVec.eq_of_toNat_eq
      rw [State.status_toNat]
      simp [State.resetWith, SigState.code, (Nat.two_pow_pos c.log2L).ne]
    rw [exec_rdsr_mapped (v := (State.resetWith c).status) rfl, hstatus]
    rfl

/-- RDSR at index `k` answers ok with the value `n` and writes nothing (R181). -/
def RdsrAnswers (s : State) (k n : Nat) : Prop :=
  ∃ v : Word32, exec (.rdsr (BitVec.ofNat 16 k)) s = .next (s.reply true v) ∧ v.toNat = n

/-- A register of at most 32 bits, zero-extended, answers its value. -/
theorem RdsrAnswers.zext {s : State} {k w : Nat} (x : BitVec w) (hw : w ≤ 32)
    (h : s.register (BitVec.ofNat 16 k).toNat = some (zext32 x)) : RdsrAnswers s k x.toNat :=
  ⟨_, exec_rdsr_mapped h, BitVec.toNat_setWidth_of_le hw⟩

/-- A register of 32 bits answers its value. -/
theorem RdsrAnswers.word {s : State} {k : Nat} (x : Word32)
    (h : s.register (BitVec.ofNat 16 k).toNat = some x) : RdsrAnswers s k x.toNat := ⟨x, exec_rdsr_mapped h, rfl⟩

/-- A parameter of the configuration answers its value: a parameter of R5 fits 32 bits. -/
theorem RdsrAnswers.param {s : State} {k n : Nat} (hn : n ≤ 65535)
    (h : s.register (BitVec.ofNat 16 k).toNat = some (BitVec.ofNat 32 n)) : RdsrAnswers s k n :=
  ⟨_, exec_rdsr_mapped h, by rw [BitVec.toNat_ofNat]; omega⟩

/-- SHIFT as RDSR 17 reads it, sign-extended. -/
theorem shift_toInt (c : WfConfig) : (BitVec.ofInt 32 c.shift).toInt = 6 - (c.log2L : Int) := by
  have := c.log2L_bounds
  rw [BitVec.toInt_ofInt, Config.shift]
  apply Int.bmod_eq_of_le <;> norm_num <;> omega

/-- The indices outside the map (R42). -/
theorem State.register_of_unmapped (s : State) {a : Nat} (h : (9 ≤ a ∧ a ≤ 15) ∨ 28 ≤ a) : s.register a = none := by
  cases hr : s.register a with
  | none => rfl
  | some v => have := register_eq_some s a v hr; omega

/-- A flag answers 0 or 1. -/
theorem RdsrAnswers.flag {s : State} {k : Nat} (b : Bool)
    (h : s.register (BitVec.ofNat 16 k).toNat = some (zext32 (BitVec.ofBool b))) : RdsrAnswers s k b.toNat :=
  BitVec.toNat_ofBool b ▸ .zext _ (by omega) h

theorem RdsrAnswers.of_mem {s : State} {k n : Nat} {l : List (Nat × Nat)} (h : (k, n) ∈ l)
    (hl : ∀ p ∈ l, RdsrAnswers s p.1 p.2) : RdsrAnswers s k n := hl _ h

/-- Settles O16: the registers read as natural numbers one by one, SHIFT, and the indices outside the map. -/
theorem rdsrReadsTheRegisterMap : Obligations.RdsrReadsTheRegisterMap := by
  intro s
  refine ⟨exec_rdsr_mapped rfl, fun k n h => RdsrAnswers.of_mem h ?_,
    ⟨_, exec_rdsr_mapped rfl, shift_toInt s.cfg⟩, fun a ha => ?_⟩
  · obtain ⟨-, hlog2L⟩ := s.cfg.log2L_bounds
    obtain ⟨-, hlow, hhigh⟩ := s.cfg.threshold_bounds
    obtain ⟨-, hsilence, -, hguard⟩ := s.cfg.count_bounds
    have hnsym := s.cfg.nsym_le
    simp only [List.forall_mem_cons, List.not_mem_nil, false_imp_iff, forall_const, and_true]
    exact ⟨.zext s.fault (by omega) rfl, .zext s.cur (by omega) rfl, .zext s.cnt (by omega) rfl, .word s.eref rfl,
      .word s.lim1 rfl, .word s.lim2 rfl, .word s.lim3 rfl, .zext s.ckacc (by omega) rfl,
      .param (by omega) rfl, .param (by omega) rfl, .param (by omega) rfl, .param (by omega) rfl,
      .param (by omega) rfl, .param (by omega) rfl, .zext Config.poly (by omega) rfl, .param (by omega) rfl,
      .param (by omega) rfl, .param (by omega) rfl, .flag s.cfg.emitFirstOnly rfl⟩
  · simp only [exec, execRdsr, unsigned16, s.register_of_unmapped ha]
    rfl

end Sys2Proof.Machine
end

section
/-! PROOFS. What an event can do, the FAULT bits and the verdict of a run, RDY and the hold of WAITRDY, the active region
and the cursor (spec/10_state.md R24 to R27, R39, R41, spec/60_exceptions.md R191 to R196, R206). -/

namespace Sys2Proof.Machine

/-! ### The response is an output (R39) -/

/-- The state with another last response. -/
def State.withResponse (r : Option Response) (s : State) : State := { s with response := r }

theorem startCapture_withResponse (r : Option Response) (s : State) :
    startCapture (s.withResponse r) = (startCapture s).withResponse r := by
  have hcond : ((s.withResponse r).held && (s.withResponse r).heldSel == (s.withResponse r).act.other) =
      (s.held && s.heldSel == s.act.other) := rfl
  unfold startCapture
  rw [hcond]
  cases s.held && s.heldSel == s.act.other <;> rfl

/-- The state rule of a tick carries the response along. -/
theorem tickState_withResponse (raw : Reading) (r : Option Response) (s : State) :
    tickState raw (s.withResponse r) = (tickState raw s).withResponse r := by
  have hst : (s.withResponse r).st = s.st := rfl
  unfold tickState
  rw [hst]
  cases s.st with
  | searchingSilence => exact ite_eq_apply_ite (g := State.withResponse r) rfl rfl
  | searchingBurstStart => exact ite_eq_apply_ite (g := State.withResponse r) rfl rfl
  | guarding => exact ite_eq_apply_ite (startCapture_withResponse r { s with cnt := s.cnt - 1 }) rfl
  | capturing => exact ite_eq_apply_ite (g := State.withResponse r) rfl rfl

/-- Settles O7: a command and a reset overwrite the response unread; a tick clears it after its state rule has carried it
along. -/
theorem noOperationReadsAResponse : Obligations.NoOperationReadsAResponse := by
  intro i s r
  cases i with
  | nop | smul | sqr | magsq | take | release | lds | sts | xform | thresh | setref | qe | qbin | qsym | decodeFrame
  | ckinit | ckbyte | ckfin | ckcmp | validate | emit | rdsr | rdsym | wrsym | reset => rfl
  | tick raw =>
    have h := congrArg State.noReply (tickState_withResponse raw r s)
    exact congrArg Host.Outcome.next h

/-! ### The state rule of a tick, by state (R110) -/

theorem tickState_searchingSilence (raw : Reading) {s : State} (h : s.st = .searchingSilence) :
    tickState raw s = tickSilence raw s := by simp only [tickState, h]

theorem tickState_searchingBurstStart (raw : Reading) {s : State} (h : s.st = .searchingBurstStart) :
    tickState raw s = tickBurstStart raw s := by simp only [tickState, h]

theorem tickState_capturing (raw : Reading) {s : State} (h : s.st = .capturing) :
    tickState raw s = tickCapturing raw s := by simp only [tickState, h]

/-- A tick in GUARD before the last one counts down (R114). -/
theorem tickState_guarding (raw : Reading) {s : State} (hst : s.st = .guarding) (hcnt : s.cnt.toNat ≠ 1) :
    tickState raw s = { s with cnt := s.cnt - 1 } := by
  simp only [tickState, hst, tickGuard]
  exact if_neg (mt (cnt_sub_one_eq_zero _).1 hcnt)

/-- The last tick of GUARD starts the capture (R114). -/
theorem tickState_last_guard (raw : Reading) {s : State} (hst : s.st = .guarding) (hcnt : s.cnt.toNat = 1) :
    tickState raw s = startCapture { s with cnt := s.cnt - 1 } := by
  simp only [tickState, hst, tickGuard]
  exact if_pos ((cnt_sub_one_eq_zero _).2 hcnt)

/-! ### What an event can do -/

/-- A command word decodes to a command (R75). -/
theorem isCommand_of_decode {w : CommandWord} {i : Instr} (h : decode (.command w) = .ok i) : i.isCommand = true := by
  simp only [decode, decodeCommand] at h
  split at h <;> cases h <;> rfl

/-- The four ways an event ends in a next state. -/
inductive EventOutcome (e : Event) (s t : State) : Prop where
  /-- A command that is in the opcode map. -/
  | command (i : Instr) (hd : decode e = .ok i) (hi : i.isCommand = true) (ho : CommandOutcome i s t)
  /-- A command word with a reserved op. -/
  | illegal (w : CommandWord) (he : e = .command w) (ht : t = s.raise .ill)
  | tick (raw : Reading) (he : e = .tick raw) (ht : t = (tickState raw s).noReply)
  | reset (he : e = .reset) (ht : t = (State.resetWith s.cfg).withInbox s.inbox)

/-- Every next state of an event is one of the four outcomes. -/
theorem perform_outcome {e : Event} {s t : State} (h : perform e s = .next t) : EventOutcome e s t := by
  cases e with
  | command w =>
    unfold perform at h
    split at h
    next i hd => exact .command i hd (isCommand_of_decode hd) (exec_command_outcome i s t (isCommand_of_decode hd) h)
    next => exact .illegal w rfl ((faulted_next _ _ _).1 h)
  | tick raw => exact .tick raw rfl (Host.Outcome.next.inj h).symm
  | reset => exact .reset rfl (Host.Outcome.next.inj h).symm

theorem hasFault_resetWith (c : WfConfig) (f : FaultBit) : (State.resetWith c).hasFault f = false := by
  simp [State.hasFault, State.resetWith]

/-- What every command keeps, an illegal one included (R26, R29, R200): the tick agent's registers; FAULT.OVR; RDY but
for a TAKE, which moves the ready region to the held one; the memory outside the held region. -/
structure CommandKeeps (s t : State) : Prop where
  st : t.st = s.st
  cnt : t.cnt = s.cnt
  cur : t.cur = s.cur
  act : t.act = s.act
  rdySel : t.rdySel = s.rdySel
  cfg : t.cfg = s.cfg
  ovr : t.hasFault .ovr = s.hasFault .ovr
  rdy : t.rdy = true → s.rdy = true
  held : t.held = true → (s.held = true ∧ t.heldSel = s.heldSel) ∨ (s.rdy = true ∧ t.heldSel = s.rdySel)
  mem : ∀ a, t.mem.readByte a ≠ s.mem.readByte a → inRegion s.cfg.toConfig s.heldSel a

/-- A fault other than FAULT.OVR, which no command raises. -/
theorem CommandKeeps.of_raise (s : State) {f : FaultBit} (hf : f ≠ .ovr) : CommandKeeps s (s.raise f) where
  st := rfl
  cnt := rfl
  cur := rfl
  act := rfl
  rdySel := rfl
  cfg := rfl
  ovr := by rw [hasFault_raise, decide_eq_false hf.symm, Bool.or_false]
  rdy := id
  held := fun h => .inl ⟨h, rfl⟩
  mem := fun _ h => absurd rfl h

/-- Every outcome of a command keeps it. -/
theorem CommandOutcome.keeps {i : Instr} {s t : State} (h : CommandOutcome i s t) : CommandKeeps s t := by
  cases h with
  | ok hd =>
    refine ⟨hd.st, hd.cnt, hd.cur, hd.act, hd.rdySel, hd.cfg, hasFault_congr _ _ hd.fault _, ?_, ?_,
      fun a ha => (hd.mem a ha).2⟩
    · obtain ⟨-, hr, -⟩ | ⟨-, hr, -⟩ := hd.rdy
      · exact fun _ => hr
      · exact fun h => hr ▸ h
    · obtain ⟨-, hr, -, -, hsel⟩ | ⟨-, -, hsel, hheld | hheld⟩ := hd.rdy
      · exact fun _ => .inr ⟨hr, hsel⟩
      · exact fun h => .inl ⟨hheld ▸ h, hsel⟩
      · exact fun h => absurd h (by simp [hheld])
  | noheld _ _ ht => exact ht ▸ .of_raise s (by decide)
  | range _ _ ht => exact ht ▸ .of_raise s (by decide)
  | idle _ _ ht =>
    subst ht
    exact ⟨rfl, rfl, rfl, rfl, rfl, rfl, rfl, id, fun h => .inl ⟨h, rfl⟩, fun _ h => absurd rfl h⟩

/-- Only TAKE clears RDY among the commands (R26). -/
theorem CommandOutcome.eq_take_of_rdy_cleared {i : Instr} {s t : State} (h : CommandOutcome i s t)
    (hs : s.rdy = true) (ht : t.rdy = false) : i = .take := by
  cases h with
  | ok hd =>
    obtain ⟨hi, -⟩ | ⟨-, hr, -⟩ := hd.rdy
    · exact hi
    · rw [hr, hs] at ht; cases ht
  | noheld _ _ h => rw [h, State.raise_rdy, hs] at ht; cases ht
  | range _ _ h => rw [h, State.raise_rdy, hs] at ht; cases ht
  | idle hi => exact hi

/-! ### Which operation sets which FAULT bit (R193 to R196) -/

/-- The row of a FAULT bit: what makes an operation set it. -/
def FaultCause (s : State) (i : Instr) : FaultBit → Prop
  | .ill => False
  | .noheld => accessesHeld i = true ∧ s.held = false
  | .range => indexOutOfRange s i ∧ ¬ (accessesHeld i = true ∧ s.held = false)
  | .ovr => (∃ raw, i = .tick raw) ∧ s.st = .guarding ∧ s.cnt.toNat = 1 ∧ s.held = true ∧ s.heldSel ≠ s.act

/-- The FAULT bits after a command. -/
theorem CommandOutcome.hasFault_iff {i : Instr} {s t : State} (h : CommandOutcome i s t) (hi : i.isCommand = true)
    (f : FaultBit) : t.hasFault f = true ↔ s.hasFault f = true ∨ FaultCause s i f := by
  have htick : ¬ ∃ raw, i = .tick raw := by rintro ⟨raw, rfl⟩; cases hi
  cases h with
  | ok hd =>
    rw [hasFault_congr _ _ hd.fault]
    cases f <;> simp [FaultCause, hd.onHeld, hd.inRange, htick]
  | noheld ha hh ht =>
    rw [ht, hasFault_raise]
    cases f <;> simp [FaultCause, ha, hh, htick]
  | range hr hn ht =>
    rw [ht, hasFault_raise]
    cases f <;> simp [FaultCause, hr, hn, htick]
  | idle hi hr ht =>
    subst ht hi
    cases f <;> simp [FaultCause, accessesHeld, indexOutOfRange, State.hasFault]

/-- The FAULT bits after a tick. -/
theorem tickState_hasFault_iff (raw : Reading) (s : State) (f : FaultBit) :
    (tickState raw s).hasFault f = true ↔ s.hasFault f = true ∨ FaultCause s (.tick raw) f := by
  rw [tickState_hasFault]
  cases f <;> simp [FaultCause, accessesHeld, indexOutOfRange]

/-- A bit that was clear is set by exactly the operations of its row. -/
theorem exec_sets_fault_iff {i : Instr} {s t : State} (h : exec i s = .next t) {f : FaultBit}
    (hf : s.hasFault f = false) : t.hasFault f = true ↔ FaultCause s i f := by
  have hclear : ¬ s.hasFault f = true := Bool.eq_false_iff.1 hf
  obtain ⟨hi, ho⟩ | ⟨raw, rfl, rfl⟩ | ⟨rfl, rfl⟩ := exec_outcome i s t h
  · exact (ho.hasFault_iff hi f).trans (or_iff_right hclear)
  · exact (tickState_hasFault_iff raw s f).trans (or_iff_right hclear)
  · have hreset : ((State.resetWith s.cfg).withInbox s.inbox).hasFault f = false := hasFault_resetWith s.cfg f
    refine iff_of_false (Bool.eq_false_iff.1 hreset) ?_
    cases f <;> simp [FaultCause, accessesHeld, indexOutOfRange]

/-- Settles O53: `exec_sets_fault_iff`, bit by bit. -/
theorem faultBitsAreSetExactlyAsListed : Obligations.FaultBitsAreSetExactlyAsListed := by
  intro i s t h
  exact ⟨fun hf => Bool.eq_false_iff.2 (mt (exec_sets_fault_iff h hf).1 id), exec_sets_fault_iff h,
    exec_sets_fault_iff h, exec_sets_fault_iff h⟩

/-! ### FAULT bits are sticky, and with FAULT.OVR the verdict of a run (R41, R206) -/

/-- No event but RESET clears a FAULT bit. -/
theorem perform_keeps_fault {e : Event} {s t : State} (h : perform e s = .next t) (he : e ≠ .reset) {f : FaultBit}
    (hf : s.hasFault f = true) : t.hasFault f = true := by
  cases perform_outcome h with
  | command i _ hi ho => exact (ho.hasFault_iff hi f).2 (.inl hf)
  | illegal w _ ht => rw [ht, hasFault_raise, hf, Bool.true_or]
  | tick raw _ ht => exact ht ▸ (tickState_hasFault_iff raw s f).2 (.inl hf)
  | reset hr _ => exact absurd hr he

theorem Run.faultedAfter_of_ne_reset (r : Run) {e : Event} (he : e ≠ .reset) (t : State) :
    r.faultedAfter e t = (r.faulted || t.hasFault .ovr) := by
  cases e with
  | command | tick => rfl
  | reset => exact absurd rfl he

/-- One event of a run: it is performed on the block, no line is added, and it is a RESET only where `hreset` says. -/
theorem Run.perform_cases {r u : Run} {e : Event} {todo : State → List Line} {p : Prop}
    (h : r.perform e todo = .next u) (htodo : ∀ t, todo t ⊆ r.todo) (hreset : e = .reset → p) :
    ∃ e t todo, Machine.perform e r.state = .next t ∧ u = ⟨t, todo, r.faultedAfter e t⟩ ∧ todo ⊆ r.todo ∧
      (e = .reset → p) := by
  obtain ⟨t, hp, hu⟩ := (Run.perform_next _ _ _ _).1 h
  exact ⟨e, t, todo t, hp, hu, htodo t, hreset⟩

/-- What one turn of a run does: nothing at the end of the program, else one event, which is a RESET only where the
environment or the next line is one; no line is added. -/
theorem Run.turn_cases {τ : Turn} {r u : Run} (h : r.turn τ = .next u) :
    u = r ∨ ∃ e t todo, Machine.perform e r.state = .next t ∧ u = ⟨t, todo, r.faultedAfter e t⟩ ∧ todo ⊆ r.todo ∧
      (e = .reset → τ = .reset ∨ Line.event .reset ∈ r.todo) := by
  cases τ with
  | tick raw =>
    exact .inr (Run.perform_cases (e := .tick raw) (todo := fun _ => r.todo) h (fun _ => List.Subset.refl _) (by simp))
  | reset =>
    exact .inr (Run.perform_cases (e := .reset) (todo := fun _ => r.todo) h (fun _ => List.Subset.refl _)
      fun _ => .inl rfl)
  | line =>
    obtain ⟨s, todo, b⟩ := r
    cases todo with
    | nil => exact .inl (Host.Outcome.next.inj h).symm
    | cons l rest =>
      cases l with
      | event e =>
        exact .inr (Run.perform_cases (todo := fun _ => rest) h (fun _ => List.subset_cons_self _ _)
          fun he => .inr (he ▸ List.mem_cons_self))
      | waitrdy =>
        refine .inr (Run.perform_cases (e := encode .take)
          (todo := fun t => if t.answeredOk then rest else .waitrdy :: rest) h (fun t => ?_) nofun)
        cases t.answeredOk with
        | true => exact List.subset_cons_self _ _
        | false => exact List.Subset.refl _

/-- What every turn of a list keeps holds after all of them. -/
theorem Run.turns_induction {P : Run → Prop} {τs : List Turn} {r u : Run} (h : Run.turns τs r = .next u) (hr : P r)
    (hturn : ∀ τ ∈ τs, ∀ r u : Run, r.turn τ = .next u → P r → P u) : P u := by
  induction τs generalizing r with
  | nil => exact Host.Outcome.next.inj h ▸ hr
  | cons τ τs ih =>
    simp only [Run.turns] at h
    split at h
    next v hv =>
      exact ih h (hturn τ List.mem_cons_self r v hv hr) fun σ hσ => hturn σ (List.mem_cons_of_mem τ hσ)
    all_goals cases h

/-- A turn that is no RESET keeps a faulted run faulted. -/
theorem Run.turn_keeps_faulted {τ : Turn} {r u : Run} (h : r.turn τ = .next u) (hτ : τ ≠ .reset)
    (hr : r.faulted = true ∧ Line.event .reset ∉ r.todo) : u.faulted = true ∧ Line.event .reset ∉ u.todo := by
  obtain rfl | ⟨e, t, todo, -, rfl, htodo, hreset⟩ := Run.turn_cases h
  · exact hr
  · obtain ⟨hf, hno⟩ := hr
    have he : e ≠ .reset := fun he => (hreset he).elim hτ hno
    exact ⟨by rw [r.faultedAfter_of_ne_reset he, hf, Bool.true_or], fun hm => hno (htodo hm)⟩

/-- A turn keeps the mark of a run equal to FAULT.OVR: RESET clears both, no other event clears FAULT.OVR. -/
theorem Run.turn_keeps_faulted_eq_ovr {τ : Turn} {r u : Run} (h : r.turn τ = .next u)
    (hr : r.faulted = r.state.hasFault .ovr) : u.faulted = u.state.hasFault .ovr := by
  obtain rfl | ⟨e, t, todo, hp, rfl, -, -⟩ := Run.turn_cases h
  · exact hr
  · by_cases he : e = .reset
    · subst he
      obtain rfl := Host.Outcome.next.inj hp
      exact (hasFault_resetWith r.state.cfg .ovr).symm
    · rw [r.faultedAfter_of_ne_reset he, hr]
      cases ho : r.state.hasFault .ovr with
      | false => exact Bool.false_or _
      | true => exact (perform_keeps_fault hp he ho).symm

/-- Settles O51: stickiness by event, the tick that breaks the contract, and two inductions over the turns of a
run. -/
theorem faultBitsAreSticky : Obligations.FaultBitsAreSticky := by
  refine ⟨fun e s t f h he hf => perform_keeps_fault h he hf, fun r raw hst hcnt hheld hsel => ?_,
    fun τs r u h hv hτs htodo => ?_, fun program s τs u h => ?_⟩
  · have hovr : (tickState raw r.state).hasFault .ovr = true :=
      (tickState_hasFault_iff raw r.state .ovr).2 (.inr ⟨⟨raw, rfl⟩, hst, hcnt, hheld, hsel⟩)
    refine ⟨_, Run.turn_tick r raw, (Run.verdict_faulted _).2 ?_, hovr, ?_, rfl⟩
    · exact Bool.or_eq_true_iff.2 (.inr hovr)
    · rw [State.noReply_st, tickState_last_guard raw hst hcnt]
      rfl
  · have hkept := Run.turns_induction h (P := fun r => r.faulted = true ∧ Line.event .reset ∉ r.todo)
      ⟨(Run.verdict_faulted r).1 hv, htodo⟩
      fun τ hτ _ _ hturn => Run.turn_keeps_faulted hturn fun hreset => hτs (hreset ▸ hτ)
    exact (Run.verdict_faulted u).2 hkept.1
  · have hmark := Run.turns_induction h (P := fun r => r.faulted = r.state.hasFault .ovr) rfl
      fun _ _ _ _ hturn => Run.turn_keeps_faulted_eq_ovr hturn
    rw [Run.verdict_faulted, Run.verdict_final, hmark]
    exact ⟨Iff.rfl, Iff.rfl⟩

/-! ### RDY, and the hold of WAITRDY (R26, R184) -/

/-- RDY changes at the buffer-full tick, at TAKE and at RESET alone. -/
theorem perform_rdy {e : Event} {s t : State} (h : perform e s = .next t) :
    (s.rdy = false → t.rdy = true → (∃ raw, e = .tick raw) ∧ s.atBufferFull ∧ t.rdySel = s.act) ∧
    (s.rdy = true → t.rdy = false → decode e = .ok .take ∨ e = .reset) := by
  cases perform_outcome h with
  | command i hd hi ho =>
    refine ⟨fun hs ht => ?_, fun hs ht => .inl (ho.eq_take_of_rdy_cleared hs ht ▸ hd)⟩
    exact absurd (ho.keeps.rdy ht) (Bool.eq_false_iff.1 hs)
  | illegal w _ ht =>
    subst ht
    exact ⟨fun hs ht => absurd ht (Bool.eq_false_iff.1 hs), fun hs ht => absurd hs (Bool.eq_false_iff.1 ht)⟩
  | tick raw he ht =>
    subst ht
    obtain ⟨hr, -, -⟩ | ⟨hr, hsel, hfull⟩ := tickState_rdy raw s
    · exact ⟨fun hs ht => absurd (hr ▸ ht) (Bool.eq_false_iff.1 hs),
        fun hs ht => absurd (hr.trans hs) (Bool.eq_false_iff.1 ht)⟩
    · exact ⟨fun _ _ => ⟨⟨raw, he⟩, hfull, hsel⟩, fun _ ht => absurd hr (Bool.eq_false_iff.1 ht)⟩
  | reset he ht =>
    subst ht
    exact ⟨fun _ ht => (nomatch ht), fun _ _ => .inr he⟩

/-- The buffer-full tick sets RDY. -/
theorem tickState_rdy_of_atBufferFull (raw : Reading) {s : State} (h : s.atBufferFull) :
    (tickState raw s).rdy = true := by
  obtain ⟨-, -, hno⟩ | ⟨hr, -, -⟩ := tickState_rdy raw s
  · exact absurd h hno
  · exact hr

/-- A turn of a run on hold leaves its lines, and the hold is lifted by the buffer-full tick alone. -/
theorem Run.turn_onHold {r : Run} (τ : Turn) (h : r.onHold) : ∃ u : Run, r.turn τ = .next u ∧ u.todo = r.todo ∧
    (u.onHold ∨ (∃ raw, τ = .tick raw) ∧ r.state.atBufferFull ∧ u.state.rdy = true) := by
  obtain ⟨s, todo, b⟩ := r
  obtain ⟨⟨rest, rfl⟩, hr⟩ := h
  cases τ with
  | line => exact ⟨_, Run.turn_waitrdy_idle s rest b hr, rfl, .inl ⟨⟨rest, rfl⟩, hr⟩⟩
  | reset => exact ⟨_, Run.turn_reset _, rfl, .inl ⟨⟨rest, rfl⟩, rfl⟩⟩
  | tick raw =>
    refine ⟨_, Run.turn_tick _ raw, rfl, ?_⟩
    obtain ⟨hkept, -, -⟩ | ⟨hset, -, hfull⟩ := tickState_rdy raw s
    · exact .inl ⟨⟨rest, rfl⟩, hkept.trans hr⟩
    · exact .inr ⟨⟨raw, rfl⟩, hfull, hset⟩

/-- Settles O55: `perform_rdy`, and the turns of a run at a WAITRDY. -/
theorem rdyChangesOnlyAtBufferFullAndTake : Obligations.RdyChangesOnlyAtBufferFullAndTake := by
  refine ⟨fun e s t h => perform_rdy h, fun r τ h => Run.turn_onHold τ h, fun r raw _ hfull => ?_,
    fun r rest htodo => ?_⟩
  · refine ⟨_, Run.turn_tick r raw, fun hhold => ?_⟩
    exact absurd (tickState_rdy_of_atBufferFull raw hfull) (Bool.eq_false_iff.1 hhold.2)
  · obtain ⟨s, todo, b⟩ := r
    obtain rfl : todo = .waitrdy :: rest := htodo
    refine ⟨fun hr => ?_, fun hr => ⟨_, Run.turn_waitrdy_idle s rest b hr, rfl, rfl⟩⟩
    obtain ⟨t, htake, hturn⟩ := Run.turn_waitrdy_ready s rest b hr
    obtain rfl := Host.Outcome.next.inj ((exec_take_ready hr).symm.trans htake)
    exact ⟨_, hturn, rfl, exec_take_ready hr, rfl, rfl⟩

/-! ### The active region and the cursor (R24, R25) -/

/-- The cursor of a region that is not full does not wrap. -/
theorem State.cur_add_one {s : State} (h : s.cur.toNat < s.cfg.bufLen) : (s.cur + 1).toNat = s.cur.toNat + 1 := by
  obtain ⟨-, hlen, -⟩ := s.cfg.bufLen_bounds
  have hone : (1 : Word16).toNat = 1 := rfl
  rw [BitVec.toNat_add_of_lt (by omega), hone]

/-- A tick keeps the active region and does not move the cursor back, but where a capture starts. -/
theorem tickState_act_cur (raw : Reading) (s : State) :
    ((tickState raw s).act = s.act ∧ s.cur.toNat ≤ (tickState raw s).cur.toNat) ∨
    (s.st = .guarding ∧ s.cnt.toNat = 1 ∧ (tickState raw s).st = .capturing ∧
      (tickState raw s).act = s.act.other ∧ (tickState raw s).cur = 0) := by
  cases hst : s.st with
  | searchingSilence =>
    rw [tickState_searchingSilence raw hst, tickSilence]
    split <;> exact .inl ⟨rfl, le_rfl⟩
  | searchingBurstStart =>
    rw [tickState_searchingBurstStart raw hst, tickBurstStart]
    split <;> exact .inl ⟨rfl, le_rfl⟩
  | guarding =>
    by_cases hcnt : s.cnt.toNat = 1
    · rw [tickState_last_guard raw hst hcnt]
      exact .inr ⟨rfl, hcnt, rfl, rfl, rfl⟩
    · rw [tickState_guarding raw hst hcnt]
      exact .inl ⟨rfl, le_rfl⟩
  | capturing =>
    rw [tickState_capturing raw hst, tickCapturing]
    split
    next hlt => exact .inl ⟨rfl, (Nat.le_succ _).trans_eq (State.cur_add_one hlt).symm⟩
    next => exact .inl ⟨rfl, le_rfl⟩

/-- Settles O56: a command keeps both registers, and a tick moves them back at a capture start alone. -/
theorem regionsSwapOnlyAtCaptureStart : Obligations.RegionsSwapOnlyAtCaptureStart := by
  intro e s t h _ hmoved
  have hkept : ¬ (t.act = s.act ∧ s.cur.toNat ≤ t.cur.toNat) := fun ⟨hact, hcur⟩ =>
    hmoved.elim (absurd hact) (Nat.not_lt.2 hcur)
  cases perform_outcome h with
  | command i _ _ ho => exact absurd ⟨ho.keeps.act, (congrArg BitVec.toNat ho.keeps.cur).ge⟩ hkept
  | illegal w _ ht => exact absurd ⟨ht ▸ rfl, ht ▸ le_rfl⟩ hkept
  | reset he _ => exact .inl he
  | tick raw he ht =>
    subst ht
    obtain hk | ⟨hst, hcnt, hstart⟩ := tickState_act_cur raw s
    · exact absurd hk hkept
    · exact .inr ⟨⟨raw, he⟩, hst, hcnt, hstart⟩

end Sys2Proof.Machine
end

section
/-! PROOFS. The invariant of every reachable state holds at reset and every step keeps it (spec/10_state.md R32, R34,
spec/70_reset_and_hazards.md R211). -/

namespace Sys2Proof.Machine

/-! ### The invariant at reset -/

/-- CNT holds N_SILENCE and N_GUARD as they are (R6 (d)). -/
theorem toNat_ofNat16 {n : Nat} (h : n ≤ 65535) : (BitVec.ofNat 16 n).toNat = n := by
  rw [BitVec.toNat_ofNat]; omega

/-- Settles O47: nothing is written, ready or held, and the countdown starts at N_SILENCE. -/
theorem invariantHoldsAtReset : Obligations.InvariantHoldsAtReset := by
  intro c
  obtain ⟨hpos, hmax, -, -⟩ := c.count_bounds
  have hcnt := toNat_ofNat16 hmax
  exact {
    memOrdered := rfl
    memInside := fun _ _ => rfl
    cursorBound := Nat.zero_le _
    captureWritten := nofun
    readyWritten := nofun
    heldWritten := nofun
    silenceCount := fun _ => ⟨hpos.trans_eq hcnt.symm, hcnt.le⟩
    guardCount := nofun
    readySide := nofun
    heldApart := nofun
    limits := by simp [State.resetWith]
    ckaccLow := rfl
    symLength := List.length_replicate }

/-! ### What a command keeps of the data -/

/-- R34: the limits are those of EREF. -/
def State.LimitsOfReference (s : State) : Prop :=
  s.lim1.toNat = s.eref.toNat / 36 ∧ s.lim2.toNat = s.eref.toNat / 4 ∧ s.lim3.toNat = 25 * s.eref.toNat / 36

theorem State.limitsOfReference_setReference (s : State) (e : Word32) : (s.setReference e).LimitsOfReference :=
  ⟨limit1_toNat e, limit2_toNat e, limit3_toNat e⟩

/-- What a command keeps of memory and of the consumer's registers: the canonical form, written words, and the clauses
of R34, R36 and R163. -/
structure KeepsData (s t : State) : Prop where
  memOrdered : s.mem.wf = true → t.mem.wf = true
  written : ∀ r i, s.written r i = true → t.written r i = true
  limits : s.LimitsOfReference → t.LimitsOfReference
  ckaccLow : s.ckacc.extractLsb' 0 8 = 0 → t.ckacc.extractLsb' 0 8 = 0
  symLength : s.sym.length = s.cfg.nsym → t.sym.length = t.cfg.nsym

/-- A byte over a zero byte: the form every checksum command leaves in CKACC (R162 to R164). -/
theorem lowByte_append_zero (c : Byte) : (c ++ 0#8 : BitVec (8 + 8)).extractLsb' 0 8 = 0 :=
  BitVec.extractLsb'_append_eq_right

theorem lowByte_ckfeed (acc : Word16) (d : Byte) : (ckfeed acc d).extractLsb' 0 8 = 0 := by
  rw [ckfeed_eq]
  exact lowByte_append_zero _

namespace KeepsData

variable {s t u : State}

theorem trans (h : KeepsData s t) (h' : KeepsData t u) : KeepsData s u where
  memOrdered := h'.memOrdered ∘ h.memOrdered
  written := fun r i => h'.written r i ∘ h.written r i
  limits := h'.limits ∘ h.limits
  ckaccLow := h'.ckaccLow ∘ h.ckaccLow
  symLength := h'.symLength ∘ h.symLength

theorem refl (s : State) : KeepsData s s := ⟨id, fun _ _ => id, id, id, id⟩

/-- The response, HELD, HELDSEL, RDY, FAULT, MATCH and OUT are no part of it. -/
theorem of_same (h : (t.mem, t.eref, t.lim1, t.lim2, t.lim3, t.ckacc, t.sym, t.cfg) =
    (s.mem, s.eref, s.lim1, s.lim2, s.lim3, s.ckacc, s.sym, s.cfg)) : KeepsData s t := by
  simp only [Prod.mk.injEq] at h
  obtain ⟨hmem, heref, h1, h2, h3, hck, hsym, hcfg⟩ := h
  constructor <;> simp only [State.written, State.load, State.LimitsOfReference, hmem, heref, h1, h2, h3, hck, hsym, hcfg]
    <;> tauto

theorem store (s : State) (r : Region) (i : Nat) (v : Word16) : KeepsData s (s.store r i v) where
  memOrdered := Memory.writeWord_wf _ _ _
  written := fun r' j => s.written_store r r' i j v
  limits := id
  ckaccLow := id
  symLength := id

theorem storeRegion (s : State) (r : Region) (ws : List Word16) : KeepsData s (s.storeRegion r ws) where
  memOrdered := Memory.writeWords_wf _ _ _
  written := fun r' j => s.written_storeRegion r r' ws j
  limits := id
  ckaccLow := id
  symLength := id

theorem setReference (s : State) (e : Word32) : KeepsData s (s.setReference e) where
  memOrdered := id
  written := fun _ _ => id
  limits := fun _ => s.limitsOfReference_setReference e
  ckaccLow := id
  symLength := id

theorem withCkacc (s : State) {c : Word16} (hc : c.extractLsb' 0 8 = 0) : KeepsData s (s.withCkacc c) where
  memOrdered := id
  written := fun _ _ => id
  limits := id
  ckaccLow := fun _ => hc
  symLength := id

theorem setSym (s : State) (i : Nat) (v : Byte) : KeepsData s (s.setSym i v) where
  memOrdered := id
  written := fun _ _ => id
  limits := id
  ckaccLow := id
  symLength := fun h => List.length_set.trans h

theorem setFrame {vs : List Byte} (hvs : vs.length = s.cfg.nsym) : KeepsData s (s.setFrame vs) where
  memOrdered := id
  written := fun _ _ => id
  limits := id
  ckaccLow := id
  symLength := fun _ => hvs

/-! The shared operations: what is done after the checks decides. -/

theorem of_done {ok : Bool} {res : Word32} (h : done u ok res = .next t) (hu : KeepsData s u) : KeepsData s t := by
  obtain rfl := (done_next _ _ _ _).1 h
  exact hu.trans (of_same rfl)

theorem of_onHeld {k : Region → Result} (h : onHeld s k = .next t) (hk : ∀ r, k r = .next t → KeepsData s t) :
    KeepsData s t := by
  obtain ⟨-, rfl⟩ | ⟨-, h⟩ := (onHeld_next _ _ _).1 h
  · exact of_same rfl
  · exact hk _ h

theorem of_inRange {i n : Nat} {k : Result} (h : inRange s i n k = .next t) (hk : k = .next t → KeepsData s t) :
    KeepsData s t := by
  obtain ⟨-, rfl⟩ | ⟨-, h⟩ := (inRange_next _ _ _ _ _).1 h
  · exact of_same rfl
  · exact hk h

theorem of_withValue {α : Type} {o : Option α} {k : α → Result} (h : withValue o k = .next t)
    (hk : ∀ v, o = some v → k v = .next t → KeepsData s t) : KeepsData s t := by
  obtain ⟨v, hv, h⟩ := (withValue_next _ _ _).1 h
  exact hk v hv h

end KeepsData

/-- A whole frame of symbol bytes has NSYM of them. -/
theorem State.symBytes_length {s : State} {r : Region} {vs : List Byte} (h : s.symBytes r = some vs) :
    vs.length = s.cfg.nsym := by
  have hl := congrArg List.length ((gather_eq_some _ _).1 h)
  simpa using hl.symm

/-- Every command keeps the data, by what it writes. -/
theorem exec_command_keepsData {i : Instr} {s t : State} (hi : i.isCommand = true) (h : exec i s = .next t) :
    KeepsData s t := by
  cases i with
  | tick | reset => cases hi
  | nop | smul | sqr | magsq | release | qe | ckcmp => exact .of_done h (.of_same rfl)
  | setref e => exact .of_done h (.setReference s e)
  | ckinit d => exact .of_done h (.withCkacc s (lowByte_append_zero d))
  | ckbyte d => exact .of_done h (.withCkacc s (lowByte_ckfeed _ _))
  | ckfin => exact .of_done h (.withCkacc s (lowByte_ckfeed _ _))
  | validate =>
    exact .of_done h ((KeepsData.withCkacc s (c := s.frameAcc) (lowByte_ckfeed _ _)).trans (.of_same rfl))
  | take =>
    simp only [exec, execTake] at h
    split at h <;> exact .of_done h (.of_same rfl)
  | emit =>
    simp only [exec, execEmit] at h
    split at h <;> exact .of_done h (.of_same rfl)
  | rdsr a =>
    simp only [exec, execRdsr] at h
    split at h
    · exact .of_done h (.refl s)
    · exact (faulted_next _ _ _).1 h ▸ .of_same rfl
  | rdsym k => exact .of_inRange h fun h => .of_done h (.refl s)
  | wrsym k v => exact .of_inRange h fun h => .of_done h (.setSym s _ v)
  | lds k =>
    simp only [exec, execLds] at h
    exact .of_onHeld h fun r h => .of_inRange h fun h => .of_withValue h fun w _ h => .of_done h (.refl s)
  | sts k v =>
    simp only [exec, execSts] at h
    exact .of_onHeld h fun r h => .of_inRange h fun h => .of_done h (.store s r _ v)
  | xform =>
    simp only [exec, execXform] at h
    exact .of_onHeld h fun r h => .of_withValue h fun w _ h => .of_done h (.storeRegion s r _)
  | thresh =>
    simp only [exec, execThresh] at h
    exact .of_onHeld h fun r h => .of_withValue h fun e _ h => .of_done h (.setReference s e)
  | qbin b =>
    simp only [exec, execQbin] at h
    exact .of_onHeld h fun r h => .of_inRange h fun h => .of_withValue h fun e _ h => .of_done h (.refl s)
  | qsym k =>
    simp only [exec, execQsym] at h
    exact .of_onHeld h fun r h => .of_inRange h fun h => .of_withValue h fun v _ h => .of_done h (.setSym s _ v)
  | decodeFrame =>
    simp only [exec, execDecodeFrame] at h
    exact .of_onHeld h fun r h => .of_withValue h fun e _ h => .of_withValue h fun vs hvs h =>
      .of_done h ((KeepsData.setReference s e).trans (.setFrame (State.symBytes_length hvs)))

/-! ### Commands keep the invariant -/

/-- No byte is written outside the two regions. -/
theorem not_inRegion_of_le {c : Config} {r : Region} {a : Nat} (h : 4 * c.bufLen ≤ a) : ¬ inRegion c r a := by
  cases r <;> simp only [inRegion, wordAddr, regionBase] <;> omega

/-- What an update keeps that changes bytes of one region alone (R50). -/
theorem readByte_eq_none_of_inRegion {s t : State} {r : Region} (hs : Inv s)
    (hmem : ∀ a, t.mem.readByte a ≠ s.mem.readByte a → inRegion s.cfg.toConfig r a) {a : Nat}
    (ha : 4 * s.cfg.bufLen ≤ a) : t.mem.readByte a = none := by
  by_contra hne
  exact not_inRegion_of_le ha (hmem a fun heq => hne (heq.trans (hs.memInside a ha)))

/-- A region that is written stays so. -/
theorem KeepsData.regionWritten {s t : State} (h : KeepsData s t) (hcfg : t.cfg = s.cfg) {r : Region}
    (hr : s.regionWritten r) : t.regionWritten r :=
  fun i hi => h.written r i (hr i (hcfg ▸ hi))

/-- The invariant under a command: the tick agent's clauses by `CommandKeeps`, the data clauses by `KeepsData`, and the
held region, where it is new, is the ready one (R118, R123). -/
theorem Inv.of_command {s t : State} (hs : Inv s) (hk : CommandKeeps s t) (hd : KeepsData s t) : Inv t where
  memOrdered := hd.memOrdered hs.memOrdered
  memInside := fun a ha => readByte_eq_none_of_inRegion hs hk.mem (hk.cfg ▸ ha)
  cursorBound := by rw [hk.cur, hk.cfg]; exact hs.cursorBound
  captureWritten := fun hst i hi => by
    rw [hk.act]
    exact hd.written _ i (hs.captureWritten (hk.st ▸ hst) i (hk.cur ▸ hi))
  readyWritten := fun hr => hk.rdySel ▸ hd.regionWritten hk.cfg (hs.readyWritten (hk.rdy hr))
  heldWritten := fun hh => by
    obtain ⟨hheld, hsel⟩ | ⟨hrdy, hsel⟩ := hk.held hh
    · exact hsel ▸ hd.regionWritten hk.cfg (hs.heldWritten hheld)
    · exact hsel ▸ hd.regionWritten hk.cfg (hs.readyWritten hrdy)
  silenceCount := by rw [hk.st, hk.cnt, hk.cfg]; exact hs.silenceCount
  guardCount := by rw [hk.st, hk.cnt, hk.cfg]; exact hs.guardCount
  readySide := fun hr => by rw [hk.rdySel, hk.st, hk.act]; exact hs.readySide (hk.rdy hr)
  heldApart := fun hh hst hovr => by
    rw [hk.st] at hst
    rw [hk.act]
    obtain ⟨hheld, hsel⟩ | ⟨hrdy, hsel⟩ := hk.held hh
    · rw [hsel]
      exact hs.heldApart hheld hst (by rw [← hovr]; simp only [State.ovrClear, hk.ovr])
    · rw [hsel, hs.readySide hrdy, if_pos hst]
      exact Region.other_ne _
  limits := hd.limits hs.limits
  ckaccLow := hd.ckaccLow hs.ckaccLow
  symLength := hd.symLength hs.symLength

/-! ### Ticks keep the invariant, state by state -/

/-- A countdown that does not reach 0 stays within its bounds. -/
theorem countdown_bounds {c : Word16} {n : Nat} (h : 1 ≤ c.toNat ∧ c.toNat ≤ n) (hne : c.toNat ≠ 1) :
    1 ≤ (c - 1).toNat ∧ (c - 1).toNat ≤ n := by
  rw [cnt_sub_one c h.1]; omega

/-- Outside CAPTURING the state and the countdown are tied to nothing but each other. -/
theorem Inv.setSignal {s : State} (hs : Inv s) {st' : SigState} {c : Word16} (hst : s.st ≠ .capturing)
    (hst' : st' ≠ .capturing) (hsilence : st' = .searchingSilence → 1 ≤ c.toNat ∧ c.toNat ≤ s.cfg.nSilence)
    (hguard : st' = .guarding → 1 ≤ c.toNat ∧ c.toNat ≤ s.cfg.nGuard) : Inv { s with st := st', cnt := c } :=
  { hs with
    captureWritten := fun h => absurd h hst'
    silenceCount := hsilence
    guardCount := hguard
    readySide := fun hr => (hs.readySide hr).trans (by rw [if_neg hst, if_neg hst'])
    heldApart := fun _ h => absurd h hst' }

theorem Inv.tickSilence {s : State} (hs : Inv s) (hst : s.st = .searchingSilence) (raw : Reading) :
    Inv (tickSilence raw s) := by
  obtain ⟨hpos, hmax, -, -⟩ := s.cfg.count_bounds
  have hne : s.st ≠ .capturing := by rw [hst]; decide
  unfold Machine.tickSilence
  split
  · by_cases hlast : s.cnt.toNat = 1
    · rw [if_pos ((cnt_sub_one_eq_zero _).2 hlast)]
      exact hs.setSignal hne nofun nofun nofun
    · rw [if_neg (mt (cnt_sub_one_eq_zero _).1 hlast)]
      exact hs.setSignal hne hne (fun _ => countdown_bounds (hs.silenceCount hst) hlast) (by rw [hst]; nofun)
  · exact hs.setSignal hne hne (fun _ => by rw [toNat_ofNat16 hmax]; exact ⟨hpos, le_rfl⟩) (by rw [hst]; nofun)

theorem Inv.tickBurstStart {s : State} (hs : Inv s) (hst : s.st = .searchingBurstStart) (raw : Reading) :
    Inv (tickBurstStart raw s) := by
  obtain ⟨-, -, hpos, hmax⟩ := s.cfg.count_bounds
  have hne : s.st ≠ .capturing := by rw [hst]; decide
  unfold Machine.tickBurstStart
  split
  · exact hs.setSignal hne nofun nofun fun _ => by rw [toNat_ofNat16 hmax]; exact ⟨hpos, le_rfl⟩
  · exact hs

/-- A tick in GUARD before the last one. -/
theorem Inv.tickGuard {s : State} (hs : Inv s) (hst : s.st = .guarding) (hcnt : s.cnt.toNat ≠ 1) :
    Inv { s with cnt := s.cnt - 1 } := by
  have hne : s.st ≠ .capturing := by rw [hst]; decide
  exact hs.setSignal hne hne (by rw [hst]; nofun) fun _ => countdown_bounds (hs.guardCount hst) hcnt

/-- What starting a capture writes; FAULT.OVR is set where the region that becomes active is the held one (R114). -/
theorem startCapture_eq (s : State) : ∃ f : BitVec 4,
    startCapture s = { s with act := s.act.other, cur := 0, st := .capturing, fault := f } ∧
    (s.held = true → s.heldSel = s.act.other → f.getLsbD FaultBit.ovr.index = true) := by
  unfold Machine.startCapture
  by_cases hov : s.held = true ∧ s.heldSel = s.act.other
  · rw [if_pos (by simpa using hov)]
    exact ⟨_, rfl, fun _ _ => by
      rw [State.setFault_fault, getLsbD_or_code, decide_eq_true rfl, Bool.or_true]⟩
  · rw [if_neg (by simpa using hov)]
    exact ⟨_, rfl, fun hheld hsel => absurd ⟨hheld, hsel⟩ hov⟩

/-- A capture starts in the other region, of which nothing is captured yet (R114, R60). -/
theorem Inv.startCapture {s : State} (hs : Inv s) (hst : s.st ≠ .capturing) (c : Word16) :
    Inv (startCapture { s with cnt := c }) := by
  obtain ⟨f, heq, hovr⟩ := startCapture_eq { s with cnt := c }
  rw [heq]
  exact { hs with
    cursorBound := Nat.zero_le _
    captureWritten := fun _ i hi => absurd hi (Nat.not_lt_zero i)
    silenceCount := nofun
    guardCount := nofun
    readySide := fun hr => (hs.readySide hr).trans (by rw [if_neg hst, if_pos rfl, Region.other_other])
    heldApart := fun hh _ hclear hsel => by
      have hset : f.getLsbD FaultBit.ovr.index = true := hovr hh hsel
      simp [State.ovrClear, State.hasFault, hset] at hclear }

/-- The storing tick writes the word at the cursor. -/
theorem Inv.storeSample {s : State} (hs : Inv s) (hst : s.st = .capturing) (hlt : s.cur.toNat < s.cfg.bufLen)
    (raw : Reading) : Inv (storeSample raw s) := by
  have hd := KeepsData.store s s.act s.cur.toNat (scale s.cfg.toConfig raw)
  exact { hs with
    memOrdered := hd.memOrdered hs.memOrdered
    memInside := fun a ha =>
      readByte_eq_none_of_inRegion hs (fun a => inRegion_of_store_ne _ _ _ _ a hlt) ha
    cursorBound := (State.cur_add_one hlt).trans_le hlt
    captureWritten := fun _ i hi => by
      obtain hi | rfl := Nat.lt_succ_iff_lt_or_eq.1 (hi.trans_eq (State.cur_add_one hlt))
      · exact hd.written _ i (hs.captureWritten hst i hi)
      · exact Option.isSome_iff_exists.2 ⟨_, s.load_store_same _ _ _⟩
    readyWritten := fun hr => hd.regionWritten rfl (hs.readyWritten hr)
    heldWritten := fun hh => hd.regionWritten rfl (hs.heldWritten hh) }

/-- The buffer-full tick hands over the region that has been filled. -/
theorem Inv.bufferFull {s : State} (hs : Inv s) (hst : s.st = .capturing) (hfull : s.cfg.bufLen ≤ s.cur.toNat) :
    Inv (bufferFull s) := by
  obtain ⟨hpos, hmax, -, -⟩ := s.cfg.count_bounds
  exact { hs with
    captureWritten := nofun
    readyWritten := fun _ i hi => hs.captureWritten hst i (hi.trans_le hfull)
    silenceCount := fun _ => by
      show 1 ≤ (BitVec.ofNat 16 s.cfg.nSilence).toNat ∧ (BitVec.ofNat 16 s.cfg.nSilence).toNat ≤ s.cfg.nSilence
      rw [toNat_ofNat16 hmax]
      exact ⟨hpos, le_rfl⟩
    guardCount := nofun
    readySide := fun _ => rfl
    heldApart := nofun }

/-- Every tick keeps the invariant, by the state rule it performs. -/
theorem Inv.tickState {s : State} (hs : Inv s) (raw : Reading) : Inv (tickState raw s) := by
  cases hst : s.st with
  | searchingSilence => exact tickState_searchingSilence raw hst ▸ hs.tickSilence hst raw
  | searchingBurstStart => exact tickState_searchingBurstStart raw hst ▸ hs.tickBurstStart hst raw
  | guarding =>
    by_cases hcnt : s.cnt.toNat = 1
    · exact tickState_last_guard raw hst hcnt ▸ hs.startCapture (by rw [hst]; decide) _
    · exact tickState_guarding raw hst hcnt ▸ hs.tickGuard hst hcnt
  | capturing =>
    rw [tickState_capturing raw hst, tickCapturing]
    split
    next hlt => exact hs.storeSample hst hlt raw
    next hfull => exact hs.bufferFull hst (Nat.not_lt.1 hfull)

/-! ### Every event keeps the invariant -/

/-- The events presented are no part of the invariant. -/
theorem Inv.withInbox {s : State} (hs : Inv s) (q : List Event) : Inv (s.withInbox q) := { hs with }

theorem Inv.noReply {s : State} (hs : Inv s) : Inv s.noReply := { hs with }

/-- Every event keeps the invariant. -/
theorem Inv.perform {e : Event} {s t : State} (hs : Inv s) (h : perform e s = .next t) : Inv t := by
  cases perform_outcome h with
  | command i hd hi ho =>
    exact hs.of_command ho.keeps (exec_command_keepsData hi ((perform_of_decode hd s).symm.trans h))
  | illegal w _ ht => exact ht ▸ hs.of_command (.of_raise s (by decide)) (.of_same rfl)
  | tick raw _ ht => exact ht ▸ (hs.tickState raw).noReply
  | reset _ ht => exact ht ▸ (invariantHoldsAtReset s.cfg).withInbox _

/-- With no event presented the block does nothing (log 2). -/
theorem step_of_inbox_nil {s : State} (h : s.inbox = []) : step s = .next s := by
  simp only [step, State.takeEvent, h]

/-- Settles O48: a step performs the next event presented, or does nothing where none is. -/
theorem stepKeepsTheInvariant : Obligations.StepKeepsTheInvariant := by
  intro s t hs h
  cases hin : s.inbox with
  | nil => exact Host.Outcome.next.inj ((step_of_inbox_nil hin).symm.trans h) ▸ hs
  | cons e es => exact (hs.withInbox es).perform ((step_of_inbox_cons hin).symm.trans h)

end Sys2Proof.Machine
end

section
/-! PROOFS. A tick and the held region (spec/20_memory.md R50, R55, R60). -/

namespace Sys2Proof.Machine

/-! ### The bytes of a region -/

/-- The two regions share no byte (R50). -/
theorem Region.eq_of_inRegion {c : Config} {r r' : Region} {a : Nat} (h : inRegion c r a) (h' : inRegion c r' a) :
    r = r' := by
  match r, r' with
  | .A, .A | .B, .B => rfl
  | .A, .B | .B, .A =>
    simp only [inRegion, wordAddr, regionBase] at h h'
    omega

/-- Both bytes of a word lie in its region. -/
theorem inRegion_wordAddr (c : Config) (r : Region) {j : Nat} (hj : j < c.bufLen) :
    inRegion c r (wordAddr c r j) ∧ inRegion c r (wordAddr c r j + 1) := by
  simp only [inRegion, wordAddr]
  omega

/-- States that agree on the bytes of a region agree on its words. -/
theorem State.load_eq_of_readByte_eq {s t : State} {r : Region} (hcfg : t.cfg = s.cfg)
    (hmem : ∀ a, inRegion s.cfg.toConfig r a → t.mem.readByte a = s.mem.readByte a) {j : Nat}
    (hj : j < s.cfg.bufLen) : t.load r j = s.load r j := by
  obtain ⟨hhi, hlo⟩ := inRegion_wordAddr s.cfg.toConfig r hj
  simp only [State.load, Memory.readWord, hcfg, hmem _ hhi, hmem _ hlo]

/-! ### A tick writes no held byte while FAULT.OVR is clear (R60) -/

/-- FAULT.OVR clear after a tick was clear before it (R41). -/
theorem ovrClear_of_tickState {raw : Reading} {s : State} (h : (tickState raw s).ovrClear = true) :
    s.ovrClear = true := by
  simp only [State.ovrClear, Bool.not_eq_true'] at h ⊢
  exact Bool.eq_false_iff.2 fun hset =>
    Bool.eq_false_iff.1 h ((tickState_hasFault_iff raw s .ovr).2 (.inl hset))

/-- A tick writes the active region in CAPTURING alone, and there the held region is the other one. -/
theorem Inv.readByte_tickState {s : State} (hs : Inv s) (hheld : s.held = true) (hovr : s.ovrClear = true)
    (raw : Reading) {a : Nat} (ha : inRegion s.cfg.toConfig s.heldSel a) :
    (Machine.tickState raw s).mem.readByte a = s.mem.readByte a := by
  by_contra hne
  obtain ⟨hst, hact⟩ := tickState_mem raw s a hne
  exact hs.heldApart hheld hst hovr (Region.eq_of_inRegion ha hact)

/-- Settles O57: each byte of the held region by `Inv.readByte_tickState`, so each word. -/
theorem tickLeavesTheHeldRegionAlone : Obligations.TickLeavesTheHeldRegionAlone := by
  intro s t raw hs hheld h hovr j hj
  obtain rfl : (tickState raw s).noReply = t := Host.Outcome.next.inj h
  obtain ⟨-, -, -, -, -, -, -, -, -, -, hcfg⟩ := tickState_frame raw s
  have hclear : s.ovrClear = true := ovrClear_of_tickState (raw := raw) hovr
  rw [State.load_noReply]
  exact State.load_eq_of_readByte_eq hcfg (fun _ => hs.readByte_tickState hheld hclear raw) hj

end Sys2Proof.Machine
end

section
/-! PROOFS. The encoding of commands (spec/30_encoding.md R70, R74, R75): a command word is its three fields, and a legal
one is, on the bits its command reads, the encoding of that command. -/

namespace Sys2Proof.Machine

/-! ### A command word and its fields -/

/-- A command word is its three fields (R70). -/
theorem commandWord_fields (w : CommandWord) : commandWord (opField w) (aField w) (bField w) = w := by
  have hop_a : (opField w ++ aField w : BitVec (8 + 16)) = w.extractLsb' 16 24 :=
    BitVec.extractLsb'_append_extractLsb'_eq_extractLsb' rfl
  have hall : (w.extractLsb' 16 24 ++ bField w : BitVec (24 + 16)) = w.extractLsb' 0 40 :=
    BitVec.extractLsb'_append_extractLsb'_eq_extractLsb' rfl
  rw [commandWord, hop_a]
  exact hall.trans BitVec.extractLsb'_eq_self

/-- The bits of one command word that another one has set, field by field. -/
theorem commandWord_and_commandWord (op op' : Byte) (a a' b b' : Word16) :
    commandWord op a b &&& commandWord op' a' b' = commandWord (op &&& op') (a &&& a') (b &&& b') := by
  unfold commandWord
  exact BitVec.and_append.trans (congrArg (· ++ (b &&& b')) BitVec.and_append)

/-- A mask that keeps the op, on the fields of a command word. -/
theorem and_commandWord (w : CommandWord) (ma mb : Word16) :
    w &&& commandWord 0xFF ma mb = commandWord (opField w) (aField w &&& ma) (bField w &&& mb) :=
  calc w &&& commandWord 0xFF ma mb
      = commandWord (opField w) (aField w) (bField w) &&& commandWord 0xFF ma mb := by rw [commandWord_fields]
    _ = commandWord (opField w &&& BitVec.allOnes 8) (aField w &&& ma) (bField w &&& mb) :=
        commandWord_and_commandWord ..
    _ = _ := by rw [BitVec.and_allOnes]

theorem opField_and (w m : CommandWord) : opField (w &&& m) = opField w &&& opField m := BitVec.extractLsb'_and

/-- The op field is the word without its 32 operand bits. -/
theorem toNat_opField (w : CommandWord) : (opField w).toNat = (w >>> 32).toNat := by
  simp only [opField, BitVec.extractLsb'_toNat, BitVec.toNat_ushiftRight, Nat.shiftRight_eq_div_pow]
  omega

/-- An op written as a number. -/
theorem opField_eq_ofNat {w : CommandWord} {k : Nat} (h : (opField w).toNat = k) : opField w = BitVec.ofNat 8 k := by
  rw [← h, BitVec.ofNat_toNat, BitVec.setWidth_eq]

/-! ### The operands as fields (R74) -/

/-- `b8` is all that is left of field b when b[15:8] is 0. -/
theorem bField_and_lowByte (w : CommandWord) : bField w &&& 0xFF = b8Operand (b8Field w) := by
  apply BitVec.eq_of_toNat_eq
  have hmask : (bField w &&& 0xFF).toNat = (bField w).toNat % 2 ^ 8 :=
    (BitVec.toNat_and ..).trans (Nat.and_two_pow_sub_one_eq_mod _ 8)
  rw [hmask]
  simp only [bField, b8Field, b8Operand, BitVec.toNat_setWidth, BitVec.extractLsb'_toNat, Nat.shiftRight_zero]
  omega

/-- `e32` is field a and field b. -/
theorem e32Field_eq_append (w : CommandWord) : e32Field w = (aField w ++ bField w : BitVec (16 + 16)) :=
  (BitVec.extractLsb'_append_extractLsb'_eq_extractLsb' (start₂ := 16) (start₁ := 0) (len₁ := 16) (len₂ := 16)
    (x := w) rfl).symm

theorem e32Word_e32Field (op : Byte) (w : CommandWord) :
    e32Word op (e32Field w) = commandWord op (aField w) (bField w) := by
  rw [e32Word, e32Field_eq_append, BitVec.extractLsb'_append_eq_left, BitVec.extractLsb'_append_eq_right]

/-! ### The bits a command reads (R75) -/

/-- The bits read are those of the op and of the operands, whatever the operands are. -/
theorem readMask_congr {w w' : CommandWord} (h : opField w' = opField w) : readMask w' = readMask w := by
  simp only [readMask, h]

/-- Every command reads all of its op. -/
theorem opField_readMask (w : CommandWord) : opField (readMask w) = BitVec.allOnes 8 := by
  unfold readMask
  split <;> rfl

theorem opField_and_readMask (w w' : CommandWord) : opField (w &&& readMask w') = opField w := by
  rw [opField_and, opField_readMask, BitVec.and_allOnes]

/-! What is left of a word whose command reads a and b, a and `b8`, a alone, `b8` alone, or the op alone: one lemma for
each mask. -/

theorem and_mask_a_b (w : CommandWord) : w &&& 0xFFFFFFFFFF = commandWord (opField w) (aField w) (bField w) :=
  BitVec.and_allOnes.trans (commandWord_fields w).symm

theorem and_mask_a_b8 (w : CommandWord) :
    w &&& 0xFFFFFF00FF = commandWord (opField w) (aField w) (b8Operand (b8Field w)) :=
  (and_commandWord w 0xFFFF 0x00FF).trans (congrArg₂ (commandWord _) BitVec.and_allOnes (bField_and_lowByte w))

theorem and_mask_a (w : CommandWord) : w &&& 0xFFFFFF0000 = commandWord (opField w) (aField w) 0 :=
  (and_commandWord w 0xFFFF 0).trans (congrArg₂ (commandWord _) BitVec.and_allOnes BitVec.and_zero)

theorem and_mask_b8 (w : CommandWord) :
    w &&& 0xFF000000FF = commandWord (opField w) 0 (b8Operand (b8Field w)) :=
  (and_commandWord w 0 0x00FF).trans (congrArg₂ (commandWord _) BitVec.and_zero (bField_and_lowByte w))

theorem and_mask_op (w : CommandWord) : w &&& 0xFF00000000 = commandWord (opField w) 0 0 :=
  (and_commandWord w 0 0).trans (congrArg₂ (commandWord _) BitVec.and_zero BitVec.and_zero)

/-- A legal command word, with 0 in the bits its command does not read, is the encoding of that command: the mask of
the op and the encoder's fields name the same operands, op by op (R74, R75). -/
theorem encode_of_decodeCommand {w : CommandWord} {i : Instr} (h : decodeCommand w = .ok i) :
    encode i = .command (w &&& readMask w) := by
  unfold decodeCommand at h
  split at h <;> cases h
  all_goals
    rename_i hop
    simp only [encode, readMask, hop]
    simp only [and_mask_op, and_mask_a, and_mask_b8, and_mask_a_b8, and_mask_a_b, e32Word_e32Field,
      opField_eq_ofNat hop]
    rfl

/-! ### Reserved ops (R76) -/

/-- The ranges of reserved ops (R76). -/
def ReservedOp (op : Nat) : Prop :=
  (0x01 ≤ op ∧ op ≤ 0x0F) ∨ (0x13 ≤ op ∧ op ≤ 0x1F) ∨ (0x25 ≤ op ∧ op ≤ 0x2F) ∨ (0x36 ≤ op ∧ op ≤ 0x3F) ∨
    (0x46 ≤ op ∧ op ≤ 0x4F) ∨ (0x53 ≤ op ∧ op ≤ 0xFF)

/-- The decoder refuses the ops of the reserved ranges, by name (R76). -/
theorem decodeCommand_of_reserved {w : CommandWord} (h : ReservedOp (opField w).toNat) :
    decodeCommand w = .error (.reservedOpcode (opField w)) := by
  unfold ReservedOp at h
  unfold decodeCommand
  split
  case h_25 => rfl
  all_goals omega

/-- Every other op is a command (R75, R76). -/
theorem exists_decodeCommand_of_not_reserved {w : CommandWord} (h : ¬ ReservedOp (opField w).toNat) :
    ∃ i, decodeCommand w = .ok i := by
  have hlt : (opField w).toNat < 0x100 := (opField w).isLt
  unfold ReservedOp at h
  unfold decodeCommand
  split
  case h_25 => simp only [imp_false] at *; omega
  all_goals exact ⟨_, rfl⟩

/-- A command word with a reserved op sets FAULT.ILL, answers (0, 0) and changes nothing else (R192). -/
theorem perform_of_reserved {w : CommandWord} (h : ReservedOp (opField w).toNat) (s : State) :
    perform (.command w) s = .next (s.raise .ill) := by
  simp only [perform, decode, decodeCommand_of_reserved h, illegalCommand, faulted]

/-- Presenting an event and stepping is performing it. -/
theorem step_present (s : State) (e : Event) : step (s.present e) = perform e s :=
  step_of_inbox_cons rfl

/-! ### The bits a command does not read (R74) -/

/-- The decoder reads no bit but those of `readMask`. -/
theorem decodeCommand_and_readMask (w : CommandWord) : decodeCommand (w &&& readMask w) = decodeCommand w := by
  have hop : opField (w &&& readMask w) = opField w := opField_and_readMask w w
  by_cases hr : ReservedOp (opField w).toNat
  · rw [decodeCommand_of_reserved hr, decodeCommand_of_reserved (hop ▸ hr), hop]
  · obtain ⟨i, hi⟩ := exists_decodeCommand_of_not_reserved hr
    calc decodeCommand (w &&& readMask w)
        = decode (encode i) := by rw [encode_of_decodeCommand hi]; rfl
      _ = decodeCommand w := by rw [decode_encode, hi]

/-- Words that agree on the bits that one of them reads have the same op. -/
theorem opField_eq_of_and_readMask_eq {w w' : CommandWord} (h : w &&& readMask w = w' &&& readMask w) :
    opField w' = opField w := by
  rw [← opField_and_readMask w' w, ← h, opField_and_readMask]

/-! ### The obligations -/

/-- Settles O1. -/
theorem decodeInvertsEncode : Obligations.DecodeInvertsEncode := decode_encode

/-- Settles O2: the first clause by `encode_of_decodeCommand`; the second because both words, cut to the bits read, are
one word. -/
theorem ignoredBitsDoNotMatter : Obligations.IgnoredBitsDoNotMatter := by
  refine ⟨fun w i h => encode_of_decodeCommand h, fun w w' h => ?_⟩
  have hmask : readMask w' = readMask w := readMask_congr (opField_eq_of_and_readMask_eq h)
  calc decodeCommand w'
      = decodeCommand (w' &&& readMask w') := (decodeCommand_and_readMask w').symm
    _ = decodeCommand (w &&& readMask w) := by rw [hmask, h]
    _ = decodeCommand w := decodeCommand_and_readMask w

/-- Settles O3: the decoder splits the ops along the ranges of `ReservedOp`. -/
theorem reservedOpcodeSetsIllOnly : Obligations.ReservedOpcodeSetsIllOnly := by
  refine ⟨fun w s => ?_, fun raw => rfl⟩
  rw [← toNat_opField]
  refine ⟨fun hr => ?_, fun hr => ?_⟩
  · exact (step_present s _).trans (perform_of_reserved hr s)
  · obtain ⟨i, hi⟩ := exists_decodeCommand_of_not_reserved hr
    exact ⟨i, hi, isCommand_of_decode hi⟩

/-- Settles O4: each legal word is the encoding of its operation, CKCMP's but for a bit it ignores (R74), and 0xFF
is a reserved op. -/
theorem sampleWordsDecode : Obligations.SampleWordsDecode :=
  ⟨decode_encode .nop, decode_encode (.smul 0xFF9C 0x4000), decode_encode (.sts 2 60),
    decode_encode (.setref 171798691),
    (ignoredBitsDoNotMatter.2 0x43000000CC 0x43000001CC (by decide)).trans (decode_encode (.ckcmp 0xCC)),
    decode_encode (.wrsym 1 0xCD),
    decodeCommand_of_reserved (w := 0xFF00000000) (by unfold ReservedOp; decide), decode_encode (.tick 576),
    decode_encode .reset⟩

end Sys2Proof.Machine
end

section
/-! PROOFS. The fixed-point primitives of spec/40_arith.md: the law of SMUL (R101 to R103), the exact square of SQR (R104)
and the exact sum of squares of MAGSQ (R105). -/

namespace Sys2Proof.Machine

/-! ### The three commands write the response alone -/

theorem exec_smul (x y : Word16) (s : State) : exec (.smul x y) s = .next (s.reply true (sext32 (smul x y))) := rfl
theorem exec_sqr (x : Word16) (s : State) : exec (.sqr x) s = .next (s.reply true (square x)) := rfl
theorem exec_magsq (re im : Word16) (s : State) : exec (.magsq re im) s = .next (s.reply true (magsq re im)) := rfl

/-! ### The scaled multiply (R101 to R103) -/

/-- The exact value, as the law of R101 writes it. -/
theorem smulExact_eq (x y : Word16) : smulExact x y = x.toInt * (y.toNat : Int) / 65536 := rfl

theorem smulDelta_bounds (e : SmulError) : -1 ≤ smulDelta e ∧ smulDelta e ≤ 1 := by
  cases e <;> decide

/-- Whatever the error, the multiply keeps the law of R101: the exact value is an int16, so holding the result to the
int16 range takes it no further from the exact value. -/
theorem smulWith_within_one (e : SmulError) (x y : Word16) :
    -1 ≤ (smulWith e x y).toInt - smulExact x y ∧ (smulWith e x y).toInt - smulExact x y ≤ 1 := by
  have hexact := smulExact_bounds x y
  have hdelta := smulDelta_bounds e
  rw [smulWith_toInt]
  omega

/-- The multiply with error 0 is the exact floor: it is never held back (R102). -/
theorem smulRef_toInt (x y : Word16) : (smulRef x y).toInt = smulExact x y := by
  have hexact := smulExact_bounds x y
  rw [smulRef, smulWith_toInt, smulDelta]
  omega

/-- The error whose difference from the exact value is `d`, for `d` of -1, 0 or 1. -/
def smulErrorOf (d : Int) : SmulError := if d < 0 then .under else if d = 0 then .exact else .over

theorem smulDelta_smulErrorOf {d : Int} (hlo : -1 ≤ d) (hhi : d ≤ 1) : smulDelta (smulErrorOf d) = d := by
  obtain rfl | rfl | rfl : d = -1 ∨ d = 0 ∨ d = 1 := by omega
  all_goals rfl

/-- An int16 within 1 of the exact value is what the multiply gives with the error of its difference. -/
theorem smulWith_smulErrorOf {x y r : Word16} (hlo : -1 ≤ r.toInt - smulExact x y) (hhi : r.toInt - smulExact x y ≤ 1) :
    smulWith (smulErrorOf (r.toInt - smulExact x y)) x y = r := by
  have hr := Word16.toInt_bounds r
  apply BitVec.eq_of_toInt_eq
  rw [smulWith_toInt, smulDelta_smulErrorOf hlo hhi]
  omega

/-! ### The squares (R104, R105) -/

/-- Only -32768 has the greatest square of an int16: every other one lies within 32767 of 0. -/
theorem sq_eq_max_iff (x : Word16) : x.toInt * x.toInt = 1073741824 ↔ x.toInt = -32768 := by
  obtain ⟨hlo, hhi⟩ := Word16.toInt_bounds x
  refine ⟨fun hsq => ?_, fun h => by rw [h]; rfl⟩
  by_contra hne
  have hlt : -32768 < x.toInt := by omega
  nlinarith

/-- An int16 other than -32768 has the square of its negation. -/
theorem square_neg {x : Word16} (h : x.toInt ≠ -32768) : square (-x) = square x := by
  have hmin : x ≠ BitVec.intMin 16 := fun hx => h (hx ▸ rfl)
  have hneg : (-x).toInt = -x.toInt := BitVec.toInt_neg_of_ne_intMin hmin
  simp only [square, signed16, hneg, neg_mul_neg]

theorem magsq_comm (re im : Word16) : magsq re im = magsq im re := BitVec.add_comm _ _

/-- A squared magnitude is at most 2^31. -/
theorem energyOf_le (re im : Word16) : energyOf re im ≤ 2147483648 := by
  have hre := sq_bounds re
  have him := sq_bounds im
  unfold energyOf
  omega

/-- The sum is greatest exactly when both squares are. -/
theorem energyOf_eq_max_iff (re im : Word16) :
    energyOf re im = 2147483648 ↔ re.toInt = -32768 ∧ im.toInt = -32768 := by
  have hre := sq_bounds re
  have him := sq_bounds im
  rw [← sq_eq_max_iff re, ← sq_eq_max_iff im, energyOf]
  omega

/-! ### The obligations -/

/-- Settles O10: the answer is the multiply with the free error of the operands, which keeps the law. -/
theorem smulStaysWithinItsLaw : Obligations.SmulStaysWithinItsLaw := fun x y =>
  ⟨smul x y, smulWith_within_one _ x y, Word16.toInt_bounds _, exec_smul x y⟩

/-- Settles O11: a lawful multiply is the model's with, at each pair of operands, the error of its difference there. -/
theorem everyLawfulMultiplyIsAdmitted : Obligations.EveryLawfulMultiplyIsAdmitted := by
  refine ⟨fun f hlaw => ?_, fun x y => ?_⟩
  · exact ⟨fun x y => smulErrorOf ((f x y).toInt - smulExact x y),
      fun x y => smulWith_smulErrorOf (hlaw x y).1 (hlaw x y).2⟩
  · rw [smulRef_toInt, ← smulExact_eq]
    exact ⟨rfl, smulExact_bounds x y⟩

/-- Settles O12. -/
theorem sqrAnswersTheExactSquare : Obligations.SqrAnswersTheExactSquare := by
  intro x
  have hexact := square_toNat x
  have hbound := sq_bounds x
  refine ⟨square x, exec_sqr x, hexact, by omega, ?_, fun hne s => ?_⟩
  · rw [← sq_eq_max_iff, ← hexact]
    norm_cast
  · rw [exec_sqr, exec_sqr, square_neg hne]

/-- Settles O13. -/
theorem magsqAnswersTheExactSum : Obligations.MagsqAnswersTheExactSum := by
  intro re im
  have hexact := magsq_toNat re im
  have hbound := energyOf_le re im
  refine ⟨magsq re im, fun s => ⟨exec_magsq re im s, ?_⟩, hexact, by omega, ?_⟩
  · rw [exec_magsq, exec_magsq, magsq_comm]
  · rw [← energyOf_eq_max_iff, ← hexact]
    norm_cast

end Sys2Proof.Machine
end

section
/-! PROOFS. Acquisition, event by event: the tick in each state, and the hand-off of regions (spec/41_acquire.md R110 to
R122). -/

namespace Sys2Proof.Machine

/-! ### The tick, branch by branch of its state rule -/

section
variable {s : State} (raw : Reading)

theorem exec_tick (s : State) : exec (.tick raw) s = .next (tickState raw s).noReply := rfl

/-- A quiet reading counts down (R112). -/
theorem tickState_quiet (hst : s.st = .searchingSilence) (hq : readingDistance raw < s.cfg.tLow)
    (hcnt : s.cnt.toNat ≠ 1) : tickState raw s = { s with cnt := s.cnt - 1 } := by
  rw [readingDistance_eq, Nat.cast_lt] at hq
  rw [tickState_searchingSilence raw hst, tickSilence, if_pos hq, if_neg (mt (cnt_sub_one_eq_zero _).1 hcnt)]

/-- The last quiet reading arms the detector (R112). -/
theorem tickState_last_quiet (hst : s.st = .searchingSilence) (hq : readingDistance raw < s.cfg.tLow)
    (hcnt : s.cnt.toNat = 1) : tickState raw s = { s with cnt := 0, st := .searchingBurstStart } := by
  have hzero := (cnt_sub_one_eq_zero _).2 hcnt
  rw [readingDistance_eq, Nat.cast_lt] at hq
  rw [tickState_searchingSilence raw hst, tickSilence, if_pos hq, if_pos hzero, hzero]

/-- A reading that is not quiet reloads the countdown; the comparison is strict (R112). -/
theorem tickState_not_quiet (hst : s.st = .searchingSilence) (hq : (s.cfg.tLow : Int) ≤ readingDistance raw) :
    tickState raw s = { s with cnt := BitVec.ofNat 16 s.cfg.nSilence } := by
  rw [readingDistance_eq, Nat.cast_le] at hq
  rw [tickState_searchingSilence raw hst, tickSilence, if_neg (Nat.not_lt.2 hq)]

/-- A loud reading is a burst onset (R113). -/
theorem tickState_loud (hst : s.st = .searchingBurstStart) (hl : (s.cfg.tHigh : Int) ≤ readingDistance raw) :
    tickState raw s = { s with st := .guarding, cnt := BitVec.ofNat 16 s.cfg.nGuard } := by
  rw [readingDistance_eq, Nat.cast_le] at hl
  rw [tickState_searchingBurstStart raw hst, tickBurstStart, if_pos hl]

theorem tickState_not_loud (hst : s.st = .searchingBurstStart) (hl : readingDistance raw < s.cfg.tHigh) :
    tickState raw s = s := by
  rw [readingDistance_eq, Nat.cast_lt] at hl
  rw [tickState_searchingBurstStart raw hst, tickBurstStart, if_neg (Nat.not_le.2 hl)]

/-- A capture that starts in the held region breaks the ownership contract (R114, R195). -/
theorem startCapture_of_held (h : s.held = true ∧ s.heldSel = s.act.other) :
    startCapture s = { s with act := s.act.other, cur := 0, st := .capturing, fault := s.fault ||| 0x8 } := by
  rw [startCapture, if_pos (by simpa using h)]
  rfl

theorem startCapture_of_not_held (h : ¬ (s.held = true ∧ s.heldSel = s.act.other)) :
    startCapture s = { s with act := s.act.other, cur := 0, st := .capturing } := by
  rw [startCapture, if_neg (by simpa using h)]

/-- The last tick of GUARD, but for FAULT (R114). -/
theorem tickState_last_guard_eq (hst : s.st = .guarding) (hcnt : s.cnt.toNat = 1) : ∃ f, tickState raw s =
    { s with st := .capturing, cnt := 0, cur := 0, act := s.act.other, fault := f } := by
  obtain ⟨f, hstart, -⟩ := startCapture_eq { s with cnt := 0 }
  exact ⟨f, by rw [tickState_last_guard raw hst hcnt, (cnt_sub_one_eq_zero _).2 hcnt, hstart]⟩

/-- A tick in CAPTURING below L stores (R115). -/
theorem tickState_store (hst : s.st = .capturing) (hlt : s.cur.toNat < s.cfg.bufLen) :
    tickState raw s = storeSample raw s := by
  rw [tickState_capturing raw hst, tickCapturing, if_pos hlt]

theorem storeSample_cfg (s : State) : (storeSample raw s).cfg = s.cfg := rfl

theorem storeSample_cur (s : State) : (storeSample raw s).cur = s.cur + 1 := rfl

/-- The buffer-full tick (R115). -/
theorem tickState_full (h : s.atBufferFull) : tickState raw s = bufferFull s := by
  rw [tickState_capturing raw h.1, tickCapturing, if_neg (Nat.not_lt.2 h.2)]

end

/-- Settles O19: a quiet reading that is not the last one, the last one, and a reading that is not quiet. -/
theorem tickInSearchingSilence : Obligations.TickInSearchingSilence := by
  intro s raw hst hpos
  obtain ⟨-, hmax, -, -⟩ := s.cfg.count_bounds
  refine ⟨_, exec_tick raw s, ?_⟩
  rcases lt_or_ge (readingDistance raw) s.cfg.tLow with hq | hq
  · by_cases hlast : s.cnt.toNat = 1
    · rw [tickState_last_quiet raw hst hq hlast]
      exact ⟨rfl, fun _ => ⟨by rw [hlast]; rfl, fun _ => rfl, fun h => by omega⟩, fun h => by omega⟩
    · rw [tickState_quiet raw hst hq hlast]
      exact ⟨rfl, fun _ => ⟨cnt_sub_one _ hpos, fun h => absurd h hlast, fun _ => hst⟩, fun h => by omega⟩
  · rw [tickState_not_quiet raw hst hq]
    exact ⟨rfl, fun h => by omega, fun _ => ⟨toNat_ofNat16 hmax, hst⟩⟩

/-- Settles O20. -/
theorem tickInSearchingBurstStart : Obligations.TickInSearchingBurstStart := by
  intro s raw hst
  obtain ⟨-, -, -, hmax⟩ := s.cfg.count_bounds
  refine ⟨_, exec_tick raw s, ?_⟩
  rcases lt_or_ge (readingDistance raw) s.cfg.tHigh with hl | hl
  · rw [tickState_not_loud raw hst hl]
    exact ⟨rfl, fun h => by omega, fun _ => ⟨hst, rfl⟩⟩
  · rw [tickState_loud raw hst hl]
    exact ⟨rfl, fun _ => ⟨rfl, toNat_ofNat16 hmax⟩, fun h => by omega⟩

/-- Settles O21: before the last tick the countdown alone moves; the last one starts the capture, in the held region or
not. -/
theorem tickInGuard : Obligations.TickInGuard := by
  intro s raw hst hpos
  refine ⟨fun hmore => ⟨_, exec_tick raw s, ?_⟩, fun hlast => ⟨_, exec_tick raw s, ?_⟩⟩
  · rw [tickState_guarding raw hst hmore.ne']
    exact ⟨rfl, cnt_sub_one _ hpos⟩
  · rw [tickState_last_guard raw hst hlast, (cnt_sub_one_eq_zero _).2 hlast]
    by_cases hov : s.held = true ∧ s.heldSel = s.act.other
    · rw [startCapture_of_held (s := { s with cnt := 0 }) hov]
      exact ⟨rfl, s.act.other_ne, fun _ => rfl, fun hno => absurd hov hno⟩
    · rw [startCapture_of_not_held (s := { s with cnt := 0 }) hov]
      exact ⟨rfl, s.act.other_ne, fun hyes => absurd hyes hov, fun _ => rfl⟩

/-- Scaling by SHIFT shifts left where LOG2L is at most 6 and right beyond, with no overflow (R111). -/
theorem scale_toInt_eq (c : WfConfig) (raw : Reading) : (scale c.toConfig raw).toInt =
    if c.log2L ≤ 6 then ((raw.toNat : Int) - 512) * 2 ^ (6 - c.log2L)
    else ((raw.toNat : Int) - 512) / 2 ^ (c.log2L - 6) :=
  (scale_toInt c raw).trans (shiftBy_sub _ _)

/-- Settles O22: the storing tick writes the word at the cursor alone, and the buffer-full tick none. -/
theorem tickInCapturing : Obligations.TickInCapturing := by
  intro s raw hst
  obtain ⟨-, hmax, -, -⟩ := s.cfg.count_bounds
  refine ⟨fun hlt => ⟨_, scale s.cfg.toConfig raw, exec_tick raw s, ?_⟩, fun hfull => ⟨_, exec_tick raw s, ?_⟩⟩
  · rw [tickState_store raw hst hlt]
    have hscale := scale_toInt_eq s.cfg raw
    exact ⟨rfl, State.cur_add_one hlt, s.load_store_same _ _ _, fun h => hscale.trans (if_pos h),
      fun h => hscale.trans (if_neg (Nat.not_le.2 h)), fun a ha => Memory.readByte_writeWord_other _ _ _ a ha⟩
  · rw [tickState_full raw ⟨hst, hfull⟩]
    exact ⟨rfl, toNat_ofNat16 hmax⟩

/-! ### The hand-off (R118 to R122) -/

section
variable {s : State}

/-- NOHELD is checked before anything else (R193). -/
theorem exec_of_not_held {i : Instr} (hi : accessesHeld i = true) (hh : s.held = false) :
    exec i s = .next (s.raise .noheld) := by
  cases i with
  | lds | sts | xform | thresh | qbin | qsym | decodeFrame => exact if_neg (Bool.eq_false_iff.1 hh)
  | _ => cases hi

/-- RANGE is checked next, and before any effect (R194). -/
theorem exec_of_indexOutOfRange {i : Instr} (ho : ¬ (accessesHeld i = true ∧ s.held = false))
    (hi : indexOutOfRange s i) : exec i s = .next (s.raise .range) := by
  cases i with
  | lds | sts | qbin | qsym =>
    have hh : s.held = true := by simpa [accessesHeld] using ho
    exact (if_pos hh).trans (if_neg (Nat.not_lt.2 hi))
  | rdsym | wrsym => exact if_neg (Nat.not_lt.2 hi)
  | rdsr a =>
    have hnone : s.register a.toNat = none := s.register_of_unmapped (by simp only [indexOutOfRange] at hi; omega)
    simp only [exec, execRdsr, hnone]
    rfl
  | _ => exact hi.elim

/-- LDS of a written word (R120). -/
theorem exec_lds (hh : s.held = true) {i v : Word16} (hi : i.toNat < s.cfg.bufLen)
    (hv : s.load s.heldSel i.toNat = some v) : exec (.lds i) s = .next (s.reply true (sext32 v)) := by
  rw [exec, execLds, onHeld_held _ _ hh, inRange_lt _ _ _ _ hi, hv]
  rfl

/-- STS (R121). -/
theorem exec_sts (hh : s.held = true) {i : Word16} (hi : i.toNat < s.cfg.bufLen) (v : Word16) :
    exec (.sts i v) s = .next ((s.store s.heldSel i.toNat v).reply true 0) := by
  rw [exec, execSts, onHeld_held _ _ hh, inRange_lt _ _ _ _ hi]
  rfl

/-- XFORM of a written region (R122). -/
theorem exec_xform (hh : s.held = true) {w : List Word16} (hw : s.loadRegion s.heldSel = some w) :
    exec .xform s = .next ((s.storeRegion s.heldSel (xform w)).reply true 0) := by
  rw [exec, execXform, onHeld_held _ _ hh, hw]
  rfl

end

theorem length_xform (w : List Word16) : (xform w).length = w.length := by simp [xform]

theorem sext32_toInt (v : Word16) : (sext32 v).toInt = v.toInt := BitVec.toInt_signExtend_of_le (by decide)

/-- Settles O25. -/
theorem ldsLoadsOneHeldWord : Obligations.LdsLoadsOneHeldWord := fun s i =>
  ⟨exec_of_not_held rfl, fun hh hi => exec_of_indexOutOfRange (by simp [hh]) hi,
    fun v hh hi hv => ⟨sext32 v, exec_lds hh hi hv, sext32_toInt v⟩⟩

/-- Settles O26: the words of the two regions lie apart. -/
theorem stsStoresOneHeldWord : Obligations.StsStoresOneHeldWord := by
  intro s i v
  refine ⟨exec_of_not_held rfl, fun hh hi => exec_of_indexOutOfRange (by simp [hh]) hi, fun hh hi => ?_⟩
  refine ⟨_, exec_sts hh hi v, rfl, s.load_store_same _ _ _, fun a => Memory.readByte_writeWord_other _ _ _ a, ?_⟩
  intro r j hj hne
  exact s.load_store_other _ r _ j v hi hj fun ⟨hr, hij⟩ => hne ⟨hr.symm, hij.symm⟩

/-- Settles O27: the region is read whole before it is written. -/
theorem xformReplacesTheHeldRegion : Obligations.XformReplacesTheHeldRegion := by
  intro s
  refine ⟨exec_of_not_held rfl, fun w hh hlen hw => ?_⟩
  have hload : s.loadRegion s.heldSel = some w := (s.loadRegion_eq_some _ w).2 ⟨hlen, hw⟩
  have hlen' : (xform w).length = s.cfg.bufLen := (length_xform w).trans hlen
  refine ⟨_, exec_xform hh hload, rfl, fun j hj => ?_, fun a ha => ?_⟩
  · rw [State.load_reply, s.load_storeRegion_same _ _ j (hj.trans_eq hlen'.symm)]
    simp [xform]
  · by_contra hne
    exact ha (inRegion_of_storeRegion_ne s _ _ a hlen' hne)

/-- Settles O23. -/
theorem takeHandsTheReadyRegionOver : Obligations.TakeHandsTheReadyRegionOver := by
  intro s
  refine ⟨fun hr => ⟨_, exec_take_ready hr, ?_, ?_⟩, fun hr => if_neg (Bool.eq_false_iff.1 hr)⟩ <;>
    intro hsel <;> rw [hsel] <;> rfl

/-- Settles O24: clearing HELD where it is clear changes nothing. -/
theorem releaseClearsHeldOnly : Obligations.ReleaseClearsHeldOnly := by
  intro s
  refine ⟨rfl, fun hh => ?_⟩
  have hkept : ({ s with held := false } : State) = s := by rw [← hh]
  exact congrArg (fun u : State => Host.Outcome.next (u.reply true 0)) hkept

end Sys2Proof.Machine
end

section
/-! PROOFS. How far away the next hand-off is, and the hold of WAITRDY until then (spec/41_acquire.md R116,
spec/70_reset_and_hazards.md R219, spec/44_system.md R184). -/

namespace Sys2Proof

/-- The readings an event brings: the one of a tick, none of a command or a reset. -/
def Event.readings : Event → List Reading
  | .tick raw => [raw]
  | .command _ => []
  | .reset => []

end Sys2Proof

namespace Sys2Proof.Machine

theorem length_readings (es : List Event) : (es.flatMap Event.readings).length = tickCount es := by
  induction es with
  | nil => rfl
  | cons e es ih =>
    rw [List.flatMap_cons, List.length_append, ih]
    cases e <;> simp only [tickCount, Event.readings, List.length_cons, List.length_nil] <;> omega

/-- What an event does, seen by the tick agent: a command, illegal or not, keeps its registers. -/
theorem perform_tick_agent {e : Event} {s t : State} (h : perform e s = .next t) :
    (e.readings = [] ∧ CommandKeeps s t) ∨ (∃ raw, e = .tick raw ∧ t = (tickState raw s).noReply) ∨
      (e.readings = [] ∧ t = (State.resetWith s.cfg).withInbox s.inbox) := by
  cases perform_outcome h with
  | command i hd _ ho =>
    cases e with
    | command => exact .inl ⟨rfl, ho.keeps⟩
    | tick raw => exact .inr (.inl ⟨raw, rfl, (Host.Outcome.next.inj h).symm⟩)
    | reset => exact .inr (.inr ⟨rfl, (Host.Outcome.next.inj h).symm⟩)
  | illegal w he ht => exact .inl ⟨he ▸ rfl, ht ▸ .of_raise s (by decide)⟩
  | tick raw he ht => exact .inr (.inl ⟨raw, he, ht⟩)
  | reset he ht => exact .inr (.inr ⟨he ▸ rfl, ht⟩)

/-! ### The ticks still needed (R116) -/

section
variable {s : State}

theorem ticksToReady_capturing (h : s.st = .capturing) : s.ticksToReady = s.cfg.bufLen - s.cur.toNat + 1 := by
  simp only [State.ticksToReady, h]

/-- The buffer-full tick is the one tick still needed. -/
theorem ticksToReady_of_atBufferFull (h : s.atBufferFull) : s.ticksToReady = 1 := by
  rw [ticksToReady_capturing h.1, Nat.sub_eq_zero_of_le h.2]

/-- RDY is never further away than right after reset (R32 (a), (d)). -/
theorem Inv.ticksToReady_le (hs : Inv s) :
    s.ticksToReady ≤ s.cfg.nSilence + 1 + s.cfg.nGuard + s.cfg.bufLen + 1 := by
  have hsilence := hs.silenceCount
  have hguard := hs.guardCount
  cases hst : s.st with
  | searchingSilence | searchingBurstStart | guarding | capturing =>
    simp only [hst, forall_const] at hsilence hguard
    simp only [State.ticksToReady, hst]
    omega

/-- One tick brings RDY one tick nearer at most. -/
theorem Inv.ticksToReady_tickState (hs : Inv s) (raw : Reading) :
    s.ticksToReady ≤ (Machine.tickState raw s).ticksToReady + 1 := by
  obtain ⟨-, hsilence, -, hguard⟩ := s.cfg.count_bounds
  cases hst : s.st with
  | searchingSilence =>
    have hcnt := hs.silenceCount hst
    rcases lt_or_ge (readingDistance raw) s.cfg.tLow with hq | hq
    · by_cases hlast : s.cnt.toNat = 1
      · rw [tickState_last_quiet raw hst hq hlast]
        simp only [State.ticksToReady, hst]
        omega
      · rw [tickState_quiet raw hst hq hlast]
        simp only [State.ticksToReady, hst, cnt_sub_one _ hcnt.1]
        omega
    · rw [tickState_not_quiet raw hst hq]
      simp only [State.ticksToReady, hst, toNat_ofNat16 hsilence]
      omega
  | searchingBurstStart =>
    rcases lt_or_ge (readingDistance raw) s.cfg.tHigh with hl | hl
    · rw [tickState_not_loud raw hst hl]
      exact Nat.le_succ _
    · rw [tickState_loud raw hst hl]
      simp only [State.ticksToReady, hst, toNat_ofNat16 hguard]
      omega
  | guarding =>
    have hcnt := hs.guardCount hst
    by_cases hlast : s.cnt.toNat = 1
    · obtain ⟨f, hstart⟩ := tickState_last_guard_eq raw hst hlast
      have hcur : (0 : Word16).toNat = 0 := rfl
      rw [hstart]
      simp only [State.ticksToReady, hst, hcur]
      omega
    · rw [tickState_guarding raw hst hlast]
      simp only [State.ticksToReady, hst, cnt_sub_one _ hcnt.1]
      omega
  | capturing =>
    rcases lt_or_ge s.cur.toNat s.cfg.bufLen with hlt | hfull
    · have hst' : (Machine.storeSample raw s).st = .capturing := hst
      rw [tickState_store raw hst hlt, ticksToReady_capturing hst, ticksToReady_capturing hst', storeSample_cfg,
        storeSample_cur, State.cur_add_one hlt]
      omega
    · exact (ticksToReady_of_atBufferFull ⟨hst, hfull⟩).trans_le (Nat.le_add_left _ _)

end

/-- An event brings RDY nearer by its ticks at most. -/
theorem Inv.ticksToReady_perform {s t : State} (hs : Inv s) {e : Event} (h : Machine.perform e s = .next t) :
    s.ticksToReady ≤ t.ticksToReady + e.readings.length := by
  obtain ⟨hr, hk⟩ | ⟨raw, rfl, rfl⟩ | ⟨-, rfl⟩ := perform_tick_agent h
  · simp only [State.ticksToReady, hk.st, hk.cnt, hk.cur, hk.cfg]
    exact Nat.le_add_right _ _
  · exact hs.ticksToReady_tickState raw
  · obtain ⟨-, hmax, -, -⟩ := s.cfg.count_bounds
    have hreset : ((State.resetWith s.cfg).withInbox s.inbox).ticksToReady =
        s.cfg.nSilence + 1 + s.cfg.nGuard + s.cfg.bufLen + 1 := by
      simp only [State.ticksToReady, State.withInbox, State.resetWith, toNat_ofNat16 hmax]
    exact hs.ticksToReady_le.trans (hreset ▸ Nat.le_add_right _ _)

/-! ### Conditions under which RDY is not set -/

/-- A condition on the readings to come and the state that no event breaks, and under which none of these readings is
the one of a buffer-full tick. -/
structure Unready (P : List Reading → State → Prop) : Prop where
  perform : ∀ {e raws s t}, P (e.readings ++ raws) s → perform e s = .next t → P raws t
  notFull : ∀ {raw raws s}, P (raw :: raws) s → ¬ s.atBufferFull

namespace Unready

variable {P : List Reading → State → Prop}

/-- No event sets RDY. -/
theorem rdy (hP : Unready P) {e : Event} {raws : List Reading} {s t : State} (hs : P (e.readings ++ raws) s)
    (h : Machine.perform e s = .next t) (hr : s.rdy = false) : t.rdy = false := by
  by_contra hset
  obtain ⟨⟨raw, rfl⟩, hfull, -⟩ := (perform_rdy h).1 hr (Bool.not_eq_false _ ▸ hset)
  exact hP.notFull hs hfull

/-- Nor do events one after another. -/
theorem performAll (hP : Unready P) {es : List Event} {s t : State} (hs : P (es.flatMap Event.readings) s)
    (h : Machine.performAll es s = .next t) (hr : s.rdy = false) : t.rdy = false := by
  induction es generalizing s with
  | nil => exact Host.Outcome.next.inj h ▸ hr
  | cons e es ih =>
    obtain ⟨u, hu, h⟩ := performAll_cons_eq_next.1 h
    exact ih (hP.perform hs hu) h (hP.rdy hs hu hr)

end Unready

/-- The event of a turn of a run on hold: where the consumer goes on it issues TAKE (R184). -/
def Turn.eventOnHold : Turn → Event
  | .line => encode .take
  | .tick raw => .tick raw
  | .reset => .reset

theorem readingsOf_cons (τ : Turn) (τs : List Turn) :
    readingsOf (τ :: τs) = τ.eventOnHold.readings ++ readingsOf τs := by cases τ <;> rfl

/-- A turn of a run on hold performs its event and, where RDY stays clear, leaves the run on hold. -/
theorem Run.turn_eventOnHold {r : Run} (τ : Turn) (h : r.onHold) : ∃ u : Run, r.turn τ = .next u ∧ u.todo = r.todo ∧
    Machine.perform τ.eventOnHold r.state = .next u.state ∧ (u.state.rdy = false → u.onHold) := by
  obtain ⟨s, todo, b⟩ := r
  obtain ⟨⟨rest, rfl⟩, hr⟩ := h
  cases τ with
  | line =>
    have htake : execTake s = .next (s.reply false 0) := if_neg (Bool.eq_false_iff.1 hr)
    exact ⟨_, Run.turn_waitrdy_idle s rest b hr, rfl, htake, fun h => ⟨⟨rest, rfl⟩, h⟩⟩
  | tick raw => exact ⟨_, Run.turn_tick _ raw, rfl, rfl, fun h => ⟨⟨rest, rfl⟩, h⟩⟩
  | reset => exact ⟨_, Run.turn_reset _, rfl, rfl, fun h => ⟨⟨rest, rfl⟩, h⟩⟩

/-- A run on hold stays there: no count and no timeout ends the wait (R219). -/
theorem Unready.turns {P : List Reading → State → Prop} (hP : Unready P) {τs : List Turn} {r : Run} (h : r.onHold)
    (hr : P (readingsOf τs) r.state) : ∃ u : Run, Run.turns τs r = .next u ∧ u.onHold ∧ u.todo = r.todo := by
  induction τs generalizing r with
  | nil => exact ⟨r, rfl, h, rfl⟩
  | cons τ τs ih =>
    rw [readingsOf_cons] at hr
    obtain ⟨v, hturn, htodo, hp, hhold⟩ := Run.turn_eventOnHold τ h
    obtain ⟨u, hu, huhold, hutodo⟩ := ih (hhold (hP.rdy hr hp h.2)) (hP.perform hr hp)
    exact ⟨u, (Run.turns_cons_next hturn τs).trans hu, huhold, hutodo.trans htodo⟩

/-- Fewer readings to come than the ticks still needed. -/
def TooFew (raws : List Reading) (s : State) : Prop := Inv s ∧ raws.length < s.ticksToReady

theorem unready_tooFew : Unready TooFew where
  perform := fun ⟨hs, hlt⟩ h => by
    have hnear := hs.ticksToReady_perform h
    rw [List.length_append] at hlt
    exact ⟨hs.perform h, by omega⟩
  notFull := fun ⟨_, hlt⟩ hfull => by
    rw [ticksToReady_of_atBufferFull hfull, List.length_cons] at hlt
    omega

/-- The detector is in one of the states `S`, and every reading to come is of the kind `A`. -/
def Searching (S : SigState → Prop) (A : Config → Reading → Prop) (raws : List Reading) (s : State) : Prop :=
  S s.st ∧ ∀ raw ∈ raws, A s.cfg.toConfig raw

/-- RDY is not set while the readings keep the detector in states other than CAPTURING that a reset goes back to. -/
theorem unready_searching {S : SigState → Prop} {A : Config → Reading → Prop} (hreset : S .searchingSilence)
    (hcapturing : ¬ S .capturing) (htick : ∀ raw s, S s.st → A s.cfg.toConfig raw → S (tickState raw s).st) :
    Unready (Searching S A) where
  perform := fun {e raws s t} ⟨hst, hraws⟩ h => by
    obtain ⟨hr, hk⟩ | ⟨raw, rfl, rfl⟩ | ⟨hr, rfl⟩ := perform_tick_agent h
    · rw [hr, List.nil_append] at hraws
      exact ⟨hk.st ▸ hst, hk.cfg ▸ hraws⟩
    · obtain ⟨hraw, hraws⟩ := List.forall_mem_cons.1 hraws
      obtain ⟨-, -, -, -, -, -, -, -, -, -, hcfg⟩ := tickState_frame raw s
      exact ⟨htick raw s hst hraw, by rw [State.noReply_cfg, hcfg]; exact hraws⟩
    · rw [hr, List.nil_append] at hraws
      exact ⟨hreset, hraws⟩
  notFull := fun ⟨hst, _⟩ hfull => hcapturing (hfull.1 ▸ hst)

/-- While no reading is quiet the detector stays in SEARCHING_SILENCE (R112). -/
theorem unready_never_quiet :
    Unready (Searching (· = .searchingSilence) fun c raw => (c.tLow : Int) ≤ readingDistance raw) :=
  unready_searching rfl nofun fun raw s hst hraw => by
    rw [tickState_not_quiet raw hst hraw]
    exact hst

/-- While no reading is loud it does not leave SEARCHING_BURST_START (R113). -/
theorem unready_never_loud :
    Unready (Searching (fun st => st = .searchingSilence ∨ st = .searchingBurstStart)
      fun c raw => readingDistance raw < c.tHigh) :=
  unready_searching (.inl rfl) (by simp) fun raw s hst hraw => by
    obtain hst | hst := hst
    · rw [tickState_searchingSilence raw hst, tickSilence]
      split
      · exact (ite_eq_or_eq _ _ _).symm.imp_left fun h => h.trans hst
      · exact .inl hst
    · rw [tickState_not_loud raw hst hraw]
      exact .inr hst

/-- Settles O58: each of the three conditions is `Unready`. -/
theorem rdyStaysClearBeforeItsTicks : Obligations.RdyStaysClearBeforeItsTicks := by
  refine ⟨fun es s t hs hr h hlt => ?_, fun τs r hhold hcond => ?_⟩
  · exact unready_tooFew.performAll ⟨hs, by rwa [length_readings]⟩ h hr
  · obtain hfew | hnever | hnever := hcond
    · exact unready_tooFew.turns hhold hfew
    · exact unready_never_quiet.turns hhold hnever
    · exact unready_never_loud.turns hhold hnever

end Sys2Proof.Machine
end

section
/-! PROOFS. A capture from the first quiet reading to the hand-off (spec/41_acquire.md R112 to R116, spec/20_memory.md
R58, R59, spec/70_reset_and_hazards.md R219). -/

namespace Sys2Proof.Machine

/-! ### Ticks one after another -/

/-- The state after a tick for each of the readings, with no command between them. -/
def ticks : List Reading → State → State
  | [], s => s
  | raw :: raws, s => ticks raws (tickState raw s).noReply

theorem ticks_append (raws raws' : List Reading) (s : State) :
    ticks (raws ++ raws') s = ticks raws' (ticks raws s) := by
  induction raws generalizing s with
  | nil => rfl
  | cons raw raws ih => exact ih _

theorem ticks_concat (raws : List Reading) (raw : Reading) (s : State) :
    ticks (raws ++ [raw]) s = (tickState raw (ticks raws s)).noReply := ticks_append raws [raw] s

theorem execAll_ticks (raws : List Reading) (s : State) : execAll (raws.map Instr.tick) s = .next (ticks raws s) := by
  induction raws generalizing s with
  | nil => rfl
  | cons raw raws ih => exact ih _

/-- In a run, ticks leave the lines of the program. -/
theorem Run.turns_ticks (raws : List Reading) (s : State) (todo : List Line) (b : Bool) :
    ∃ b', Run.turns (raws.map Turn.tick) ⟨s, todo, b⟩ = .next ⟨ticks raws s, todo, b'⟩ := by
  induction raws generalizing s b with
  | nil => exact ⟨b, rfl⟩
  | cons raw raws ih =>
    obtain ⟨b', h⟩ := ih (tickState raw s).noReply (b || (tickState raw s).noReply.hasFault .ovr)
    exact ⟨b', (Run.turns_cons_next (Run.turn_tick _ raw) _).trans h⟩

/-! ### The phases of a capture -/

section
variable {s : State}

/-- Ticks that count down bring the countdown to 1, and write nothing else. -/
theorem ticks_countdown {raws : List Reading} (hcnt : s.cnt.toNat = raws.length + 1)
    (hdown : ∀ raw ∈ raws, ∀ t : State, t.st = s.st → t.cfg = s.cfg → t.cnt.toNat ≠ 1 →
      tickState raw t = { t with cnt := t.cnt - 1 }) :
    ∃ r, ticks raws s = { s with cnt := 1, response := r } := by
  induction raws generalizing s with
  | nil =>
    have hone : s.cnt = 1 := BitVec.eq_of_toNat_eq hcnt
    exact ⟨s.response, by rw [ticks, ← hone]⟩
  | cons raw raws ih =>
    rw [List.length_cons] at hcnt
    have hcnt' : (s.cnt - 1).toNat = raws.length + 1 := by rw [cnt_sub_one _ (by omega), hcnt, Nat.add_sub_cancel]
    rw [ticks, hdown raw List.mem_cons_self s rfl rfl (by omega)]
    exact ih (s := ({ s with cnt := s.cnt - 1 } : State).noReply) hcnt'
      fun q hq => hdown q (List.mem_cons_of_mem raw hq)

/-- As many quiet readings as the countdown asks for arm the detector (R112). -/
theorem ticks_quiet {quiet : List Reading} (hst : s.st = .searchingSilence) (hne : quiet ≠ [])
    (hcnt : s.cnt.toNat = quiet.length) (hquiet : ∀ q ∈ quiet, readingDistance q < s.cfg.tLow) :
    ticks quiet s = { s with st := .searchingBurstStart, cnt := 0, response := none } := by
  obtain ⟨qs, q, rfl⟩ := (List.eq_nil_or_concat' quiet).resolve_left hne
  obtain ⟨hqs, hq⟩ := List.forall_mem_append.1 hquiet
  rw [List.length_append] at hcnt
  obtain ⟨r, hticks⟩ := ticks_countdown hcnt fun raw hraw t hst' hcfg hne =>
    tickState_quiet raw (hst'.trans hst) (hcfg ▸ hqs raw hraw) hne
  rw [ticks_concat, hticks, tickState_last_quiet (s := { s with cnt := 1, response := r }) q hst
    (hq q List.mem_cons_self) rfl]
  rfl

/-- As many readings as the countdown of GUARD asks for start a capture in the other region (R114). -/
theorem ticks_guard {guard : List Reading} (hst : s.st = .guarding) (hne : guard ≠ [])
    (hcnt : s.cnt.toNat = guard.length) : ∃ f, ticks guard s =
      { s with st := .capturing, cnt := 0, cur := 0, act := s.act.other, fault := f, response := none } := by
  obtain ⟨gs, g, rfl⟩ := (List.eq_nil_or_concat' guard).resolve_left hne
  rw [List.length_append] at hcnt
  obtain ⟨r, hticks⟩ := ticks_countdown hcnt fun raw _ t hst' _ hne => tickState_guarding raw (hst'.trans hst) hne
  obtain ⟨f, hstart⟩ := tickState_last_guard_eq (s := { s with cnt := 1, response := r }) g hst rfl
  exact ⟨f, by rw [ticks_concat, hticks, hstart]; rfl⟩

/-- Quiet readings, a loud one and the guard readings start a capture (R116). -/
theorem ticks_onset {quiet guard : List Reading} {loud : Reading} (hst : s.st = .searchingSilence)
    (hcnt : s.cnt.toNat = s.cfg.nSilence) (hqlen : quiet.length = s.cfg.nSilence)
    (hquiet : ∀ q ∈ quiet, readingDistance q < s.cfg.tLow) (hloud : (s.cfg.tHigh : Int) ≤ readingDistance loud)
    (hglen : guard.length = s.cfg.nGuard) : ∃ f, ticks (quiet ++ [loud] ++ guard) s =
      { s with st := .capturing, cnt := 0, cur := 0, act := s.act.other, fault := f, response := none } := by
  obtain ⟨hqpos, -, hgpos, hgmax⟩ := s.cfg.count_bounds
  have hqne : quiet ≠ [] := List.ne_nil_of_length_pos (by omega)
  have hgne : guard ≠ [] := List.ne_nil_of_length_pos (by omega)
  rw [ticks_append, ticks_concat, ticks_quiet hst hqne (hcnt.trans hqlen.symm) hquiet,
    tickState_loud (s := { s with st := .searchingBurstStart, cnt := 0, response := none }) loud rfl hloud]
  exact ticks_guard rfl hgne ((toNat_ofNat16 hgmax).trans hglen.symm)

end

/-- A capture into region `r` is under way in the state `t`, and these samples have been stored (R115). -/
structure Captured (c : WfConfig) (r : Region) (samples : List Reading) (t : State) : Prop where
  st : t.st = .capturing
  act : t.act = r
  cfg : t.cfg = c
  cur : t.cur.toNat = samples.length
  words : ∀ j (h : j < samples.length), t.load r j = some (scale c.toConfig samples[j])

section
variable {c : WfConfig} {r : Region} {samples : List Reading} {t : State}

/-- A storing tick adds its reading and keeps the words below the cursor. -/
theorem Captured.tick (h : Captured c r samples t) (hlt : samples.length < c.bufLen) (raw : Reading) :
    Captured c r (samples ++ [raw]) (tickState raw t).noReply := by
  obtain ⟨hst, rfl, rfl, hcur, hwords⟩ := h
  have hcur' : t.cur.toNat < t.cfg.bufLen := hcur.trans_lt hlt
  rw [tickState_store raw hst hcur']
  refine ⟨hst, rfl, rfl, ?_, fun j hj => ?_⟩
  · rw [List.length_append, ← hcur]
    exact State.cur_add_one hcur'
  · show (t.store t.act t.cur.toNat (scale t.cfg.toConfig raw)).load t.act j = _
    rw [hcur]
    rw [List.length_append, List.length_singleton] at hj
    obtain hj | rfl := Nat.lt_succ_iff_lt_or_eq.1 hj
    · rw [t.load_store_other _ _ _ _ _ hlt (hj.trans hlt) (by omega), hwords j hj, List.getElem_append_left hj]
    · rw [t.load_store_same, List.getElem_concat_length rfl]

/-- Up to L readings fill the active region from its first word on. -/
theorem captured_ticks (hst : t.st = .capturing) (hact : t.act = r) (hcfg : t.cfg = c) (hcur : t.cur = 0)
    (hlen : samples.length ≤ c.bufLen) : Captured c r samples (ticks samples t) := by
  induction samples using List.reverseRecOn with
  | nil => exact ⟨hst, hact, hcfg, congrArg BitVec.toNat hcur, nofun⟩
  | append_singleton samples raw ih =>
    rw [List.length_append, List.length_singleton] at hlen
    rw [ticks_concat]
    exact (ih (Nat.le_of_succ_le hlen)).tick hlen raw

/-- The capture of L samples is at its buffer-full tick. -/
theorem Captured.atBufferFull (h : Captured c r samples t) (hlen : samples.length = c.bufLen) : t.atBufferFull :=
  ⟨h.st, by rw [h.cur, h.cfg, hlen]⟩

end

/-- A whole capture: its last tick hands over the region that L ticks before it have filled (R58, R115, R116). -/
theorem ticks_capture {s : State} {quiet guard samples : List Reading} {loud last : Reading}
    (hst : s.st = .searchingSilence) (hcnt : s.cnt.toNat = s.cfg.nSilence) (hqlen : quiet.length = s.cfg.nSilence)
    (hquiet : ∀ q ∈ quiet, readingDistance q < s.cfg.tLow) (hloud : (s.cfg.tHigh : Int) ≤ readingDistance loud)
    (hglen : guard.length = s.cfg.nGuard) (hlen : samples.length = s.cfg.bufLen) :
    ∃ t, ticks (quiet ++ [loud] ++ guard ++ samples ++ [last]) s = (bufferFull t).noReply ∧
      Captured s.cfg s.act.other samples t := by
  obtain ⟨f, honset⟩ := ticks_onset hst hcnt hqlen hquiet hloud hglen
  have hcap : Captured s.cfg s.act.other samples (ticks (quiet ++ [loud] ++ guard ++ samples) s) := by
    rw [ticks_append, honset]
    exact captured_ticks rfl rfl rfl rfl hlen.le
  exact ⟨_, by rw [ticks_concat, tickState_full last (hcap.atBufferFull hlen)], hcap⟩

/-- The consumer at a WAITRDY after ticks that have made a region ready (R184). -/
theorem Run.turns_ticks_waitrdy {raws : List Reading} {s t : State} (ht : ticks raws s = t) (hr : t.rdy = true)
    (rest : List Line) : ∃ u : Run,
      Run.turns (raws.map Turn.tick ++ [.line]) (Run.start (.waitrdy :: rest) s) = .next u ∧
      u.todo = rest ∧ exec .take t = .next u.state ∧ u.state.held = true ∧ u.state.heldSel = t.rdySel := by
  subst ht
  obtain ⟨b, hticks⟩ := Run.turns_ticks raws s (.waitrdy :: rest) (s.hasFault .ovr)
  obtain ⟨t, htake, hturn⟩ := Run.turn_waitrdy_ready (ticks raws s) rest b hr
  obtain rfl := Host.Outcome.next.inj ((exec_take_ready hr).symm.trans htake)
  exact ⟨_, (Run.turns_append _ _ _ _ hticks).trans (Run.turns_cons_next hturn []), rfl, htake, rfl, rfl⟩

/-- Settles O59: `ticks_capture`, then the TAKE of the WAITRDY. -/
theorem quietLoudGuardCaptureCompletes : Obligations.QuietLoudGuardCaptureCompletes := by
  intro s quiet guard samples loud last _ hst hcnt hqlen hquiet hloud hglen hlen
  obtain ⟨-, hmax, -, -⟩ := s.cfg.count_bounds
  obtain ⟨t, hfull, hcap⟩ := ticks_capture (last := last) hst hcnt hqlen hquiet hloud hglen hlen
  have hcnt' : (bufferFull t).cnt.toNat = s.cfg.nSilence := by
    rw [← hcap.cfg] at hmax ⊢
    exact toNat_ofNat16 hmax
  have hwords := hcap.words
  rw [← hcap.act] at hwords ⊢
  exact ⟨(bufferFull t).noReply, (execAll_ticks _ s).trans (congrArg _ hfull), rfl, rfl, rfl, rfl, hcnt', hwords,
    Run.turns_ticks_waitrdy hfull rfl⟩

end Sys2Proof.Machine
end

section
/-! PROOFS. The quantizer: what each command of spec/42_quantizer.md writes and answers (R148 to R153), DECODE as THRESH
followed by every QSYM (R153), and the levels as exact ratios of the reference (R141, R142, R146). -/

namespace Sys2Proof.Machine

/-! ### Levels and energies as numbers -/

/-- Against ordered limits R143 counts the limits that the energy exceeds. -/
theorem LevelIs.le_iff {l1 l2 l3 e n : Nat} (h : LevelIs l1 l2 l3 e n) (h12 : l1 ≤ l2) (h23 : l2 ≤ l3) :
    n ≤ 3 ∧ (n = 0 ↔ e ≤ l1) ∧ (n ≤ 1 ↔ e ≤ l2) ∧ (n ≤ 2 ↔ e ≤ l3) := by
  obtain ⟨h0, h1, h2, h3⟩ := h
  omega

/-- The level of an energy against the current limits is the one R143 gives. -/
theorem State.level_levelIs {s : State} (h12 : s.lim1.toNat ≤ s.lim2.toNat) (h23 : s.lim2.toNat ≤ s.lim3.toNat)
    (e : Word32) : LevelIs s.lim1.toNat s.lim2.toNat s.lim3.toNat e.toNat (s.level e).toNat :=
  levelOf_levelIs _ _ _ e h12 h23

theorem zext32_toNat {n : Nat} (v : BitVec n) (hn : n ≤ 32) : (zext32 v).toNat = v.toNat :=
  BitVec.toNat_setWidth_of_le hn

/-- The energy of a pair of words, as a natural number. -/
theorem energyOf_toNat (re im : Word16) : (energyOf re im).toNat = (magsq re im).toNat := by
  rw [← magsq_toNat, Int.toNat_natCast]

/-- The answer QE and QBIN give of an energy is its level (R150, R151). -/
theorem State.zext32_level_levelIs {s : State} (h12 : s.lim1.toNat ≤ s.lim2.toNat)
    (h23 : s.lim2.toNat ≤ s.lim3.toNat) (e : Word32) :
    LevelIs s.lim1.toNat s.lim2.toNat s.lim3.toNat e.toNat (zext32 (s.level e)).toNat := by
  rw [zext32_toNat _ (by decide)]
  exact s.level_levelIs h12 h23 e

/-! ### The symbol byte of four bins (R145) -/

theorem symbolBase_eq (i : Nat) : symbolBase i = 3 + 5 * i := by
  rw [symbolBase, Config.f0, Config.stride, Nat.mul_comm]

/-- The symbol byte packs the levels of its four bins. -/
theorem State.symByte_of_words {s : State} {r : Region} {i : Nat} {re im : Nat → Word16}
    (h : ∀ k < 4, s.load r (2 * (3 + 5 * i + k)) = some (re k) ∧ s.load r (2 * (3 + 5 * i + k) + 1) = some (im k)) :
    s.symByte r i = some (packLevels (s.level (magsq (re 0) (im 0))) (s.level (magsq (re 1) (im 1)))
      (s.level (magsq (re 2) (im 2))) (s.level (magsq (re 3) (im 3)))) := by
  have hbin : ∀ k < 4, s.binEnergy r (3 + 5 * i + k) = some (magsq (re k) (im k)) := fun k hk =>
    have ⟨hre, him⟩ := h k hk
    s.binEnergy_of_words r _ _ _ hre him
  have h0 : s.binEnergy r (3 + 5 * i) = some (magsq (re 0) (im 0)) := hbin 0 (by decide)
  simp only [State.symByte, symbolBase_eq, h0, hbin 1 (by decide), hbin 2 (by decide), hbin 3 (by decide)]

/-! ### The commands, where they have their effect -/

section
variable {s : State}

/-- SETREF (R149). -/
theorem exec_setref (e : Word32) (s : State) : exec (.setref e) s = .next ((s.setReference e).reply true e) := rfl

/-- QE (R150). -/
theorem exec_qe (e : Word32) (s : State) : exec (.qe e) s = .next (s.reply true (zext32 (s.level e))) := rfl

/-- THRESH of a written bin 1 (R148). -/
theorem exec_thresh (hh : s.held = true) {e : Word32} (he : s.binEnergy s.heldSel Config.rBin = some e) :
    exec .thresh s = .next ((s.setReference e).reply true e) := by
  rw [exec, execThresh, onHeld_held _ _ hh, he]
  rfl

/-- QBIN of a written bin (R151). -/
theorem exec_qbin (hh : s.held = true) {b : Word16} (hb : b.toNat < s.cfg.bufLen / 2) {e : Word32}
    (he : s.binEnergy s.heldSel b.toNat = some e) : exec (.qbin b) s = .next (s.reply true (zext32 (s.level e))) := by
  rw [exec, execQbin, onHeld_held _ _ hh, inRange_lt _ _ _ _ hb, he]
  rfl

/-- QSYM of a symbol whose bins are written (R152). -/
theorem exec_qsym (hh : s.held = true) {i : Word16} (hi : i.toNat < s.cfg.nsym) {v : Byte}
    (hv : s.symByte s.heldSel i.toNat = some v) :
    exec (.qsym i) s = .next ((s.setSym i.toNat v).reply true (zext32 v)) := by
  rw [exec, execQsym, onHeld_held _ _ hh, inRange_lt _ _ _ _ hi, hv]
  rfl

/-- DECODE of a written region: the symbol bytes are those against the new limits (R153). -/
theorem exec_decodeFrame (hh : s.held = true) {e : Word32} (he : s.binEnergy s.heldSel Config.rBin = some e)
    {vs : List Byte} (hvs : (s.setReference e).symBytes s.heldSel = some vs) :
    exec .decodeFrame s = .next (((s.setReference e).setFrame vs).reply true e) := by
  rw [exec, execDecodeFrame, onHeld_held _ _ hh, he, withValue_some, hvs]
  rfl

end

/-! ### The commands, obligation by obligation -/

/-- Settles O28. -/
theorem setrefDerivesTheLimits : Obligations.SetrefDerivesTheLimits := fun s e =>
  ⟨_, exec_setref e s, rfl, s.limitsOfReference_setReference e⟩

/-- Settles O29. -/
theorem threshDerivesTheLimitsOfBinOne : Obligations.ThreshDerivesTheLimitsOfBinOne := by
  intro s
  refine ⟨exec_of_not_held rfl, fun re im hh hre him => ?_⟩
  have hbin : s.binEnergy s.heldSel Config.rBin = some (magsq re im) := s.binEnergy_of_words _ 1 re im hre him
  exact ⟨_, exec_thresh hh hbin, rfl, magsq_toNat re im, s.limitsOfReference_setReference _⟩

/-- Settles O30. -/
theorem qeAnswersTheLevel : Obligations.QeAnswersTheLevel := fun s e h12 h23 =>
  ⟨zext32 (s.level e), exec_qe e s, State.zext32_level_levelIs h12 h23 e⟩

/-- Settles O31. -/
theorem qbinAnswersTheLevelOfABin : Obligations.QbinAnswersTheLevelOfABin := by
  intro s b h12 h23
  refine ⟨exec_of_not_held rfl, fun hh hb => exec_of_indexOutOfRange (by simp [hh]) hb, fun re im hh hb hre him => ?_⟩
  have hbin : s.binEnergy s.heldSel b.toNat = some (magsq re im) := s.binEnergy_of_words _ _ re im hre him
  refine ⟨zext32 (s.level (magsq re im)), exec_qbin hh hb hbin, ?_⟩
  rw [energyOf_toNat]
  exact State.zext32_level_levelIs h12 h23 _

/-- Settles O32: the four levels are the base-4 digits of the symbol byte. -/
theorem qsymDecodesOneSymbol : Obligations.QsymDecodesOneSymbol := by
  intro s i h12 h23 hsym
  refine ⟨exec_of_not_held rfl, fun hh hi => exec_of_indexOutOfRange (by simp [hh]) hi, fun re im hh hi hw => ?_⟩
  refine ⟨_, _, fun k => (s.level (magsq (re k) (im k))).toNat, exec_qsym hh hi (State.symByte_of_words hw), rfl,
    List.length_set, List.getElem?_set_self (hi.trans_eq hsym.symm), fun j hj => List.getElem?_set_ne hj.symm,
    fun k _ => ?_, packLevels_toNat _ _ _ _⟩
  rw [energyOf_toNat]
  exact s.level_levelIs h12 h23 _

/-! ### DECODE is THRESH followed by every QSYM (R153) -/

/-- QSYM with its operand written as a number. -/
theorem exec_qsym_ofNat {s : State} (hh : s.held = true) {k : Nat} (hk : k < s.cfg.nsym) {v : Byte}
    (hv : s.symByte s.heldSel k = some v) :
    exec (.qsym (BitVec.ofNat 16 k)) s = .next ((s.setSym k v).reply true (zext32 v)) := by
  have hnsym := s.cfg.nsym_le
  have hidx : (BitVec.ofNat 16 k).toNat = k := toNat_ofNat16 (by omega)
  have h := exec_qsym hh (hidx.symm ▸ hk) (hidx.symm ▸ hv)
  rwa [hidx] at h

theorem take_succ_set {α : Type} {l : List α} {k : Nat} (hk : k < l.length) (v : α) :
    (l.set k v).take (k + 1) = l.take k ++ [v] := by
  rw [List.take_succ_eq_append_getElem (by simpa using hk), List.take_set_of_le (Nat.le_refl k), List.getElem_set_self]

/-- QSYM of the symbols from `k` to the last: SYM is kept below `k` and holds the symbol bytes from there on, and MATCH
is cleared if there are any. -/
theorem execAll_qsym {vs : List Byte} {k : Nat} {s : State} (hh : s.held = true) (hk : k + vs.length = s.cfg.nsym)
    (hsym : s.sym.length = s.cfg.nsym)
    (hvs : (List.range' k vs.length).map (s.symByte s.heldSel) = vs.map some) :
    ∃ a, execAll ((List.range' k vs.length).map fun i => .qsym (BitVec.ofNat 16 i)) s =
      .next { s with sym := s.sym.take k ++ vs, matched := s.matched && vs.isEmpty, response := a } := by
  induction vs generalizing k s with
  | nil =>
    have htake : s.sym.take k = s.sym := List.take_of_length_le (hsym.trans hk.symm).le
    refine ⟨s.response, ?_⟩
    rw [List.append_nil, htake, List.isEmpty_nil, Bool.and_true]
    rfl
  | cons v vs ih =>
    rw [List.length_cons] at hk hvs ⊢
    rw [List.range'_succ, List.map_cons, List.map_cons, List.cons.injEq] at hvs
    obtain ⟨hv, hvs⟩ := hvs
    have hlt : k < s.cfg.nsym := by omega
    obtain ⟨a, hrest⟩ := ih (k := k + 1) (s := (s.setSym k v).reply true (zext32 v)) hh
      (show k + 1 + vs.length = s.cfg.nsym by omega) (List.length_set.trans hsym) hvs
    refine ⟨a, execAll_cons_eq_next.2 ⟨_, exec_qsym_ofNat hh hlt hv, hrest.trans ?_⟩⟩
    simp [State.reply, State.setSym, take_succ_set (hlt.trans_eq hsym.symm)]

/-- Settles O33: `execAll_qsym` from the state THRESH leaves; NSYM is not 0, so MATCH is cleared. -/
theorem decodeIsThreshThenEveryQsym : Obligations.DecodeIsThreshThenEveryQsym := by
  intro s
  refine ⟨exec_of_not_held rfl, fun hh hw hsym => ?_⟩
  obtain ⟨e, he⟩ := Option.isSome_iff_exists.1 (State.binEnergy_isSome hw (Nat.lt_of_succ_le s.cfg.bin_bounds.2))
  obtain ⟨vs, hvs⟩ := Option.isSome_iff_exists.1 (State.symBytes_isSome (s := s.setReference e) (r := s.heldSel) hw)
  have hlen : vs.length = s.cfg.nsym := State.symBytes_length (s := s.setReference e) hvs
  have hne : vs.isEmpty = false := by
    have := s.cfg.nsym_bound
    rw [List.isEmpty_eq_false_iff, ← List.length_pos_iff]
    omega
  have hbytes : (List.range' 0 vs.length).map ((s.setReference e).symByte s.heldSel) = vs.map some := by
    rw [hlen, ← List.range_eq_range']
    exact (gather_eq_some _ _).1 hvs
  obtain ⟨a, hall⟩ := execAll_qsym (s := (s.setReference e).reply true e) hh ((Nat.zero_add _).trans hlen) hsym
    hbytes
  rw [hlen, ← List.range_eq_range', hne, Bool.and_false] at hall
  exact ⟨_, execAll_cons_eq_next.2 ⟨_, exec_thresh hh he, hall⟩, exec_decodeFrame hh he hvs⟩

/-! ### Levels as exact ratios (R141, R142, R146) -/

/-- `n` is the level that the exact ratios 1/36, 1/4 and 25/36 of the reference `er` give the energy `e`, the
comparisons cross-multiplied (R141). -/
structure RatioLevel (er e n : Nat) : Prop where
  le_three : n ≤ 3
  zero_iff : n = 0 ↔ 36 * e ≤ er
  le_one_iff : n ≤ 1 ↔ 4 * e ≤ er
  le_two_iff : n ≤ 2 ↔ 36 * e ≤ 25 * er

/-- Flooring the limits loses nothing: an integer is at most a quotient exactly when it is at most its floor. -/
theorem State.ratioLevel_setReference (s : State) (er e : Word32) :
    RatioLevel er.toNat e.toNat (zext32 ((s.setReference er).level e)).toNat := by
  obtain ⟨hlim1, hlim2, hlim3⟩ := s.limitsOfReference_setReference er
  rw [State.setReference_eref] at hlim1 hlim2 hlim3
  have h12 : (s.setReference er).lim1.toNat ≤ (s.setReference er).lim2.toNat := by omega
  have h23 : (s.setReference er).lim2.toNat ≤ (s.setReference er).lim3.toNat := by omega
  obtain ⟨h3, h0, h1, h2⟩ := (State.zext32_level_levelIs h12 h23 e).le_iff h12 h23
  rw [hlim1, Nat.le_div_iff_mul_le (by decide), Nat.mul_comm] at h0
  rw [hlim2, Nat.le_div_iff_mul_le (by decide), Nat.mul_comm] at h1
  rw [hlim3, Nat.le_div_iff_mul_le (by decide), Nat.mul_comm e.toNat] at h2
  exact ⟨h3, h0, h1, h2⟩

/-- The ratios determine the level. -/
theorem RatioLevel.unique {er e n n' : Nat} (h : RatioLevel er e n) (h' : RatioLevel er e n') : n = n' := by
  have h0 := h.zero_iff.trans h'.zero_iff.symm
  have h1 := h.le_one_iff.trans h'.le_one_iff.symm
  have h2 := h.le_two_iff.trans h'.le_two_iff.symm
  have h3 := h.le_three
  have h3' := h'.le_three
  omega

/-- A positive factor common to the reference and the energy cancels from each comparison. -/
theorem RatioLevel.of_scaled {er e n c : Nat} (hc : 0 < c) (h : RatioLevel (c * er) (c * e) n) : RatioLevel er e n where
  le_three := h.le_three
  zero_iff := by rw [h.zero_iff, Nat.mul_left_comm, Nat.mul_le_mul_left_iff hc]
  le_one_iff := by rw [h.le_one_iff, Nat.mul_left_comm, Nat.mul_le_mul_left_iff hc]
  le_two_iff := by
    rw [h.le_two_iff, Nat.mul_left_comm, Nat.mul_left_comm 25, Nat.mul_le_mul_left_iff hc]

/-- QE after a SETREF answers the level of the exact ratios of its operand. -/
theorem exec_qe_of_setref {s t : State} {er : Word32} (ht : exec (.setref er) s = .next t) (e : Word32) :
    ∃ v : Word32, exec (.qe e) t = .next { t with response := some ⟨true, v⟩ } ∧
      RatioLevel er.toNat e.toNat v.toNat := by
  obtain rfl := Host.Outcome.next.inj ht
  exact ⟨_, exec_qe e _, s.ratioLevel_setReference er e⟩

/-- Settles O34. -/
theorem levelsCompareExactRatios : Obligations.LevelsCompareExactRatios := by
  intro s t er e ht
  obtain ⟨v, hqe, hlevel⟩ := exec_qe_of_setref ht e
  refine ⟨v, hqe, hlevel.le_three, hlevel.zero_iff, hlevel.le_one_iff, hlevel.le_two_iff, fun her hne => ?_⟩
  have hzero : er.toNat = 0 := congrArg BitVec.toNat her
  have hpos : e.toNat ≠ 0 := fun h => hne (BitVec.eq_of_toNat_eq h)
  have hle := hlevel.le_three
  have habove := hlevel.le_two_iff
  omega

/-- Settles O35: both levels are the one of the exact ratios, from which the factor cancels. -/
theorem levelsAreScaleInvariant : Obligations.LevelsAreScaleInvariant := by
  intro s t t' er e er' e' c hc her he ht ht'
  obtain ⟨v, hqe, hlevel⟩ := exec_qe_of_setref ht e
  obtain ⟨v', hqe', hlevel'⟩ := exec_qe_of_setref ht' e'
  rw [her, he] at hlevel'
  obtain rfl : v = v' := BitVec.eq_of_toNat_eq (hlevel.unique (hlevel'.of_scaled hc))
  exact ⟨v, hqe, hqe'⟩

end Sys2Proof.Machine
end

section
/-! PROOFS. The checksum and the frame of spec/43_checksum_frame.md: the byte-wise form (R168) and what follows from it
(R169), the commands that feed and compare the accumulator (R162 to R165), VALIDATE (R166) and EMIT (R167). -/

namespace Sys2Proof.Machine

/-! ### The byte-wise form (R168) -/

/-- The byte-wise form of R168 from any start: `cksumBytewise` starts it at 0. -/
def crcFrom (c : Byte) (ds : List Byte) : Byte := ds.foldl (fun c d => crcRounds 8 (c ^^^ d)) c

theorem cksumBytewise_eq_crcFrom (ds : List Byte) : cksumBytewise ds = crcFrom 0 ds := rfl

theorem crcFrom_cons (c d : Byte) (ds : List Byte) : crcFrom c (d :: ds) = crcFrom (crcRounds 8 (c ^^^ d)) ds := rfl

theorem crcFrom_concat (c : Byte) (ds : List Byte) (d : Byte) :
    crcFrom c (ds ++ [d]) = crcRounds 8 (crcFrom c ds ^^^ d) := by
  simp [crcFrom]

/-- The accumulator takes the rounds before each further byte and once more at the end, the byte-wise form after each
byte: the rounds move through the fold. -/
theorem cksum_eq_crcFrom (d : Byte) (ds : List Byte) : cksum d ds = crcFrom 0 (d :: ds) := by
  have hstart : 0 ^^^ d = d := BitVec.zero_xor
  rw [cksum_eq_foldl, crcFrom_cons, hstart]
  exact (List.foldl_hom (crcRounds 8) fun _ _ => rfl).symm

/-- Settles O41. -/
theorem bytewiseFormIsTheChecksum : Obligations.BytewiseFormIsTheChecksum := fun d ds =>
  (cksum_eq_crcFrom d ds).trans (cksumBytewise_eq_crcFrom (d :: ds)).symm

/-! ### Linearity, single flips and the residue (R169) -/

/-- Eight rounds lose nothing: they are linear and send only 0 to 0. -/
theorem crcRounds_eight_injective : Function.Injective (crcRounds 8) := by
  intro a b h
  have hxor : crcRounds 8 (a ^^^ b) = 0 := by
    rw [crcRounds_xor, h]
    exact BitVec.xor_self
  exact BitVec.xor_eq_zero_iff.1 (crcRounds_eight_eq_zero _ hxor)

theorem crcFrom_injective (ds : List Byte) : Function.Injective fun c => crcFrom c ds := by
  induction ds with
  | nil => exact Function.injective_id
  | cons d ds ih => exact fun c c' h => (BitVec.xor_left_inj d).1 (crcRounds_eight_injective (ih h))

theorem crcFrom_xor {ds ds' : List Byte} (h : ds.length = ds'.length) (c c' : Byte) :
    crcFrom (c ^^^ c') (List.zipWith (· ^^^ ·) ds ds') = crcFrom c ds ^^^ crcFrom c' ds' := by
  induction ds generalizing ds' c c' with
  | nil => cases List.length_eq_zero_iff.1 h.symm; rfl
  | cons d ds ih =>
    obtain ⟨d', ds', rfl⟩ := List.exists_cons_of_length_eq_add_one h.symm
    have hstart : c ^^^ c' ^^^ (d ^^^ d') = c ^^^ d ^^^ (c' ^^^ d') := by ac_rfl
    rw [List.zipWith_cons_cons, crcFrom_cons, hstart, crcRounds_xor, ih (Nat.succ.inj h)]
    rfl

theorem crcFrom_zeros (n : Nat) : crcFrom 0 (List.replicate n 0) = 0 := by
  induction n with
  | zero => rfl
  | succ n ih => exact ih

/-- Settles O42. -/
theorem checksumIsLinear : Obligations.ChecksumIsLinear := by
  refine ⟨fun d d' ds ds' h => ?_, fun n => ?_⟩
  · have hlen : (d :: ds).length = (d' :: ds').length := congrArg Nat.succ h
    simpa [cksum_eq_crcFrom] using crcFrom_xor hlen 0 0
  · rw [cksum_eq_crcFrom]
    exact crcFrom_zeros (n + 1)

/-- Changing one byte, in whatever way, changes the result: the fold loses neither the byte nor the start. -/
theorem crcFrom_modify_ne {f : Byte → Byte} (hf : ∀ d, f d ≠ d) {ds : List Byte} {j : Nat} (hj : j < ds.length)
    (c : Byte) : crcFrom c (ds.modify j f) ≠ crcFrom c ds := by
  induction ds generalizing j c with
  | nil => exact absurd hj (Nat.not_lt_zero j)
  | cons d ds ih =>
    cases j with
    | zero => exact fun h => hf d ((BitVec.xor_right_inj c).1 (crcRounds_eight_injective (crcFrom_injective ds h)))
    | succ j => exact ih (Nat.lt_of_succ_lt_succ hj) _

theorem xor_twoPow_ne {k : Nat} (hk : k < 8) (d : Byte) : d ^^^ BitVec.twoPow 8 k ≠ d := by
  intro h
  have hbit := congrArg (·.getLsbD k) h
  simp [hk] at hbit

/-- Settles O43. -/
theorem everySingleBitFlipChangesTheChecksum : Obligations.EverySingleBitFlipChangesTheChecksum := by
  intro d d' ds ds' j k hj hk h
  rw [cksum_eq_crcFrom, cksum_eq_crcFrom, h]
  exact crcFrom_modify_ne (xor_twoPow_ne hk) hj 0

/-- The residue: the checksum of a sequence and one byte more is 0 exactly when that byte is the sequence's checksum. -/
theorem cksum_concat_eq_zero_iff (d c : Byte) (ds : List Byte) : cksum d (ds ++ [c]) = 0 ↔ c = cksum d ds := by
  rw [cksum_eq_crcFrom, ← List.cons_append, crcFrom_concat, ← cksum_eq_crcFrom]
  calc crcRounds 8 (cksum d ds ^^^ c) = 0 ↔ cksum d ds ^^^ c = 0 := crcRounds_eight_injective.eq_iff' rfl
    _ ↔ c = cksum d ds := BitVec.xor_eq_zero_iff.trans eq_comm

/-! ### The commands that feed and compare the accumulator (R162 to R165) -/

theorem exec_ckinit (d : Byte) (s : State) :
    exec (.ckinit d) s = .next (State.reply { s with ckacc := ckstart d } true (zext32 d)) := rfl

theorem exec_ckbyte (d : Byte) (s : State) : exec (.ckbyte d) s =
    .next (State.reply { s with ckacc := ckfeed s.ckacc d } true (zext32 (highByte (ckfeed s.ckacc d)))) := rfl

/-- CKFIN is CKBYTE of the zero byte (R164). -/
theorem exec_ckfin (s : State) : exec .ckfin s = exec (.ckbyte 0) s := rfl

theorem exec_ckcmp (d : Byte) (s : State) : exec (.ckcmp d) s =
    .next (State.reply { s with matched := highByte s.ckacc == d } true
      (zext32 (BitVec.ofBool (highByte s.ckacc == d)))) := rfl

theorem ckstart_toNat (d : Byte) : (ckstart d).toNat = 256 * d.toNat := by
  rw [ckstart, toNat_append_eq, Nat.mul_comm]
  rfl

/-- A feed as R161 writes it: the old high byte and the byte fed, as one number. -/
theorem ckfeed_eq_cksteps_ofNat (acc : Word16) (d : Byte) :
    ckfeed acc d = cksteps 8 (BitVec.ofNat 16 (256 * (acc.toNat / 256) + d.toNat)) := by
  have hacc := acc.isLt
  have hd := d.isLt
  refine congrArg (cksteps 8) (BitVec.eq_of_toNat_eq ?_)
  rw [toNat_append_eq, highByte_toNat, toNat_ofNat16 (by omega)]
  omega

/-- Settles O36. -/
theorem checksumCommandsFeedTheAccumulator : Obligations.ChecksumCommandsFeedTheAccumulator := fun s d =>
  ⟨⟨_, exec_ckinit d s, rfl, ckstart_toNat d⟩,
    ⟨_, exec_ckbyte d s, rfl, ckfeed_eq_cksteps_ofNat s.ckacc d, ckfeed_low s.ckacc d, highByte_ckfeed s.ckacc d⟩,
    ⟨_, exec_ckfin s, exec_ckbyte 0 s, rfl, ckfeed_eq_cksteps_ofNat s.ckacc 0⟩⟩

/-- The high byte is a given byte exactly when the numbers agree. -/
theorem highByte_eq_iff (acc : Word16) (d : Byte) : highByte acc = d ↔ acc.toNat / 256 = d.toNat := by
  rw [← BitVec.toNat_inj, highByte_toNat]

/-- Settles O37. -/
theorem ckcmpComparesTheHighByte : Obligations.CkcmpComparesTheHighByte := by
  intro s d
  rw [exec_ckcmp, ne_eq, ← highByte_eq_iff]
  refine ⟨fun h => ?_, fun h => ?_⟩
  · rw [beq_iff_eq.2 h]
    rfl
  · rw [beq_eq_false_iff_ne.2 h]
    rfl

/-! ### VALIDATE (R166) -/

/-- VALIDATE of the frame d, ds, c: the accumulator of d, ds is left in CKACC, and c is compared with its high byte. -/
theorem exec_validate_frame {s : State} {d c : Byte} {ds : List Byte} (h : s.sym = d :: (ds ++ [c]))
    (hl : s.sym.length = s.cfg.nsym) :
    exec .validate s = .next (State.reply { s with ckacc := ckaccOf d ds, matched := cksum d ds == c } true
      (zext32 (BitVec.ofBool (cksum d ds == c)))) := by
  obtain ⟨hfirst, hrest, hlast, -, -⟩ := s.frame_parts d c ds h hl
  rw [exec, execValidate, State.frameAcc, hfirst, hrest, hlast]
  rfl

/-- Settles O38. -/
theorem validateComparesTheFrameChecksum : Obligations.ValidateComparesTheFrameChecksum := by
  intro s d c ds h hl
  refine ⟨_, exec_validate_frame h hl, rfl, rfl, ckfeed_low _ 0, fun hc => ?_, fun hc => ?_⟩
  · rw [beq_iff_eq.2 hc]
    exact ⟨rfl, rfl⟩
  · rw [beq_eq_false_iff_ne.2 hc]
    exact ⟨rfl, rfl⟩

/-- Settles O44: VALIDATE compares the last byte with the checksum, which it is. -/
theorem appendedChecksumValidates : Obligations.AppendedChecksumValidates := by
  refine ⟨cksum_concat_eq_zero_iff, fun s d ds h hl => ?_⟩
  obtain ⟨t, ht, -, -, -, hvalid, -⟩ := validateComparesTheFrameChecksum s d (cksum d ds) ds h hl
  exact ⟨t, ht, hvalid rfl⟩

/-- CKBYTE of each of a list of bytes feeds them in order; only the response besides depends on them. -/
theorem execAll_ckbyte (ds : List Byte) (is : List Instr) (s : State) : ∃ a,
    execAll (ds.map Instr.ckbyte ++ is) s =
      execAll is { s with ckacc := ds.foldl ckfeed s.ckacc, response := a } := by
  induction ds generalizing s with
  | nil => exact ⟨s.response, rfl⟩
  | cons d ds ih => exact ih (State.reply { s with ckacc := ckfeed s.ckacc d } true _)

/-- Settles O39: CKFIN leaves `ckaccOf` of the payload in CKACC, and CKCMP compares and answers as VALIDATE does. -/
theorem validateIsTheCommandSequence : Obligations.ValidateIsTheCommandSequence := by
  intro s d c ds h hl
  obtain ⟨a, hfeed⟩ := execAll_ckbyte ds [.ckfin, .ckcmp c]
    (State.reply { s with ckacc := ckstart d } true (zext32 d))
  rw [exec_validate_frame h hl]
  exact hfeed

/-! ### EMIT (R167) -/

section
variable {s : State}

/-- EMIT of a validated frame. -/
theorem exec_emit_of_matched (hm : s.matched = true) : exec .emit s =
    .next (State.reply { s with out := s.out ++ s.emitted, matched := false } true
      (BitVec.ofNat 32 s.emitted.length)) := by
  rw [exec, execEmit, if_pos hm]
  rfl

/-- EMIT with nothing validated. -/
theorem exec_emit_of_not_matched (hm : s.matched = false) : exec .emit s = .next (s.reply true 0) := by
  rw [exec, execEmit, hm]
  rfl

theorem State.emitted_of_firstOnly (h : s.cfg.emitFirstOnly = true) : s.emitted = [s.symAt 0] := if_pos h

theorem State.emitted_of_not_firstOnly (h : s.cfg.emitFirstOnly = false) : s.emitted = s.payload := by
  rw [State.emitted, h]
  rfl

end

/-- Settles O45. -/
theorem emitWritesTheValidatedPayload : Obligations.EmitWritesTheValidatedPayload := by
  intro s d c ds h hl
  obtain ⟨hfirst, -, -, hpayload, hlen⟩ := s.frame_parts d c ds h hl
  refine ⟨fun hm he => ?_, fun hm he => ?_, exec_emit_of_not_matched⟩
  · rw [exec_emit_of_matched hm, State.emitted_of_firstOnly he, hfirst]
    rfl
  · have hemitted : s.emitted = d :: ds := (State.emitted_of_not_firstOnly he).trans hpayload
    have hmax := s.cfg.nsym_le
    refine ⟨BitVec.ofNat 32 (d :: ds).length, ?_, ?_⟩
    · rw [exec_emit_of_matched hm, hemitted]
      rfl
    · rw [List.length_cons, BitVec.toNat_ofNat, Nat.mod_eq_of_lt (by omega)]
      omega

end Sys2Proof.Machine
end

section
/-! PROOFS. The system commands of spec/44_system.md: NOP (R180), RDSYM (R182) and WRSYM (R183), and CKSUM as a run of a
program (R185). -/

namespace Sys2Proof.Machine

/-! ### NOP (R180) -/

theorem exec_nop (s : State) : exec .nop s = .next (s.reply true 0) := rfl

/-- The all-zero command word is what NOP is encoded as. -/
theorem encode_nop : encode .nop = .command 0 := rfl

/-- Settles O14. -/
theorem nopWritesNothing : Obligations.NopWritesNothing := by
  refine ⟨exec_nop, fun s => ?_⟩
  calc step (s.present (.command 0)) = perform (.command 0) s := step_present s _
    _ = exec .nop s := by rw [← encode_nop, perform_encode]
    _ = .next (s.reply true 0) := exec_nop s

/-! ### RDSYM and WRSYM (R182, R183) -/

section
variable {s : State} {i : Word16}

/-- RDSYM of a symbol of the frame. -/
theorem exec_rdsym (hi : i.toNat < s.cfg.nsym) :
    exec (.rdsym i) s = .next (s.reply true (zext32 (s.symAt i.toNat))) := inRange_lt _ _ _ _ hi

/-- WRSYM of a symbol of the frame. -/
theorem exec_wrsym (hi : i.toNat < s.cfg.nsym) (v : Byte) :
    exec (.wrsym i v) s = .next ((s.setSym i.toNat v).reply true 0) := inRange_lt _ _ _ _ hi

end

/-- SYM[i] is the register of that index, where there is one (log 13 is about the others). -/
theorem State.symAt_eq_getElem {s : State} {i : Nat} (h : i < s.sym.length) : s.symAt i = s.sym[i] :=
  List.getD_eq_getElem _ _ h

/-- Settles O17. -/
theorem rdsymReadsOneSymbol : Obligations.RdsymReadsOneSymbol := by
  intro s i hsym
  refine ⟨fun hi => ⟨_, exec_rdsym (hi.trans_eq hsym), ?_⟩,
    fun hi => exec_of_indexOutOfRange (by simp [accessesHeld]) hi⟩
  rw [zext32_toNat _ (by decide), State.symAt_eq_getElem hi]

/-- Settles O18. -/
theorem wrsymWritesOneSymbol : Obligations.WrsymWritesOneSymbol := by
  intro s i v hsym
  refine ⟨fun hi => ⟨_, exec_wrsym hi v, rfl, ?_⟩, fun hi => exec_of_indexOutOfRange (by simp [accessesHeld]) hi⟩
  exact ⟨List.length_set, List.getElem?_set_self (hi.trans_eq hsym.symm), fun j hj => List.getElem?_set_ne hj.symm⟩

/-! ### CKSUM (R185) -/

/-- The operations CKSUM expands to leave the accumulator of R160 in CKACC, and the last one answers its high byte. -/
theorem execAll_cksum (d : Byte) (ds : List Byte) (s : State) :
    execAll (.ckinit d :: (ds.map Instr.ckbyte ++ [.ckfin])) s =
      .next (State.reply { s with ckacc := ckaccOf d ds } true (zext32 (cksum d ds))) := by
  obtain ⟨a, hfeed⟩ := execAll_ckbyte ds [.ckfin] (State.reply { s with ckacc := ckstart d } true (zext32 d))
  exact hfeed

/-- CKSUM has a line for its first byte, one for each further byte and one for the zero pass, and each is a command. -/
theorem cksum_isCommand (d : Byte) (ds : List Byte) :
    ∀ i ∈ Instr.ckinit d :: (ds.map Instr.ckbyte ++ [.ckfin]), i.isCommand = true := by
  simp only [List.mem_cons, List.mem_append, List.mem_map, List.not_mem_nil, or_false]
  rintro i (rfl | ⟨b, -, rfl⟩ | rfl) <;> rfl

/-- Settles O40: the run performs one command a turn. -/
theorem cksumExpansionAnswersTheChecksum : Obligations.CksumExpansionAnswersTheChecksum := by
  intro s d ds rest
  have hlen : (Instr.ckinit d :: (ds.map Instr.ckbyte ++ [.ckfin])).length = ds.length + 2 := by simp
  have hrun := Run.turns_commands _ rest s _ (cksum_isCommand d ds) (execAll_cksum d ds s)
  rw [hlen] at hrun
  exact ⟨_, execAll_cksum d ds s, hrun, rfl, rfl⟩

end Sys2Proof.Machine
end

section
/-! PROOFS. Faults are precise, and each of the two contexts writes its own state alone (spec/60_exceptions.md R191, R200,
spec/10_state.md R39). -/

namespace Sys2Proof.Machine

/-! ### A command that answers ok = 0 (R191, R39) -/

/-- Only an idle TAKE and the two faults of a command answer ok = 0: one that has its effect answers ok = 1. -/
theorem CommandOutcome.of_not_ok {i : Instr} {s t : State} {res : Word32} (h : CommandOutcome i s t)
    (hresp : t.response = some ⟨false, res⟩) :
    (i = .take ∧ t = s.reply false 0) ∨ (i ≠ .take ∧ ∃ f, (f = .noheld ∨ f = .range) ∧ t = s.raise f) := by
  cases h with
  | ok hd =>
    obtain ⟨r, hr⟩ := hd.resp
    cases hr.symm.trans hresp
  | noheld ha _ ht => exact .inr ⟨(by rintro rfl; cases ha), .noheld, .inl rfl, ht⟩
  | range hr _ ht => exact .inr ⟨(by rintro rfl; exact hr), .range, .inr rfl, ht⟩
  | idle hi _ ht => exact .inl ⟨hi, ht⟩

/-- Settles O52. -/
theorem faultingCommandIsPrecise : Obligations.FaultingCommandIsPrecise := fun i s t _ h hi hresp =>
  (exec_command_outcome i s t hi h).of_not_ok hresp

/-! ### The write sets of the two contexts (R200) -/

/-- A command writes memory of the held region alone, and none while nothing is held. -/
theorem CommandOutcome.held_of_mem_ne {i : Instr} {s t : State} (h : CommandOutcome i s t) {a : Nat}
    (ha : t.mem.readByte a ≠ s.mem.readByte a) : s.held = true ∧ inRegion s.cfg.toConfig s.heldSel a := by
  cases h with
  | ok hd => exact hd.mem a ha
  | noheld _ _ ht | range _ _ ht | idle _ _ ht => exact absurd (by rw [ht]; rfl) ha

/-- A tick sets no FAULT bit but OVR (R195). -/
theorem tickState_hasFault_of_ne_ovr (raw : Reading) (s : State) {f : FaultBit} (hf : f ≠ .ovr) :
    (tickState raw s).hasFault f = s.hasFault f := by
  rw [tickState_hasFault, decide_eq_false hf, Bool.false_and, Bool.or_false]

/-- No tick clears RDY (R26). -/
theorem tickState_keeps_rdy (raw : Reading) {s : State} (h : s.rdy = true) : (tickState raw s).rdy = true := by
  obtain ⟨hkept, -, -⟩ | ⟨hset, -, -⟩ := tickState_rdy raw s
  · exact hkept.trans h
  · exact hset

/-- Settles O54: what every outcome of a command keeps, and the frame of a tick. -/
theorem eachContextWritesOnlyItsOwnState : Obligations.EachContextWritesOnlyItsOwnState := by
  intro i s t h
  refine ⟨fun hi => ?_, ?_⟩
  · have ho := exec_command_outcome i s t hi h
    have hk := ho.keeps
    exact ⟨hk.st, hk.cnt, hk.cur, hk.act, hk.rdySel, hk.rdy, hk.ovr, hk.cfg, fun a => ho.held_of_mem_ne⟩
  · rintro raw rfl
    obtain rfl := Host.Outcome.next.inj ((exec_tick raw s).symm.trans h)
    obtain ⟨hheld, hsel, heref, h1, h2, h3, hck, hsym, hmatch, hout, hcfg⟩ := tickState_frame raw s
    exact ⟨hheld, hsel, heref, h1, h2, h3, hck, hsym, hmatch, hout, tickState_keeps_rdy raw,
      tickState_hasFault_of_ne_ovr raw s (by decide), tickState_hasFault_of_ne_ovr raw s (by decide),
      tickState_hasFault_of_ne_ovr raw s (by decide), hcfg, tickState_mem raw s⟩

end Sys2Proof.Machine
end

section
/-! PROOFS. The state RESET leaves (spec/70_reset_and_hazards.md R210, spec/10_state.md R40, R44), and where an operation
stops: on an unwritten word of the held region, which no state of the invariant has (R211). -/

namespace Sys2Proof.Machine

/-! ### RESET (R210, R44) -/

/-- RESET puts the reset state under the same configuration and leaves the events presented (log 10). -/
theorem exec_reset (s : State) : exec .reset s = .next ((State.resetWith s.cfg).withInbox s.inbox) := rfl

/-- STATUS reads 0 after reset: what RDSR 0 answers there is STATUS. -/
theorem status_resetWith (c : WfConfig) : (State.resetWith c).status = 0 := by
  have hread : exec (.rdsr 0) (State.resetWith c) = .next ((State.resetWith c).reply true (State.resetWith c).status) :=
    exec_rdsr_mapped rfl
  have hzero : exec (.rdsr 0) (State.resetWith c) = .next ((State.resetWith c).reply true 0) :=
    statusHasTheLayoutOfItsFields.2 c
  simpa [State.reply] using hread.symm.trans hzero

/-- Settles O46. -/
theorem resetGivesTheResetState : Obligations.ResetGivesTheResetState := by
  refine ⟨fun s => ?_, fun c => ⟨rfl, rfl, rfl⟩⟩
  obtain ⟨-, hmax, -, -⟩ := s.cfg.count_bounds
  exact ⟨_, exec_reset s, rfl, toNat_ofNat16 hmax, List.length_replicate, fun _ => List.eq_of_mem_replicate,
    fun _ => rfl, status_resetWith s.cfg⟩

/-! ### Where a value that is read is not there (R211) -/

section
variable {s : State} {r : Region}

/-- A bin has no energy exactly when one of its two words is unwritten. -/
theorem State.binEnergy_eq_none {b : Nat} : s.binEnergy r b = none ↔ ∃ j, inBin b j ∧ s.written r j = false := by
  have hwords : (∃ j, inBin b j ∧ s.written r j = false) ↔ s.load r (2 * b) = none ∨ s.load r (2 * b + 1) = none := by
    simp only [inBin, or_and_right, exists_or, exists_eq_left, State.written, Option.isSome_eq_false_iff,
      Option.isNone_iff_eq_none]
  rw [hwords, State.binEnergy, binWord]
  cases s.load r (2 * b) <;> cases s.load r (2 * b + 1) <;> simp

/-- A symbol has no byte exactly when a word of one of its four bins is unwritten. -/
theorem State.symByte_eq_none {i : Nat} : s.symByte r i = none ↔ ∃ j, inSymbol i j ∧ s.written r j = false := by
  have hbins : (∃ j, inSymbol i j ∧ s.written r j = false) ↔ ∃ k < 4, s.binEnergy r (3 + 5 * i + k) = none := by
    simp only [State.binEnergy_eq_none, inSymbol]
    grind
  rw [hbins, State.symByte, symbolBase_eq]
  split
  next h0 h1 h2 h3 =>
    have hsome : ∀ k < 4, s.binEnergy r (3 + 5 * i + k) ≠ none := by
      intro k hk
      interval_cases k <;> simp [h0, h1, h2, h3]
    exact iff_of_false nofun fun ⟨k, hk, hnone⟩ => hsome k hk hnone
  next hno =>
    refine iff_of_true rfl ?_
    by_contra! hsome
    have hbin : ∀ k < 4, ∃ e, s.binEnergy r (3 + 5 * i + k) = some e := fun k hk =>
      Option.ne_none_iff_exists'.1 (hsome k hk)
    obtain ⟨e0, h0⟩ := hbin 0 (by decide)
    obtain ⟨e1, h1⟩ := hbin 1 (by decide)
    obtain ⟨e2, h2⟩ := hbin 2 (by decide)
    obtain ⟨e3, h3⟩ := hbin 3 (by decide)
    exact hno e0 e1 e2 e3 h0 h1 h2 h3

/-- Gathering fails exactly when a value is missing. -/
theorem gather_eq_none {α : Type} (l : List (Option α)) : gather l = none ↔ none ∈ l := by
  induction l with
  | nil => simp [gather]
  | cons o l ih =>
    cases o with
    | none => simp [gather]
    | some x => cases hg : gather l <;> simp_all [gather]

theorem State.symBytes_eq_none : s.symBytes r = none ↔ ∃ i < s.cfg.nsym, s.symByte r i = none := by
  simp [State.symBytes, gather_eq_none]

theorem State.loadRegion_eq_none : s.loadRegion r = none ↔ ∃ j < s.cfg.bufLen, s.written r j = false := by
  simp [State.loadRegion, gather_eq_none, State.written]

end

/-! ### What each shared operation stops at -/

/-- An outcome that is no next state. -/
def IsStop (x : Result) : Prop := ∀ t, x ≠ .next t

section
variable {s : State} {x : Result} (hx : IsStop x)
include hx

theorem IsStop.next_ne (t : State) : .next t ≠ x := (hx t).symm

theorem IsStop.done_ne (t : State) (ok : Bool) (res : Word32) : done t ok res ≠ x := hx.next_ne _

theorem IsStop.onHeld_eq {k : Region → Result} : onHeld s k = x ↔ s.held = true ∧ k s.heldSel = x := by
  cases h : s.held with
  | false => rw [onHeld_not_held s k h]; exact iff_of_false (hx.next_ne _) nofun
  | true => simp [onHeld_held s k h]

theorem IsStop.inRange_eq {i n : Nat} {k : Result} : inRange s i n k = x ↔ i < n ∧ k = x := by
  rcases lt_or_ge i n with h | h
  · simp [inRange_lt s i n k h, h]
  · rw [inRange_ge s i n k h]
    exact iff_of_false (hx.next_ne _) fun ⟨hlt, _⟩ => absurd hlt (Nat.not_lt.2 h)

/-- Where the rest of a command has its effect, reading alone can stop it. -/
theorem IsStop.withValue_done_eq {α : Type} {o : Option α} {f : α → State} {ok : Bool} {g : α → Word32} :
    (withValue o fun v => done (f v) ok (g v)) = x ↔ o = none ∧ x = .fault .unwrittenWord := by
  cases o with
  | none => simp [withValue, eq_comm]
  | some v => simpa using hx.done_ne (f v) ok (g v)

end

/-- The operation gets to read a word of the held region that nothing has written: its checks pass, and it reads one. -/
def ReadsUnwritten (s : State) (i : Instr) : Prop :=
  s.held = true ∧ ¬ indexOutOfRange s i ∧ ∃ j < s.cfg.bufLen, readsHeldWord s j i ∧ s.written s.heldSel j = false

/-- The bins a command reads lie in the region (R6 (e), (f)). -/
theorem readsHeldWord_lt {s : State} {i : Instr} (hi : i ≠ .xform) (hrange : ¬ indexOutOfRange s i) {j : Nat}
    (hj : readsHeldWord s j i) : j < s.cfg.bufLen := by
  have hone := s.cfg.bin_bounds.2
  have hsymbol : ∀ n < s.cfg.nsym, inSymbol n j → j < s.cfg.bufLen := by
    rintro n hn ⟨k, hk, hbin⟩
    have hlt := symbolBase_lt s.cfg hn
    rw [symbolBase_eq] at hlt
    simp only [inBin] at hbin
    omega
  simp only [Config.rBin] at hone
  cases i with
  | xform => exact absurd rfl hi
  | lds | thresh | qbin =>
    simp only [readsHeldWord, indexOutOfRange, inBin] at hj hrange
    omega
  | qsym n => exact hsymbol _ (Nat.not_le.1 hrange) hj
  | decodeFrame =>
    obtain hj | ⟨n, hn, hj⟩ := hj
    · simp only [inBin] at hj
      omega
    · exact hsymbol n hn hj
  | _ => exact hj.elim

/-- So the words it reads need no bound of their own. -/
theorem readsUnwritten_iff {s : State} {i : Instr} (hi : i ≠ .xform) : ReadsUnwritten s i ↔
    s.held = true ∧ ¬ indexOutOfRange s i ∧ ∃ j, readsHeldWord s j i ∧ s.written s.heldSel j = false := by
  refine and_congr_right fun _ => and_congr_right fun hrange => exists_congr fun j => ?_
  exact and_iff_right_of_imp fun ⟨hj, _⟩ => readsHeldWord_lt hi hrange hj

/-- An operation that reads no word of the held region always goes on. -/
theorem IsStop.exec_ne {i : Instr} {s : State} {x : Result} (hx : IsStop x) (hi : ∀ j, ¬ readsHeldWord s j i) :
    exec i s ≠ x := by
  cases i with
  | nop | smul | sqr | magsq | release | setref | qe | ckinit | ckbyte | ckfin | ckcmp | validate | tick | reset =>
    exact hx.next_ne _
  | take | emit =>
    simp only [exec, execTake, execEmit]
    split <;> exact hx.done_ne _ _ _
  | rdsr =>
    simp only [exec, execRdsr]
    split <;> exact hx.next_ne _
  | rdsym | wrsym => exact fun h => hx.done_ne _ _ _ (hx.inRange_eq.1 h).2
  | sts =>
    rw [exec, execSts, Ne, hx.onHeld_eq, hx.inRange_eq]
    exact fun ⟨_, _, h⟩ => hx.done_ne _ _ _ h
  | lds => exact absurd rfl (hi _)
  | xform => exact absurd trivial (hi 0)
  | thresh | qbin => exact absurd (.inl rfl) (hi _)
  | qsym => exact absurd ⟨0, by decide, .inl rfl⟩ (hi _)
  | decodeFrame => exact absurd (.inl (.inl rfl)) (hi _)

/-- An operation stops only with the fault of an unwritten word, and exactly where it reads one. -/
theorem IsStop.exec_eq {i : Instr} {s : State} {x : Result} (hx : IsStop x) :
    exec i s = x ↔ ReadsUnwritten s i ∧ x = .fault .unwrittenWord := by
  cases i with
  | lds k =>
    rw [readsUnwritten_iff (by simp), exec, execLds, hx.onHeld_eq, hx.inRange_eq, hx.withValue_done_eq]
    simp [readsHeldWord, indexOutOfRange, State.written, and_assoc]
  | xform =>
    rw [exec, execXform, hx.onHeld_eq, hx.withValue_done_eq, State.loadRegion_eq_none]
    simp [ReadsUnwritten, readsHeldWord, indexOutOfRange, and_assoc]
  | thresh =>
    rw [readsUnwritten_iff (by simp), exec, execThresh, hx.onHeld_eq, hx.withValue_done_eq,
      State.binEnergy_eq_none]
    simp [readsHeldWord, indexOutOfRange, Config.rBin, and_assoc]
  | qbin b =>
    rw [readsUnwritten_iff (by simp), exec, execQbin, hx.onHeld_eq, hx.inRange_eq,
      hx.withValue_done_eq, State.binEnergy_eq_none]
    simp [readsHeldWord, indexOutOfRange, and_assoc]
  | qsym k =>
    rw [readsUnwritten_iff (by simp), exec, execQsym, hx.onHeld_eq, hx.inRange_eq,
      hx.withValue_done_eq, State.symByte_eq_none]
    simp [readsHeldWord, indexOutOfRange, and_assoc]
  | decodeFrame =>
    have hsymbols : ∀ e, (s.setReference e).symBytes s.heldSel = none ↔ s.symBytes s.heldSel = none := fun e => by
      simp only [State.symBytes_eq_none, State.symByte_eq_none]
      rfl
    have hreads : (∃ j, readsHeldWord s j .decodeFrame ∧ s.written s.heldSel j = false) ↔
        s.binEnergy s.heldSel Config.rBin = none ∨ s.symBytes s.heldSel = none := by
      simp only [State.binEnergy_eq_none, State.symBytes_eq_none, State.symByte_eq_none, readsHeldWord, Config.rBin]
      grind
    rw [readsUnwritten_iff (by simp), hreads, exec, execDecodeFrame, hx.onHeld_eq]
    cases s.binEnergy s.heldSel Config.rBin with
    | none => simp [withValue, indexOutOfRange, @eq_comm _ x]
    | some e =>
      rw [withValue_some, hx.withValue_done_eq, hsymbols]
      simp [indexOutOfRange, and_assoc]
  | _ => exact iff_of_false (hx.exec_ne fun _ => id) fun ⟨⟨_, _, _, _, hread, _⟩, _⟩ => hread

/-- Settles O50. -/
theorem onlyReadingAnUnwrittenWordStops : Obligations.OnlyReadingAnUnwrittenWordStops := fun i s =>
  ⟨(IsStop.exec_eq fun _ => by simp).trans (and_iff_left rfl),
    fun r h => by simpa using ((IsStop.exec_eq (x := .refused r) fun _ => by simp).1 h).2⟩

/-- In a state of the invariant the held region is whole, so no operation stops. -/
theorem Inv.exec_next {s : State} (hs : Inv s) (i : Instr) : ∃ t, exec i s = .next t := by
  by_contra hno
  have hstop : IsStop (exec i s) := fun t h => hno ⟨t, h⟩
  obtain ⟨⟨hheld, -, j, hj, -, hunwritten⟩, -⟩ := hstop.exec_eq.1 rfl
  exact Bool.eq_false_iff.1 hunwritten (hs.heldWritten hheld j hj)

/-- Nor does an event. -/
theorem Inv.perform_next {s : State} (hs : Inv s) (e : Event) : ∃ t, Machine.perform e s = .next t := by
  unfold Machine.perform
  cases decode e with
  | ok i => exact hs.exec_next i
  | error => exact ⟨_, rfl⟩

/-- Settles O49: the step performs the next event presented, and the invariant is kept. -/
theorem noReachableStepStops : Obligations.NoReachableStepStops := by
  intro s hs
  have hnext : ∃ t, step s = .next t := by
    cases hin : s.inbox with
    | nil => exact ⟨s, step_of_inbox_nil hin⟩
    | cons e es => exact step_of_inbox_cons hin ▸ (hs.withInbox es).perform_next e
  obtain ⟨t, ht⟩ := hnext
  exact ⟨t, ht, stepKeepsTheInvariant s t hs ht⟩

end Sys2Proof.Machine
end

section
/-! PROOFS. How soon after a hand-off FAULT.OVR can be set (spec/70_reset_and_hazards.md R215, spec/41_acquire.md R114,
R116, R123). -/

namespace Sys2Proof.Machine

/-! ### Ticks as events -/

/-- What every event of a sequence keeps, its ticks counted off, holds after the sequence. -/
theorem performAll_induction {P : Nat → State → Prop} {es : List Event} {s t : State} (hs : P (tickCount es) s)
    (h : performAll es s = .next t)
    (hP : ∀ {e n s t}, P (e.readings.length + n) s → perform e s = .next t → P n t) : P 0 t := by
  induction es generalizing s with
  | nil => exact Host.Outcome.next.inj h ▸ hs
  | cons e es ih =>
    obtain ⟨u, hu, h⟩ := performAll_cons_eq_next.1 h
    rw [← length_readings, List.flatMap_cons, List.length_append, length_readings] at hs
    exact ih (hP hs hu) h

theorem performAll_append {es es' : List Event} {s t : State} (h : performAll (es ++ es') s = .next t) :
    ∃ u, performAll es s = .next u ∧ performAll es' u = .next t := by
  induction es generalizing s with
  | nil => exact ⟨s, rfl, h⟩
  | cons e es ih =>
    obtain ⟨v, hv, h⟩ := performAll_cons_eq_next.1 h
    obtain ⟨u, hu, h⟩ := ih h
    exact ⟨u, performAll_cons_eq_next.2 ⟨v, hv, hu⟩, h⟩

/-! ### The phases a tick goes through -/

/-- A tick goes on searching, starts a capture, goes on capturing, or is the buffer-full tick. -/
inductive TickPhase (raw : Reading) (s : State) : Prop where
  | searching (hst : s.st ≠ .capturing) (hst' : (tickState raw s).st ≠ .capturing)
      (hact : (tickState raw s).act = s.act)
  | starts (hst : s.st = .guarding) (hcnt : s.cnt.toNat = 1) (hst' : (tickState raw s).st = .capturing)
  | stores (hst : s.st = .capturing) (hst' : (tickState raw s).st = .capturing)
  | full (h : s.atBufferFull)

theorem tickState_phase (raw : Reading) (s : State) : TickPhase raw s := by
  cases hst : s.st with
  | searchingSilence =>
    obtain ⟨hst', hact⟩ : (tickState raw s).st ≠ .capturing ∧ (tickState raw s).act = s.act := by
      rw [tickState_searchingSilence raw hst, tickSilence]
      split
      · split <;> simp [hst]
      · simp [hst]
    exact .searching (by simp [hst]) hst' hact
  | searchingBurstStart =>
    obtain ⟨hst', hact⟩ : (tickState raw s).st ≠ .capturing ∧ (tickState raw s).act = s.act := by
      rw [tickState_searchingBurstStart raw hst, tickBurstStart]
      split <;> simp [hst]
    exact .searching (by simp [hst]) hst' hact
  | guarding =>
    by_cases hcnt : s.cnt.toNat = 1
    · exact .starts hst hcnt (by rw [tickState_last_guard raw hst hcnt]; rfl)
    · have hcount := tickState_guarding raw hst hcnt
      exact .searching (by simp [hst]) (by simp [hcount, hst]) (by rw [hcount])
  | capturing =>
    rcases lt_or_ge s.cur.toNat s.cfg.bufLen with hlt | hfull
    · exact .stores hst (by rw [tickState_store raw hst hlt]; exact hst)
    · exact .full ⟨hst, hfull⟩

/-- The ticks still needed where the next tick starts a capture. -/
theorem ticksToReady_of_last_guard {s : State} (hst : s.st = .guarding) (hcnt : s.cnt.toNat = 1) :
    s.ticksToReady = s.cfg.bufLen + 2 := by
  simp only [State.ticksToReady, hst]
  omega

/-- The ticks still needed where the countdown in SEARCHING_SILENCE is fresh, as after a buffer-full tick. -/
theorem ticksToReady_of_fresh {s : State} (hst : s.st = .searchingSilence) (hcnt : s.cnt.toNat = s.cfg.nSilence) :
    s.ticksToReady = s.cfg.nSilence + 1 + s.cfg.nGuard + s.cfg.bufLen + 1 := by
  simp only [State.ticksToReady, hst, hcnt]

theorem perform_cfg {e : Event} {s t : State} (h : perform e s = .next t) : t.cfg = s.cfg := by
  obtain ⟨-, hk⟩ | ⟨raw, -, rfl⟩ | ⟨-, rfl⟩ := perform_tick_agent h
  · exact hk.cfg
  · obtain ⟨-, -, -, -, -, -, -, -, -, -, hcfg⟩ := tickState_frame raw s
    exact hcfg
  · rfl

/-- Ticks too few for the next hand-off and a capture start after it are so after each event. -/
theorem Inv.ticks_left_perform {e : Event} {n : Nat} {s t : State} (hs : Inv s) (hp : Machine.perform e s = .next t)
    (h : e.readings.length + n < s.ticksToReady + (s.cfg.nSilence + 1 + s.cfg.nGuard)) :
    n < t.ticksToReady + (t.cfg.nSilence + 1 + t.cfg.nGuard) := by
  have hnear := hs.ticksToReady_perform hp
  rw [perform_cfg hp]
  omega

/-- An event leaves FAULT.OVR clear unless it is a tick that starts a capture in the held region (R114). -/
theorem ovrClear_perform {e : Event} {s t : State} (hp : perform e s = .next t) (h : s.ovrClear = true)
    (hstart : (∃ raw, e = .tick raw) → s.st = .guarding → s.cnt.toNat = 1 → s.held = true → s.heldSel = s.act) :
    t.ovrClear = true := by
  simp only [State.ovrClear, Bool.not_eq_true'] at h ⊢
  obtain ⟨-, hk⟩ | ⟨raw, rfl, rfl⟩ | ⟨-, rfl⟩ := perform_tick_agent hp
  · exact hk.ovr.trans h
  · refine (tickState_hasFault raw s .ovr).trans ?_
    simpa [h] using hstart ⟨raw, rfl⟩
  · exact hasFault_resetWith s.cfg .ovr

/-! ### Before the next capture start -/

/-- No capture is under way, and `n` ticks are too few for one to start. -/
structure BeforeStart (n : Nat) (s : State) : Prop where
  inv : Inv s
  clear : s.ovrClear = true
  searching : s.st ≠ .capturing
  far : n + s.cfg.bufLen + 1 < s.ticksToReady

/-- The first of these ticks starts none. -/
theorem BeforeStart.not_starts {n : Nat} {s : State} (h : BeforeStart (1 + n) s) :
    ¬ (s.st = .guarding ∧ s.cnt.toNat = 1) := fun ⟨hst, hcnt⟩ => by
  have hfar := h.far
  rw [ticksToReady_of_last_guard hst hcnt] at hfar
  omega

theorem BeforeStart.perform {e : Event} {n : Nat} {s t : State} (h : BeforeStart (e.readings.length + n) s)
    (hp : perform e s = .next t) : BeforeStart n t where
  inv := h.inv.perform hp
  clear := ovrClear_perform hp h.clear fun htick hst hcnt => by
    obtain ⟨raw, rfl⟩ := htick
    exact absurd ⟨hst, hcnt⟩ h.not_starts
  searching := by
    obtain ⟨-, hk⟩ | ⟨raw, rfl, rfl⟩ | ⟨-, rfl⟩ := perform_tick_agent hp
    · exact hk.st ▸ h.searching
    · cases tickState_phase raw s with
      | searching _ hst' => exact hst'
      | starts hst hcnt => exact absurd ⟨hst, hcnt⟩ h.not_starts
      | stores hst => exact absurd hst h.searching
      | full hfull => exact absurd hfull.1 h.searching
    · exact nofun
  far := by
    have hnear := h.inv.ticksToReady_perform hp
    have hfar := h.far
    rw [perform_cfg hp]
    omega

/-! ### Until the second capture start -/

/-- The capture that gets ready next does not break the ownership contract: it is under way, or it starts in a region
that is not held. -/
def State.nextCaptureApart (s : State) : Prop := s.st = .capturing ∨ (s.held = true → s.heldSel = s.act)

/-- It stays so until that capture is handed over: a TAKE before its start moves the consumer to the active region
(R123). -/
theorem Inv.nextCaptureApart_perform {e : Event} {s t : State} (hs : Inv s) (hp : Machine.perform e s = .next t)
    (h : s.nextCaptureApart) : t.nextCaptureApart ∨ ((∃ raw, e = .tick raw) ∧ s.atBufferFull) := by
  obtain ⟨-, hk⟩ | ⟨raw, rfl, rfl⟩ | ⟨-, rfl⟩ := perform_tick_agent hp
  · left
    by_cases hst : s.st = .capturing
    · exact .inl (hk.st.trans hst)
    · refine .inr fun hheld => ?_
      rw [hk.act]
      obtain ⟨hheld, hsel⟩ | ⟨hrdy, hsel⟩ := hk.held hheld
      · exact hsel.trans (h.resolve_left hst hheld)
      · rw [hsel, hs.readySide hrdy, if_neg hst]
  · obtain ⟨hheld, hsel, -⟩ := tickState_frame raw s
    cases tickState_phase raw s with
    | searching hst _ hact =>
      refine .inl (.inr ?_)
      rw [State.noReply_held, State.noReply_heldSel, State.noReply_act, hheld, hsel, hact]
      exact h.resolve_left hst
    | starts _ _ hst' | stores _ hst' => exact .inl (.inl hst')
    | full hfull => exact .inr ⟨⟨raw, rfl⟩, hfull⟩
  · exact .inl (.inr nofun)

/-- `n` ticks are too few to set FAULT.OVR: no capture starts, or the next one starts apart from the held region, and
after its hand-off no other one starts. -/
inductive OverrunFar (n : Nat) (s : State) : Prop where
  | beforeStart (h : BeforeStart n s)
  | apart (inv : Inv s) (clear : s.ovrClear = true) (hapart : s.nextCaptureApart)
      (far : n < s.ticksToReady + (s.cfg.nSilence + 1 + s.cfg.nGuard))

theorem OverrunFar.clear {n : Nat} {s : State} (h : OverrunFar n s) : s.ovrClear = true := by
  cases h with
  | beforeStart h => exact h.clear
  | apart _ hclear => exact hclear

/-- After the hand-off of a capture the next start is as far away as it can be. -/
theorem BeforeStart.of_full {n : Nat} {raw : Reading} {s t : State} (hfull : s.atBufferFull)
    (hp : Machine.perform (.tick raw) s = .next t) (hs : Inv s) (hclear : t.ovrClear = true)
    (hn : n < s.cfg.nSilence + 1 + s.cfg.nGuard) : BeforeStart n t := by
  obtain ⟨-, hmax, -, -⟩ := s.cfg.count_bounds
  have hinv := hs.perform hp
  obtain rfl : (bufferFull s).noReply = t := by
    rw [← tickState_full raw hfull]
    exact Host.Outcome.next.inj hp
  have hfresh : (bufferFull s).noReply.ticksToReady = s.cfg.nSilence + 1 + s.cfg.nGuard + s.cfg.bufLen + 1 :=
    ticksToReady_of_fresh rfl (toNat_ofNat16 hmax)
  have hcfg : (bufferFull s).noReply.cfg = s.cfg := rfl
  exact ⟨hinv, hclear, nofun, by rw [hfresh, hcfg]; omega⟩

theorem OverrunFar.perform {e : Event} {n : Nat} {s t : State} (h : OverrunFar (e.readings.length + n) s)
    (hp : perform e s = .next t) : OverrunFar n t := by
  obtain h | ⟨hs, hclear, hapart, hfar⟩ := h
  · exact .beforeStart (h.perform hp)
  have hclear' : t.ovrClear = true := ovrClear_perform hp hclear fun _ hst _ =>
    hapart.resolve_left (by rw [hst]; decide)
  obtain hapart' | ⟨⟨raw, rfl⟩, hfull⟩ := hs.nextCaptureApart_perform hp hapart
  · exact .apart (hs.perform hp) hclear' hapart' (hs.ticks_left_perform hp hfar)
  · rw [ticksToReady_of_atBufferFull hfull] at hfar
    exact .beforeStart (.of_full hfull hp hs hclear' (Nat.lt_of_add_lt_add_left hfar))

/-! ### A TAKE in time -/

/-- Before the next capture start, with a TAKE to come: a region is ready for it, or what is held is the active region
already; and with `m` ticks after it, all are too few for a second start. -/
structure TakeInTime (m n : Nat) (s : State) : Prop extends BeforeStart n s where
  offered : s.rdy = true ∨ s.nextCaptureApart
  total : n + m < s.ticksToReady + (s.cfg.nSilence + 1 + s.cfg.nGuard)

/-- Where an event clears RDY, what is held afterwards is the region that was ready (R118). -/
theorem heldSel_of_rdy_cleared {e : Event} {s t : State} (h : perform e s = .next t) (hs : s.rdy = true)
    (ht : t.rdy = false) (hheld : t.held = true) : t.heldSel = s.rdySel ∧ t.act = s.act := by
  obtain hd | rfl := (perform_rdy h).2 hs ht
  · obtain rfl := Host.Outcome.next.inj ((exec_take_ready hs).symm.trans ((perform_of_decode hd s).symm.trans h))
    exact ⟨rfl, rfl⟩
  · obtain rfl := Host.Outcome.next.inj h
    cases hheld

theorem TakeInTime.perform {e : Event} {m n : Nat} {s t : State} (h : TakeInTime m (e.readings.length + n) s)
    (hp : perform e s = .next t) : TakeInTime m n t where
  toBeforeStart := h.toBeforeStart.perform hp
  offered := by
    cases ht : t.rdy with
    | true => exact .inl rfl
    | false =>
      refine .inr ?_
      obtain hs | hapart := h.offered
      · refine .inr fun hheld => ?_
        obtain ⟨hsel, hact⟩ := heldSel_of_rdy_cleared hp hs ht hheld
        rw [hsel, hact, h.inv.readySide hs, if_neg h.searching]
      · exact (h.inv.nextCaptureApart_perform hp hapart).resolve_right fun ⟨_, hfull⟩ => h.searching hfull.1
  total := h.inv.ticks_left_perform hp ((Nat.add_assoc _ _ _).symm.trans_lt h.total)

/-- No region is ready right after a TAKE (R118). -/
theorem rdy_of_take {s t : State} (hp : perform (encode .take) s = .next t) : t.rdy = false := by
  cases hr : s.rdy with
  | true => exact Host.Outcome.next.inj ((exec_take_ready hr).symm.trans hp) ▸ rfl
  | false =>
    have hidle : exec .take s = .next (s.reply false 0) := if_neg (Bool.eq_false_iff.1 hr)
    exact Host.Outcome.next.inj (hidle.symm.trans hp) ▸ hr

/-- After the TAKE the next capture starts apart from what is held. -/
theorem TakeInTime.take {m : Nat} {s t : State} (h : TakeInTime m 0 s)
    (hp : Machine.perform (encode .take) s = .next t) : OverrunFar m t :=
  have ht : TakeInTime m 0 t := TakeInTime.perform (e := encode .take) h hp
  .apart ht.inv ht.clear (ht.offered.resolve_left (Bool.eq_false_iff.1 (rdy_of_take hp)))
    ((Nat.zero_add m).symm.trans_lt ht.total)

/-- Settles O60: `OverrunFar` counts the ticks off from the start, or from the TAKE that `TakeInTime` leads to. -/
theorem overrunNeedsTwoCaptureStarts : Obligations.OverrunNeedsTwoCaptureStarts := by
  refine ⟨fun es s t hs hst hcnt hheld hclear h hlt => ?_, fun before after s t hs hst hcnt hr hclear h hb hlt => ?_⟩
  · have hfresh := ticksToReady_of_fresh hst hcnt
    have hfar : OverrunFar (tickCount es) s :=
      .apart hs hclear (.inr fun hyes => absurd hyes (Bool.eq_false_iff.1 hheld)) (by omega)
    exact (performAll_induction hfar h OverrunFar.perform).clear
  · have hfresh := ticksToReady_of_fresh hst hcnt
    obtain ⟨u, hu, h⟩ := performAll_append h
    obtain ⟨v, hv, h⟩ := performAll_cons_eq_next.1 h
    have hin : TakeInTime (tickCount after) (tickCount before) s :=
      ⟨⟨hs, hclear, by rw [hst]; decide, by omega⟩, .inl hr, by omega⟩
    have hfar : OverrunFar (tickCount after) v := (performAll_induction hin hu TakeInTime.perform).take hv
    exact (performAll_induction hfar h OverrunFar.perform).clear

end Sys2Proof.Machine
end
